-- ==== Sys2Proof/Word.lean ====
section
/-! DEFINITION. The two sizes of data the spec knows (R5, R11): the byte and the 32-bit register word. -/

namespace Sys2Proof

/-- A byte, 8 bits (R5). -/
abbrev Byte := BitVec 8

/-- A register word, 32 bits (R11). -/
abbrev Word := BitVec 32

/-- `int32(v)`: a 32-bit word read as a two's-complement integer (R5). -/
abbrev int32 (v : Word) : Int := v.toInt

end Sys2Proof
end

