-- ==== Sys2Proof/Config.lean ====
section
/-! DEFINITION. What an implementation fixes (the capacity `CAP`) and the free values, opaque constants of which
nothing can be proved but their type (R7: "any value (a draw), never a chosen value"). -/

namespace Sys2Proof

/-- The implementation's choice of capacity, a free number.
DESIGN CHOICE, safe (log 1). -/
opaque Config.capChoice : Nat

/-- `CAP`, the bytes in one bank of pixel memory: OPEN, with `4 <= CAP < 2^31` (R4, D5).
Every number of that range is the value of some choice, and nothing else is known of it (log 1). -/
def Config.cap : Nat := Config.capChoice % (2 ^ 31 - 4) + 4

/-- A free byte for each draw: an unspecified byte of pixel memory or of hidden state (R81, R100, R29). -/
opaque Config.freeByte : Nat → Byte

/-- A free number for each draw: an unspecified cursor (R100, R29). -/
opaque Config.freeNat : Nat → Nat

/-- A free bit for each draw: an unspecified flag (R25, R31). -/
opaque Config.freeBool : Nat → Bool

/-- A free byte string for each draw: an unspecified line or pixel buffer (R28, R29). -/
opaque Config.freeBytes : Nat → List Byte

end Sys2Proof
end

