-- ==== Sys2Proof/Syntax.lean ====
section
/-! DEFINITION. The instructions: the two chunk types of the RLE stream and the eight host commands
(R60; the ten rows of `spec/opcode_table.json`), and the two kinds of coded item they are read from. -/

namespace Sys2Proof

/-- One constructor per row of the opcode table. A chunk carries its pixel count `n` (R64), which is all its header
says; its payload stays in the stream and is read as the chunk runs (R56). A command carries nothing: its operands
are in `ARG0`, `ARG1`, `ARG2` and `PIX` (R67, R68). -/
inductive Instr where
  /-- `RAW`: `n` literal pixels follow the header (R62, R92). -/
  | raw (n : Nat)
  /-- `RUN`: one pixel follows the header, repeated `n` times (R63, R93). -/
  | run (n : Nat)
  /-- `ALLOC w h bpp` (R81). -/
  | alloc
  /-- `GETPIX x y` (R82). -/
  | getpix
  /-- `SETPIX x y (p)` (R83). -/
  | setpix
  /-- `DECODE w h bpp` (R91). -/
  | decode
  /-- `ENCODE` (R106). -/
  | encode
  /-- `FLIPV` (R120). -/
  | flipv
  /-- `FLIPH` (R122). -/
  | fliph
  /-- `SCALE w h` (R132). -/
  | scale
  deriving DecidableEq, Repr

/-- The block decodes two kinds of coded item (R60). -/
inductive Coded where
  /-- A chunk's header byte, taken from `IN` (R61). -/
  | header (h : Byte)
  /-- The 32-bit word written to `CMD` (R67). -/
  | command (c : Word)
  deriving DecidableEq, Repr

/-- A command, as against a chunk (R60). -/
def Instr.isCommand : Instr → Bool
  | .raw _ => false
  | .run _ => false
  | .alloc => true
  | .getpix => true
  | .setpix => true
  | .decode => true
  | .encode => true
  | .flipv => true
  | .fliph => true
  | .scale => true

end Sys2Proof
end

