-- ==== Sys2Proof/Machine/State.lean ====
section
/-! DEFINITION. The state of the block as plain data (R10 to R31), its two streams and the host's script, the reasons
a step can stop, and the state after reset. -/

namespace Sys2Proof.Machine

/-- Reasons the machine stops. None can arise in a state that meets the invariant `State.Inv` of Safety.lean; each is
safe, since a stopped run proves nothing about what follows. -/
inductive Fault where
  /-- The engine was sent to offset `a` of a bank, at or beyond `CAP`, where no byte is (R21, R41).
  Raised by `memRead`, `memWrite`, `shRead`, `shWrite`. Safe (log 7). -/
  | noSuchByte (a : Nat)
  /-- The engine read a byte among the `n` from offset `a` of a bank that nothing has written since power-on
  (R31: unspecified). Raised by `memRead`, `shRead`. Safe (log 2). -/
  | unwrittenByte (a n : Nat)
  /-- A `while` of the pseudocode would never end (R192). Raised by `whileLoop`. Safe (log 8). -/
  | endlessLoop
  deriving DecidableEq, Repr

/-- Reasons a step has no meaning. -/
inductive Refusal where
  /-- An instruction whose arm in `exec` has no meaning yet. Safe. -/
  | notModelled (mnemonic : String)
  /-- A host access to an offset that is no register: "an access there is outside this spec" (R12, R47).
  Raised by the host's register reads and writes. Safe (log 12). -/
  | notARegister (offset : Nat)
  deriving DecidableEq, Repr

/-- How a command ends: the seven values `STATUS.RESULT` can hold (R150, U12). -/
inductive Result where
  | ok
  | truncatedStream
  | writeFailure
  | pixelCountOverflow
  | invalidDimensions
  | outOfBounds
  | illegalCommand
  deriving DecidableEq, Repr

/-- The ten registers of the map (R12). -/
inductive Reg where
  | cmd | status | arg0 | arg1 | arg2 | pix | pbW | pbH | pbBpp | capr
  deriving DecidableEq, Repr

/-- What the host can do to the block between commands. -/
inductive HostOp where
  /-- A write of a whole word to a register (R11, R13). -/
  | write (offset : Nat) (v : Word)
  /-- A read of a whole register (R11). -/
  | read (offset : Nat)
  /-- The reset input (R180). -/
  | reset
  /-- A new input stream, or the old one at another position (R22, R184, R191). -/
  | supplyIn (data : List Byte) (pos : Nat) (failAt : Option Nat)
  /-- A new, empty output stream with the answers it will give (R23, R185). -/
  | supplyOut (answers : List Bool)
  deriving DecidableEq, Repr

/-- One bank of bytes, sparse: the listed bytes, by strictly rising offset (`Memory.wf`). An unlisted byte has no
value (log 2). -/
abbrev Memory := List Host.Cell

/-- The input stream `IN` (R22). -/
structure InStream where
  /-- `IN.data`. -/
  data : List Byte
  /-- `IN.pos`, the count of bytes already taken. -/
  pos : Nat
  /-- The position at which the stream reports a read error, if any. -/
  failAt : Option Nat
  deriving DecidableEq, Repr

/-- The output stream `OUT` (R23). -/
structure OutStream where
  /-- `OUT.data`. -/
  data : List Byte
  /-- The environment's answers to the coming `OutPut` calls, `true` for accept; past their end it accepts (log 11). -/
  answers : List Bool
  deriving DecidableEq, Repr

/-- The decoder's working values (R26). `pos0` is the model's own: `IN.pos` when the DECODE began (log 4). -/
structure Decoder where
  n : Nat
  cnt : Nat
  wp : Nat
  hd : Byte
  px : List Byte
  pos0 : Nat
  deriving DecidableEq, Repr

/-- The encoder's working values (R26). -/
structure Encoder where
  n : Nat
  cur : Nat
  start : Nat
  p : Nat
  rl : Nat
  raw : Bool
  eq : Bool
  deriving DecidableEq, Repr

/-- The flips' working values (R26, R28). -/
structure Flipper where
  lineBuf : List Byte
  pa : List Byte
  pb : List Byte
  deriving DecidableEq, Repr

/-- The scaler's working values (R26). -/
structure Scaler where
  herr : Nat
  verr : Nat
  i : Nat
  nx : Nat
  j : Nat
  oscan : Nat
  nscan : Nat
  deriving DecidableEq, Repr

/-- The state: everything of R10, the two streams, and the model's own fields (INVENTORY.md, '## State'). -/
structure State where
  /-- `ARG0` (R15). -/
  arg0 : Word
  /-- `ARG1` (R15). -/
  arg1 : Word
  /-- `ARG2` (R15). -/
  arg2 : Word
  /-- `PIX` (R16). -/
  pix : Word
  /-- `PB_W` (R17). -/
  pbW : Word
  /-- `PB_H` (R17). -/
  pbH : Word
  /-- `PB_BPP` (R17). -/
  pbBpp : Word
  /-- `CAPR`, the parameter `CAP` (R20). -/
  capr : Nat
  /-- `STATUS.RESULT` (R14). -/
  result : Result
  /-- `STATUS.STICKY` (R14). -/
  sticky : Bool
  /-- `STATUS.BUSY` (R14): in the model, a DECODE stands between two of its chunks (log 16). -/
  busy : Bool
  /-- `PM`, the active bank (R21). -/
  pm : Memory
  /-- `SH`, the shadow bank (R27). -/
  sh : Memory
  /-- `BANK`, the bank select (R27). -/
  bank : Bool
  /-- The decoder's working values (R26). -/
  dec : Decoder
  /-- The encoder's working values (R26). -/
  enc : Encoder
  /-- The flips' working values (R26). -/
  flip : Flipper
  /-- The scaler's working values (R26). -/
  scl : Scaler
  /-- `IN` (R22). -/
  inS : InStream
  /-- `OUT` (R23). -/
  outS : OutStream
  /-- The host's coming actions, first one first (R75; the model's own, log 9). -/
  host : List HostOp
  /-- The words the host's register reads have returned, oldest first (the model's own, log 9). -/
  reads : List Word
  /-- The number of free values drawn so far (the model's own, log 5). -/
  draws : Nat
  deriving DecidableEq, Repr

/-- Unspecified decoder values (R29), drawn from `k` on. -/
def Decoder.unspecified (k : Nat) : Decoder where
  n := Config.freeNat k
  cnt := Config.freeNat (k + 1)
  wp := Config.freeNat (k + 2)
  hd := Config.freeByte (k + 3)
  px := Config.freeBytes (k + 4)
  pos0 := Config.freeNat (k + 5)

/-- Unspecified encoder values (R29), drawn from `k` on. -/
def Encoder.unspecified (k : Nat) : Encoder where
  n := Config.freeNat k
  cur := Config.freeNat (k + 1)
  start := Config.freeNat (k + 2)
  p := Config.freeNat (k + 3)
  rl := Config.freeNat (k + 4)
  raw := Config.freeBool (k + 5)
  eq := Config.freeBool (k + 6)

/-- Unspecified flip buffers (R28, R29), drawn from `k` on. -/
def Flipper.unspecified (k : Nat) : Flipper where
  lineBuf := Config.freeBytes k
  pa := Config.freeBytes (k + 1)
  pb := Config.freeBytes (k + 2)

/-- Unspecified scaler values (R29), drawn from `k` on. -/
def Scaler.unspecified (k : Nat) : Scaler where
  herr := Config.freeNat k
  verr := Config.freeNat (k + 1)
  i := Config.freeNat (k + 2)
  nx := Config.freeNat (k + 3)
  j := Config.freeNat (k + 4)
  oscan := Config.freeNat (k + 5)
  nscan := Config.freeNat (k + 6)

/-- The state right after reset (R31, R180), before the host has handed over a stream or issued an action. The
registers hold the spec's values; what the spec leaves unspecified is free (hidden state, `BANK`) or without a value
(the two banks). -/
def State.reset : State where
  arg0 := 0
  arg1 := 0
  arg2 := 0
  pix := 0
  pbW := 0
  pbH := 0
  pbBpp := 0
  capr := Config.cap
  result := .ok
  sticky := false
  busy := false
  pm := []
  sh := []
  bank := Config.freeBool 0
  dec := Decoder.unspecified 1
  enc := Encoder.unspecified 7
  flip := Flipper.unspecified 14
  scl := Scaler.unspecified 17
  inS := ⟨[], 0, none⟩
  outS := ⟨[], []⟩
  host := []
  reads := []
  draws := 24

end Sys2Proof.Machine
end

