-- ==== Sys2Proof/Machine/Operands.lean ====
section
/-! DEFINITION. How commands read their operands: the geometry registers as sizes, the operand registers as `int32`,
the checks of R80 and R85, pixel addressing (R42, R43) and the packing of `PIX` (R16, R46). -/

namespace Sys2Proof.Machine

/-- `PB_W` as a count of columns; a negative `int32`, which no command writes, counts none (R17, log 17). -/
def State.width (s : State) : Nat := (int32 s.pbW).toNat

/-- `PB_H` as a count of rows (R17, log 17). -/
def State.height (s : State) : Nat := (int32 s.pbH).toNat

/-- `PB_BPP` as a count of bytes (R17, log 17). -/
def State.bpp (s : State) : Nat := (int32 s.pbBpp).toNat

/-- `PB_W*PB_H`, the pixels of the buffer (R43). -/
def State.pixelCount (s : State) : Nat := s.width * s.height

/-- `PB_W*PB_H*PB_BPP`, the bytes of the valid region (R18, R41). -/
def State.dataSize (s : State) : Nat := s.width * s.height * s.bpp

/-- `PB_W*PB_BPP`, the bytes of one scanline (R44). -/
def State.lineSize (s : State) : Nat := s.width * s.bpp

/-- "buffer empty": `PB_W = 0` or `PB_H = 0` or `PB_BPP = 0` (R19). -/
def State.isEmpty (s : State) : Bool := s.pbW == 0 || s.pbH == 0 || s.pbBpp == 0

/-- `GeomOK(w, h, bpp)` against the capacity `cap`; the product is exact (R80, R86, R156). -/
abbrev GeomOK (cap : Nat) (w h bpp : Int) : Prop :=
  0 < w ∧ 0 < h ∧ (bpp = 1 ∨ bpp = 3 ∨ bpp = 4) ∧ w * h * bpp ≤ cap

/-- The geometry in the operand registers passes the check, as ALLOC and DECODE ask (R81, R91). -/
abbrev State.argsOK (s : State) : Prop := GeomOK s.capr (int32 s.arg0) (int32 s.arg1) (int32 s.arg2)

/-- SCALE's checks: `w > 0`, `h > 0`, the buffer not empty, and the new buffer fits a bank (R131). -/
abbrev State.scaleOK (s : State) : Prop :=
  0 < int32 s.arg0 ∧ 0 < int32 s.arg1 ∧ s.isEmpty = false ∧
    int32 s.arg0 * int32 s.arg1 * int32 s.pbBpp ≤ s.capr

/-- `InBounds(x, y)` with `x`, `y` read as `int32` (R85). -/
abbrev State.inBounds (s : State) (x y : Int) : Prop := 0 ≤ x ∧ x < s.width ∧ 0 ≤ y ∧ y < s.height

/-- `addr(x, y) = (y*PB_W + x)*PB_BPP`, the only addressing mode (R42). -/
def State.addr (s : State) (x y : Nat) : Nat := (y * s.width + x) * s.bpp

/-- The column operand of GETPIX and SETPIX (R68). -/
def State.argX (s : State) : Int := int32 s.arg0

/-- The row operand of GETPIX and SETPIX (R68). -/
def State.argY (s : State) : Int := int32 s.arg1

/-- The offset GETPIX reads from and SETPIX writes to, for operands in bounds (R82, R83). -/
def State.argAddr (s : State) : Nat := s.addr s.argX.toNat s.argY.toNat

/-- `PIX.raw[k]`: bits `8k+7:8k` (R16). -/
def rawByte (v : Word) (k : Nat) : Byte := v.extractLsb' (8 * k) 8

/-- The word whose `raw[k]` is `s[k]` for the bytes of `s` and 0 above them (R82, R46). -/
def packPixel (s : List Byte) : Word :=
  (s.getD 3 0 ++ s.getD 2 0 ++ s.getD 1 0 ++ s.getD 0 0 : BitVec (8 + 8 + 8 + 8))

/-- `[PIX.raw[0], ..., PIX.raw[n - 1]]` (R83). -/
def unpackPixel (v : Word) (n : Nat) : List Byte := (List.range n).map (rawByte v)

end Sys2Proof.Machine
end

