-- ==== Sys2Proof/Machine/Flags.lean ====
section
/-! DEFINITION. `STATUS`: the numbers of the result codes, the word the host reads, and what a host write to it does
(R14, R25, R150, R167). -/

namespace Sys2Proof.Machine

/-- The numeric result codes (R150). -/
def Result.code : Result → BitVec 4
  | .ok => 0
  | .truncatedStream => 1
  | .writeFailure => 2
  | .pixelCountOverflow => 3
  | .invalidDimensions => 4
  | .outOfBounds => 5
  | .illegalCommand => 6

/-- The `STATUS` word: `RESULT` in bits 3:0, `STICKY` in 4, `EMPTY` in 5, zeros in 30:6, `BUSY` in 31 (R14). -/
def State.statusWord (s : State) : Word :=
  (BitVec.ofBool s.busy ++ (0 : BitVec 25) ++ BitVec.ofBool s.isEmpty ++ BitVec.ofBool s.sticky ++ s.result.code :
    BitVec (1 + 25 + 1 + 1 + 4))

/-- A host write to `STATUS`: a 1 in bit 4 clears `STICKY`, nothing else is writable (R14, R167). -/
def State.writeStatus (s : State) (v : Word) : State :=
  { s with sticky := s.sticky && !v.getLsbD 4 }

end Sys2Proof.Machine
end

