-- ==== Sys2Proof/Machine/Ops.lean ====
section
/-! DEFINITION. The named operations the meanings are written over: a bank's bytes, the pseudocode's primitives
`MemRead`, `MemWrite`, `ShRead`, `ShWrite`, `InGet`, `OutPut`, `raise`, `done` (R6), its loops, and the draws of
unspecified values (R7). -/

namespace Sys2Proof.Machine

/-! ### A bank -/

/-- The canonical form: offsets strictly rising, so no offset twice. No listed byte equals what an unlisted one
reads as, since an unlisted byte has no value (log 2). -/
abbrev Memory.wf (m : Memory) : Prop := m.Pairwise fun p q => p.1 < q.1

/-- The byte at offset `a`, if it has a value. -/
def Memory.byte : Memory → Nat → Option Byte
  | [], _ => none
  | (k, b) :: m, a => if k = a then some b else Memory.byte m a

/-- The bank with byte `a` set to `v`, in canonical form. -/
def Memory.put : Memory → Nat → Byte → Memory
  | [], a, v => [(a, v)]
  | (k, b) :: m, a, v =>
    if a < k then (a, v) :: (k, b) :: m
    else if k = a then (a, v) :: m
    else (k, b) :: Memory.put m a v

/-- The `n` bytes from offset `a` on, if all have a value: the byte list of `MemRead` (R6). -/
def Memory.bytes (m : Memory) (a : Nat) : Nat → Option (List Byte)
  | 0 => some []
  | n + 1 =>
    match m.byte a, Memory.bytes m (a + 1) n with
    | some b, some bs => some (b :: bs)
    | _, _ => none

/-- The bank with the bytes of `bs` written from offset `a` up, in ascending order: `MemWrite` (R6). -/
def Memory.putAll (m : Memory) (a : Nat) : List Byte → Memory
  | [] => m
  | b :: bs => Memory.putAll (m.put a b) (a + 1) bs

/-! ### How a piece of pseudocode ends -/

/-- A piece of pseudocode that does not run to its last line: it raised an error kind in some state (R6), or the
machine stopped. -/
inductive Stop where
  | raised (e : Result) (s : State)
  | fault (f : Fault)
  deriving DecidableEq, Repr

/-- What a piece of pseudocode yields. -/
abbrev Eng (α : Type) := Except Stop α

/-- `raise E` (R6). -/
def raising {α : Type} (e : Result) (s : State) : Eng α := .error (.raised e s)

/-- `raise E` as the end of a command, the one entry every error takes: the code is recorded, `STICKY` is set, `BUSY`
is cleared, and control goes nowhere (R159, R160). -/
def raise (e : Result) (s : State) : State :=
  { s with result := e, sticky := true, busy := false }

/-- `done`: the command ends with `OK`; `STICKY` stays as it is (R6, R14). -/
def complete (s : State) : State :=
  { s with result := .ok, busy := false }

/-- The end of a command whose pseudocode is `r` (R160). -/
def settle : Eng State → Host.Outcome State Fault Refusal
  | .ok s => .next (complete s)
  | .error (.raised e s) => .next (raise e s)
  | .error (.fault f) => .fault f

/-! ### Draws of unspecified values -/

/-- The hidden working values after a command that used them: unspecified, drawn afresh (R28, R29, log 6). -/
def scrub (s : State) : State :=
  { s with
    dec := Decoder.unspecified s.draws
    enc := Encoder.unspecified (s.draws + 6)
    flip := Flipper.unspecified (s.draws + 13)
    scl := Scaler.unspecified (s.draws + 16)
    draws := s.draws + 23 }

/-- The unspecified bytes of a draw of `n`. -/
def freeData (k n : Nat) : List Byte := (List.range n).map fun a => Config.freeByte (k + a)

/-- Every byte of the valid region becomes unspecified: one draw per byte, made once (R81, R100, U1, U4, log 3).
Nothing outside the valid region is written. -/
def drawData (s : State) : State :=
  { s with
    pm := s.pm.putAll 0 (freeData s.draws s.dataSize)
    draws := s.draws + s.dataSize }

/-- `IN.pos` becomes unspecified, somewhere from where the DECODE began to the end of the stream (R100, U2, log 4). -/
def drawPos (s : State) : State :=
  { s with
    inS := { s.inS with
      pos := s.dec.pos0 + Config.freeNat s.draws % (s.inS.data.length - s.dec.pos0 + 1) }
    draws := s.draws + 1 }

/-- The geometry registers, written from three words (R17). -/
def setGeometry (w h bpp : Word) (s : State) : State :=
  { s with pbW := w, pbH := h, pbBpp := bpp }

/-! ### The primitives (R6) -/

/-- `MemRead(a, n)` from a bank of `cap` bytes. -/
def bankRead (cap : Nat) (m : Memory) (a n : Nat) : Eng (List Byte) :=
  if a + n ≤ cap then
    match m.bytes a n with
    | some bs => .ok bs
    | none => .error (.fault (.unwrittenByte a n))
  else .error (.fault (.noSuchByte (a + n - 1)))

/-- `MemWrite(a, n, bs)`, with `n` the length of `bs`, to a bank of `cap` bytes. -/
def bankWrite (cap : Nat) (m : Memory) (a : Nat) (bs : List Byte) : Eng Memory :=
  if a + bs.length ≤ cap then .ok (m.putAll a bs)
  else .error (.fault (.noSuchByte (a + bs.length - 1)))

/-- `MemRead(a, n)`. -/
def memRead (s : State) (a n : Nat) : Eng (List Byte) := bankRead s.capr s.pm a n

/-- `MemWrite(a, n, bs)`. -/
def memWrite (s : State) (a : Nat) (bs : List Byte) : Eng State := do
  let m ← bankWrite s.capr s.pm a bs
  return { s with pm := m }

/-- `ShRead(a, n)`. -/
def shRead (s : State) (a n : Nat) : Eng (List Byte) := bankRead s.capr s.sh a n

/-- `ShWrite(a, n, bs)`. -/
def shWrite (s : State) (a : Nat) (bs : List Byte) : Eng State := do
  let m ← bankWrite s.capr s.sh a bs
  return { s with sh := m }

/-- `pixel(i) = MemRead(i*PB_BPP, PB_BPP)` (R43). -/
def readPixelAt (s : State) (i : Nat) : Eng (List Byte) := memRead s (i * s.bpp) s.bpp

/-- `InGet()`: the next byte and the state with the cursor advanced, or `none` at the end of the stream or at its
read error (R22). -/
def inGet (s : State) : Option (Byte × State) :=
  if s.inS.failAt = some s.inS.pos then none
  else
    match s.inS.data[s.inS.pos]? with
    | some b => some (b, { s with inS := { s.inS with pos := s.inS.pos + 1 } })
    | none => none

/-- A byte of a chunk is wanted: `TruncatedStream` if `InGet` gives none (R95). -/
def needByte (s : State) : Eng (Byte × State) :=
  match inGet s with
  | some r => .ok r
  | none => raising .truncatedStream s

/-- `k` bytes of a chunk are wanted, one after another (R56, R91). -/
def needBytes : Nat → State → Eng (List Byte × State)
  | 0, s => .ok ([], s)
  | k + 1, s => do
    let (b, s) ← needByte s
    let (bs, s) ← needBytes k s
    return (b :: bs, s)

/-- `OutPut(b)`: the byte appended, or `WriteFailure` with nothing appended when the environment refuses it
(R23, R113). -/
def outPut (s : State) (b : Byte) : Eng State :=
  match s.outS.answers with
  | false :: as => raising .writeFailure { s with outS := { s.outS with answers := as } }
  | true :: as => .ok { s with outS := ⟨s.outS.data ++ [b], as⟩ }
  | [] => .ok { s with outS := ⟨s.outS.data ++ [b], []⟩ }

/-- The bytes of `bs` offered in order, up to the first refusal (R111, R113). -/
def outPutAll : State → List Byte → Eng State
  | s, [] => .ok s
  | s, b :: bs => do
    let s ← outPut s b
    outPutAll s bs

/-! ### The loops -/

/-- `for k in i .. i + n - 1` (R6). -/
def forLoop (body : Nat → State → Eng State) : Nat → Nat → State → Eng State
  | _, 0, s => .ok s
  | i, n + 1, s => do
    let s ← body i s
    forLoop body (i + 1) n s

/-- `while cond`, with a bound on its iterations that a loop which ends never reaches (R192, log 8). -/
def whileLoop (cond : State → Bool) (body : State → Eng State) : Nat → State → Eng State
  | 0, s => if cond s then .error (.fault .endlessLoop) else .ok s
  | n + 1, s =>
    if cond s then do
      let s ← body s
      whileLoop cond body n s
    else .ok s

/-! ### Checks shared by commands -/

/-- "if buffer empty: raise InvalidDimensions" (R154). -/
def requireBuffer (s : State) : Eng Unit :=
  if s.isEmpty then raising .invalidDimensions s else .ok ()

/-- "if not InBounds(x, y): raise OutOfBounds", on the operands of GETPIX and SETPIX (R155). -/
def requireInBounds (s : State) : Eng Unit :=
  if s.inBounds s.argX s.argY then .ok () else raising .outOfBounds s

/-- The end of a command that used hidden working values: as `settle`, the values left unspecified (R29). -/
def settleScrub : Eng State → Host.Outcome State Fault Refusal
  | .ok s => .next (complete (scrub s))
  | .error (.raised e s) => .next (raise e (scrub s))
  | .error (.fault f) => .fault f

end Sys2Proof.Machine
end

