-- ==== Sys2Proof/Machine/Flip.lean ====
section
/-! DEFINITION. FLIPV and FLIPH, in place (43_flip.md). -/

namespace Sys2Proof.Machine

/-- One pass of FLIPV's loop: rows `i` and `PB_H - 1 - i` change places through `LINEBUF` (R120). -/
def swapRows (i : Nat) (s : State) : Eng State := do
  let a := i * s.lineSize
  let b := (s.height - 1 - i) * s.lineSize
  let line ← memRead s a s.lineSize
  let s := { s with flip := { s.flip with lineBuf := line } }
  let s ← memWrite s a (← memRead s b s.lineSize)
  memWrite s b s.flip.lineBuf

/-- `FLIPV`: reverse the order of the rows (R120). On an empty buffer it raises `InvalidDimensions` (R125). -/
def execFlipv (s : State) : Host.Outcome State Fault Refusal :=
  if s.isEmpty then .next (raise .invalidDimensions s)
  else settleScrub (forLoop swapRows 0 (s.height / 2) s)

/-- One pass of FLIPH's inner loop: pixels `(j, y)` and `(PB_W - 1 - j, y)` change places through `pa` and `pb`
(R122). -/
def swapPixels (y j : Nat) (s : State) : Eng State := do
  let a := s.addr j y
  let b := s.addr (s.width - 1 - j) y
  let pa ← memRead s a s.bpp
  let pb ← memRead s b s.bpp
  let s := { s with flip := { s.flip with pa := pa, pb := pb } }
  let s ← memWrite s a s.flip.pb
  memWrite s b s.flip.pa

/-- One row of FLIPH (R122). -/
def mirrorRow (y : Nat) (s : State) : Eng State := forLoop (swapPixels y) 0 (s.width / 2) s

/-- `FLIPH`: reverse the order of the pixels in every row (R122). On an empty buffer it raises `InvalidDimensions`
(R125). -/
def execFliph (s : State) : Host.Outcome State Fault Refusal :=
  if s.isEmpty then .next (raise .invalidDimensions s)
  else settleScrub (forLoop mirrorRow 0 s.height s)

end Sys2Proof.Machine
end

