-- ==== Sys2Proof/Machine/PixelBuffer.lean ====
section
/-! DEFINITION. ALLOC, GETPIX, SETPIX (40_pixelbuffer.md). -/

namespace Sys2Proof.Machine

/-- `ALLOC w h bpp` (R81): the geometry is written and every byte of the new buffer is unspecified; a refused geometry
raises `InvalidDimensions` before any effect (R80). -/
def execAlloc (s : State) : Host.Outcome State Fault Refusal :=
  if s.argsOK then .next (complete (drawData (setGeometry s.arg0 s.arg1 s.arg2 s)))
  else .next (raise .invalidDimensions s)

/-- The pseudocode of GETPIX up to `done` (R82). -/
def getpixBody (s : State) : Eng State := do
  requireBuffer s
  requireInBounds s
  let bs ← memRead s s.argAddr s.bpp
  return { s with pix := packPixel bs }

/-- `GETPIX x y` (R82). -/
def execGetpix (s : State) : Host.Outcome State Fault Refusal := settle (getpixBody s)

/-- The pseudocode of SETPIX up to `done` (R83). -/
def setpixBody (s : State) : Eng State := do
  requireBuffer s
  requireInBounds s
  memWrite s s.argAddr (unpackPixel s.pix s.bpp)

/-- `SETPIX x y (p)` (R83). -/
def execSetpix (s : State) : Host.Outcome State Fault Refusal := settle (setpixBody s)

end Sys2Proof.Machine
end

