-- ==== Sys2Proof/WellFormed.lean ====
section
/-! DEFINITION. Which instructions the encodings can express. -/

namespace Sys2Proof

/-- A chunk's pixel count is `L + 1` for a seven-bit field `L` (R61, R64), so 1 to 128; a command is one of eight
words (R68), all of them expressible. -/
def Instr.check : Instr → Bool
  | .raw n => decide (1 ≤ n) && decide (n ≤ 128)
  | .run n => decide (1 ≤ n) && decide (n ≤ 128)
  | .alloc => true
  | .getpix => true
  | .setpix => true
  | .decode => true
  | .encode => true
  | .flipv => true
  | .fliph => true
  | .scale => true

/-- An instruction the encodings can express. -/
abbrev Instr.WellFormed (i : Instr) : Prop := i.check = true

end Sys2Proof
end

