-- ==== Sys2Proof/Decode.lean ====
section
/-! DEFINITION. Decoding a chunk header and a command word, total, with the one rejection the spec names, and the
encoder written from the same tables (R61 to R71). -/

namespace Sys2Proof

/-- Why a coded item is no instruction. -/
inductive DecodeError where
  /-- The word written to `CMD` is none of the eight of R68 (R71, R157). No header is ever rejected (R69). -/
  | illegalCommand
  deriving DecidableEq, Repr

/-- A chunk header (R61, R64): bit 7 tells `RAW` from `RUN`, and the count is `h + 1` or `h - 127`.
All 256 headers are chunks (R69). -/
def decodeHeader (h : Byte) : Instr :=
  if h.toNat < 128 then .raw (h.toNat + 1) else .run (h.toNat - 127)

/-- A command word (R67, R68): bits 3:0 are the command number, bits 31:4 are zero. -/
def decodeCommand (c : Word) : Except DecodeError Instr :=
  if c.extractLsb' 4 28 = 0 then
    match (c.extractLsb' 0 4).toNat with
    | 1 => .ok .alloc
    | 2 => .ok .getpix
    | 3 => .ok .setpix
    | 4 => .ok .decode
    | 5 => .ok .encode
    | 6 => .ok .flipv
    | 7 => .ok .fliph
    | 8 => .ok .scale
    | _ => .error .illegalCommand
  else .error .illegalCommand

/-- Decoding either kind of coded item (R60). -/
def decode : Coded → Except DecodeError Instr
  | .header h => .ok (decodeHeader h)
  | .command c => decodeCommand c

/-- The header of a `RAW` chunk of `n` pixels: "`run_length - 1` if raw" (R64, R111). -/
def rawHeader (n : Nat) : Byte := BitVec.ofNat 8 (n - 1)

/-- The header of a `RUN` chunk of `n` pixels: "`run_length + 127` if repeat" (R64, R111). -/
def runHeader (n : Nat) : Byte := BitVec.ofNat 8 (n + 127)

/-- The encoder: the coded item of an instruction (R64, R68). -/
def encode : Instr → Coded
  | .raw n => .header (rawHeader n)
  | .run n => .header (runHeader n)
  | .alloc => .command 0x00000001
  | .getpix => .command 0x00000002
  | .setpix => .command 0x00000003
  | .decode => .command 0x00000004
  | .encode => .command 0x00000005
  | .flipv => .command 0x00000006
  | .fliph => .command 0x00000007
  | .scale => .command 0x00000008

/-- `length(h, bpp)`: the bytes of a chunk, its header included (R66). -/
def chunkLength (h : Byte) (bpp : Nat) : Nat :=
  if h.toNat < 128 then 1 + (h.toNat + 1) * bpp else 1 + bpp

/-- The instruction read from a row's bits as `spec/opcode_table.json` numbers them: a row of 8 bits is a chunk
header, a row of 32 bits is a command word. -/
def decodeTableWord (nbits w : Nat) : Option Instr :=
  match nbits with
  | 8 => (decode (.header (BitVec.ofNat 8 w))).toOption
  | 32 => (decode (.command (BitVec.ofNat 32 w))).toOption
  | _ => none

end Sys2Proof
end

