-- ==== Sys2Proof/Machine/RleDecode.lean ====
section
/-! DEFINITION. DECODE and the two chunk types as the decoder executes them (41_rle_decode.md). -/

namespace Sys2Proof.Machine

/-- `ReadPixel()`: `PB_BPP` bytes of the stream into `px` (R91). -/
def readPixel (s : State) : Eng State := do
  let (bs, s) ← needBytes s.bpp s
  return { s with dec := { s.dec with px := bs } }

/-- `Append()`: the count check stands before the write, so the pixel that would be number `N + 1` is refused and not
stored (R91, R94, C3). -/
def append (s : State) : Eng State :=
  if s.dec.cnt + 1 > s.dec.n then raising .pixelCountOverflow s
  else do
    let s ← memWrite s s.dec.wp s.dec.px
    return { s with dec := { s.dec with wp := s.dec.wp + s.bpp, cnt := s.dec.cnt + 1 } }

/-- `ExecRAW`: for each of `n` pixels, read it, then append it (R92, R97). -/
def rawBody (n : Nat) (s : State) : Eng State :=
  forLoop (fun _ s => do append (← readPixel s)) 0 n s

/-- `ExecRUN`: read one pixel, then append it `n` times (R93, R97). -/
def runBody (n : Nat) (s : State) : Eng State := do
  let s ← readPixel s
  forLoop (fun _ s => append s) 0 n s

/-- The header just taken becomes `hd` (R91). -/
def setHeader (h : Byte) (s : State) : State := { s with dec := { s.dec with hd := h } }

/-- DECODE up to its loop: the geometry is written, `N`, `cnt` and `wp` are assigned (R91). -/
def decodeStart (s : State) : State :=
  let s := setGeometry s.arg0 s.arg1 s.arg2 s
  { s with
    busy := true
    dec := { s.dec with n := s.pixelCount, cnt := 0, wp := 0, pos0 := s.inS.pos } }

/-- DECODE's end with `OK`, at `cnt = N` (R98). -/
def finishDecode (s : State) : State := complete (scrub s)

/-- DECODE's end in a stream error: the geometry stays as requested, every byte of the valid region and `IN.pos` are
unspecified, nothing outside the valid region is written (R100, R160). -/
def abortDecode (e : Result) (s : State) : State := raise e (scrub (drawPos (drawData s)))

/-- One pass of DECODE's loop: take a header, execute its chunk (R91). -/
def decodeChunk (s : State) : Eng State := do
  let (h, s) ← needByte s
  let s := setHeader h s
  if h.toNat < 128 then rawBody (h.toNat + 1) s else runBody (h.toNat - 127) s

/-- "while cnt < N" (R91); each pass appends a pixel or raises, so `N` passes are enough (R98). -/
def decodeLoop (s : State) : Eng State :=
  whileLoop (fun s => decide (s.dec.cnt < s.dec.n)) decodeChunk s.dec.n s

/-- How DECODE ends. -/
def settleDecode : Eng State → Host.Outcome State Fault Refusal
  | .ok s => .next (finishDecode s)
  | .error (.raised e s) => .next (abortDecode e s)
  | .error (.fault f) => .fault f

/-- How a chunk ends inside a DECODE: the DECODE goes on, or ends in the error the chunk raised. -/
def settleChunk : Eng State → Host.Outcome State Fault Refusal
  | .ok s => .next s
  | .error (.raised e s) => .next (abortDecode e s)
  | .error (.fault f) => .fault f

/-- `RAW`, `n` literal pixels, its header already taken (R92). -/
def execRaw (n : Nat) (s : State) : Host.Outcome State Fault Refusal := settleChunk (rawBody n s)

/-- `RUN`, one pixel repeated `n` times, its header already taken (R93). -/
def execRun (n : Nat) (s : State) : Host.Outcome State Fault Refusal := settleChunk (runBody n s)

/-- `DECODE w h bpp`, one atomic step to the host (R91, R49). A refused geometry raises `InvalidDimensions` and leaves
`IN` untouched (R97). -/
def execDecode (s : State) : Host.Outcome State Fault Refusal :=
  if s.argsOK then settleDecode (decodeLoop (decodeStart s))
  else .next (raise .invalidDimensions s)

end Sys2Proof.Machine
end

