-- ==== Sys2Proof/Machine/RleEncode.lean ====
section
/-! DEFINITION. ENCODE and its greedy run detection (42_rle_encode.md). -/

namespace Sys2Proof.Machine

/-- The working values at the start of a chunk: a run of one pixel, raw (R106, R115). -/
def Encoder.startRun (e : Encoder) : Encoder :=
  { e with start := e.cur, rl := 1, raw := true, p := e.cur }

/-- The values after a comparison with outcome `eq`: the comparison cursor moves on, and the first comparison of the
run decides its mode (R106, R108). -/
def Encoder.compared (e : Encoder) (eq : Bool) : Encoder :=
  { e with eq := eq, p := e.p + 1, raw := if e.rl = 1 then !eq else e.raw }

/-- The inner loop of R106: the run grows while a next pixel exists, there is room, and the comparison of the last
pixel with the next one fits the mode (R107, R109); a raw run that meets an equal pair gives its last pixel back
(R110). `room` bounds the passes: a run has at most 128 pixels. -/
def extendRun (s : State) : Nat → Encoder → Eng Encoder
  | 0, e => .ok e
  | room + 1, e =>
    if e.cur + e.rl < e.n ∧ e.rl < 128 then do
      let a ← readPixelAt s e.p
      let b ← readPixelAt s (e.p + 1)
      let e := e.compared (a == b)
      if e.raw && e.eq then return { e with rl := e.rl - 1 }
      else if !e.raw && !e.eq then return e
      else extendRun s room { e with rl := e.rl + 1 }
    else .ok e

/-- The header of the run found (R111). -/
def Encoder.header (e : Encoder) : Byte := if e.raw then rawHeader e.rl else runHeader e.rl

/-- The payload bytes of the run found: all its pixels, or the one repeated pixel (R111). -/
def Encoder.payloadLength (e : Encoder) (bpp : Nat) : Nat := if e.raw then e.rl * bpp else bpp

/-- One pass of ENCODE's loop: find a run, advance past it, emit its header and payload (R106, R111, R112). -/
def encodeChunk (s : State) : Eng State := do
  let e ← extendRun s 128 s.enc.startRun
  let s := { s with enc := { e with cur := e.cur + e.rl } }
  let s ← outPut s e.header
  let payload ← memRead s (e.start * s.bpp) (e.payloadLength s.bpp)
  outPutAll s payload

/-- "while cur < N" (R106); each pass consumes a pixel, so `N` passes are enough (R112). -/
def encodeLoop (s : State) : Eng State :=
  whileLoop (fun s => decide (s.enc.cur < s.enc.n)) encodeChunk s.enc.n s

/-- ENCODE up to its loop (R106). -/
def encodeStart (s : State) : State := { s with enc := { s.enc with n := s.pixelCount, cur := 0 } }

/-- `ENCODE` (R106). On an empty buffer it raises `InvalidDimensions` before anything is written (R113). -/
def execEncode (s : State) : Host.Outcome State Fault Refusal :=
  if s.isEmpty then .next (raise .invalidDimensions s)
  else settleScrub (encodeLoop (encodeStart s))

end Sys2Proof.Machine
end

