-- ==== Sys2Proof/Machine/Scale.lean ====
section
/-! DEFINITION. SCALE, the nearest-neighbour rescaler (44_scale.md). The geometry registers hold the old size until the
banks are exchanged, so `s.width` and `s.height` are `W0` and `H0` in the loops. -/

namespace Sys2Proof.Machine

/-- `w`, the new width (R132). -/
def State.newWidth (s : State) : Nat := (int32 s.arg0).toNat

/-- `h`, the new height (R132). -/
def State.newHeight (s : State) : Nat := (int32 s.arg1).toNat

/-- `nl = w*bpp`, the new scanline size (R132). -/
def State.newLineSize (s : State) : Nat := s.newWidth * s.bpp

/-- One destination pixel, a copy of the current source pixel (R133). -/
def emitPixel (s : State) : Eng State := do
  let px ← memRead s (s.scl.oscan + s.scl.i * s.bpp) s.bpp
  let s ← shWrite s (s.scl.nscan + s.scl.nx) px
  return { s with scl := { s.scl with herr := s.scl.herr - s.width, nx := s.scl.nx + s.bpp } }

/-- One source column: add `w` to `herr`, then emit while it is at least `W0` (R133). -/
def scaleColumn (i : Nat) (s : State) : Eng State :=
  let s := { s with scl := { s.scl with i := i, herr := s.scl.herr + s.newWidth } }
  whileLoop (fun s => decide (s.width ≤ s.scl.herr)) emitPixel s.scl.herr s

/-- One committed destination row; while more than one maps to this source row, the row just built is first copied
into the next (R134, R135). -/
def commitRow (s : State) : Eng State := do
  let s ←
    if 2 * s.height ≤ s.scl.verr then do
      shWrite s (s.scl.nscan + s.newLineSize) (← shRead s s.scl.nscan s.newLineSize)
    else pure s
  return { s with scl := { s.scl with
    verr := s.scl.verr - s.height
    nscan := s.scl.nscan + s.newLineSize } }

/-- One source row: the horizontal pass with `herr` starting at 0, then the vertical step (R132, R134, R136). -/
def scaleRow (j : Nat) (s : State) : Eng State := do
  let s := { s with scl := { s.scl with j := j, herr := 0, nx := 0 } }
  let s ← forLoop scaleColumn 0 s.width s
  let s := { s with scl := { s.scl with
    verr := s.scl.verr + s.newHeight
    oscan := s.scl.oscan + s.lineSize } }
  whileLoop (fun s => decide (s.height ≤ s.scl.verr)) commitRow s.scl.verr s

/-- SCALE up to its loop: the scan pointers and `verr` at 0 (R132, R136). -/
def scaleStart (s : State) : State :=
  { s with scl := { s.scl with oscan := 0, nscan := 0, verr := 0 } }

/-- The replacement, in one step: the banks change roles, the old one without specified contents, and the new size is
written (R27, R137). -/
def exchangeBanks (s : State) : State :=
  { s with pm := s.sh, sh := [], bank := !s.bank, pbW := s.arg0, pbH := s.arg1 }

/-- The pseudocode of SCALE after its checks (R132). -/
def scaleBody (s : State) : Eng State := do
  let s ← forLoop scaleRow 0 s.height (scaleStart s)
  return exchangeBanks s

/-- `SCALE w h` (R132). Its three checks come before any other action (R131). -/
def execScale (s : State) : Host.Outcome State Fault Refusal :=
  if s.scaleOK then settleScrub (scaleBody s)
  else .next (raise .invalidDimensions s)

end Sys2Proof.Machine
end

