-- ==== Sys2Proof/Machine/Dispatch.lean ====
section
/-! DEFINITION. The meaning of every instruction, one arm each. -/

namespace Sys2Proof.Machine

def exec (i : Instr) (s : State) : Host.Outcome State Fault Refusal :=
  match i with
  | .raw n => Sys2Proof.Machine.execRaw n s
  | .run n => Sys2Proof.Machine.execRun n s
  | .alloc => Sys2Proof.Machine.execAlloc s
  | .getpix => Sys2Proof.Machine.execGetpix s
  | .setpix => Sys2Proof.Machine.execSetpix s
  | .decode => Sys2Proof.Machine.execDecode s
  | .encode => Sys2Proof.Machine.execEncode s
  | .flipv => Sys2Proof.Machine.execFlipv s
  | .fliph => Sys2Proof.Machine.execFliph s
  | .scale => Sys2Proof.Machine.execScale s

end Sys2Proof.Machine
end

