-- ==== Sys2Proof/Machine/HostPort.lean ====
section
/-! DEFINITION. The host's side of the registers (R11, R12), the reset input (R180) and the handing over of streams
(R22, R23). -/

namespace Sys2Proof.Machine

/-- The register map: byte offsets from the block's base (R12). -/
def regAt : Nat → Option Reg
  | 0x00 => some .cmd
  | 0x04 => some .status
  | 0x08 => some .arg0
  | 0x0C => some .arg1
  | 0x10 => some .arg2
  | 0x14 => some .pix
  | 0x18 => some .pbW
  | 0x1C => some .pbH
  | 0x20 => some .pbBpp
  | 0x24 => some .capr
  | _ => none

/-- The word a host read of a register returns; `CMD` reads as 0 (R11, R20). -/
def State.readReg (s : State) : Reg → Word
  | .cmd => 0
  | .status => s.statusWord
  | .arg0 => s.arg0
  | .arg1 => s.arg1
  | .arg2 => s.arg2
  | .pix => s.pix
  | .pbW => s.pbW
  | .pbH => s.pbH
  | .pbBpp => s.pbBpp
  | .capr => BitVec.ofNat 32 s.capr

/-- A host write of `v` to a register other than `CMD`, whose write starts a command; a read-only register ignores it
(R11, R14). -/
def State.writeReg (s : State) (v : Word) : Reg → State
  | .cmd => s
  | .status => s.writeStatus v
  | .arg0 => { s with arg0 := v }
  | .arg1 => { s with arg1 := v }
  | .arg2 => { s with arg2 := v }
  | .pix => { s with pix := v }
  | .pbW => s
  | .pbH => s
  | .pbBpp => s
  | .capr => s

/-- The reset input: every piece of the block's state takes the value of R31; the streams are not touched (R180,
R181). The two banks are left without values, `BANK` and the hidden values are drawn. -/
def resetBlock (s : State) : State :=
  scrub { s with
    arg0 := 0
    arg1 := 0
    arg2 := 0
    pix := 0
    pbW := 0
    pbH := 0
    pbBpp := 0
    result := .ok
    sticky := false
    busy := false
    pm := []
    sh := []
    bank := Config.freeBool s.draws
    draws := s.draws + 1 }

/-- A host read of the register at an offset (R11, R12). -/
def hostRead (offset : Nat) (s : State) : Host.Outcome State Fault Refusal :=
  match regAt offset with
  | some r => .next { s with reads := s.reads ++ [s.readReg r] }
  | none => .refused (.notARegister offset)

end Sys2Proof.Machine
end

