-- ==== Sys2Proof/Machine/Engine.lean ====
section
/-! DEFINITION. The two places an instruction comes from: the host's write to `CMD` (R13) and, inside a DECODE, the
next header on `IN` (R91). -/

namespace Sys2Proof.Machine

/-- A host write of the word `c` to `CMD` (R13): the command it names runs to its end, or `IllegalCommand` is raised
and nothing but `STATUS` changes (R71, R157). -/
def startCommand (c : Word) (s : State) : Host.Outcome State Fault Refusal :=
  match decode (.command c) with
  | .ok i => exec i s
  | .error .illegalCommand => .next (raise .illegalCommand s)

/-- A host write of the word `v` to the register at an offset (R11, R12, R13). -/
def hostWrite (offset : Nat) (v : Word) (s : State) : Host.Outcome State Fault Refusal :=
  match regAt offset with
  | some .cmd => startCommand v s
  | some r => .next (s.writeReg v r)
  | none => .refused (.notARegister offset)

/-- One action of the host, between commands. -/
def hostStep (op : HostOp) (s : State) : Host.Outcome State Fault Refusal :=
  match op with
  | .write offset v => hostWrite offset v s
  | .read offset => hostRead offset s
  | .reset => .next (resetBlock s)
  | .supplyIn data pos failAt => .next { s with inS := ⟨data, pos, failAt⟩ }
  | .supplyOut answers => .next { s with outS := ⟨[], answers⟩ }

/-- One pass of a DECODE in progress: its loop test, then the next header is taken and its chunk runs as an
instruction (R91, R98). -/
def chunkStep (s : State) : Host.Outcome State Fault Refusal :=
  if s.dec.cnt < s.dec.n then
    match inGet s with
    | none => .next (abortDecode .truncatedStream s)
    | some (h, t) => exec (decodeHeader h) (setHeader h t)
  else .next (finishDecode s)

/-- The host's next action, or an idle step that changes nothing when there is none (R166, R180). -/
def idleStep (s : State) : Host.Outcome State Fault Refusal :=
  match s.host with
  | [] => .next s
  | op :: ops => hostStep op { s with host := ops }

/-- The pixel count and size of the DECODE that `placeHeader` sets up: a buffer every capacity holds (log 18). -/
def placedCount (h : Byte) : Nat := min (if h.toNat < 128 then h.toNat + 1 else h.toNat - 127) 4

/-- `s` with a header where the next step takes one: a DECODE of one-byte pixels in progress, the header and a payload
of zeros at `IN.pos` (log 18). -/
def placeHeader (h : Byte) (s : State) : State :=
  { s with
    busy := true
    pbW := BitVec.ofNat 32 (placedCount h)
    pbH := 1
    pbBpp := 1
    dec := { s.dec with n := placedCount h, cnt := 0, wp := 0, pos0 := s.inS.pos }
    inS := ⟨s.inS.data.take s.inS.pos ++ h :: List.replicate 512 0, (s.inS.data.take s.inS.pos).length, none⟩ }

/-- `s` with a command word where the next step takes one: as the host's next action, a write to `CMD` (log 9). -/
def placeCommand (c : Word) (s : State) : State :=
  { s with busy := false, host := .write 0x00 c :: s.host }

/-- An instruction of the opcode table placed where the next step fetches it. -/
def placeFetchWord (s : State) (nbits w : Nat) : State :=
  match nbits with
  | 8 => placeHeader (BitVec.ofNat 8 w) s
  | 32 => placeCommand (BitVec.ofNat 32 w) s
  | _ => s

end Sys2Proof.Machine
end

