-- ==== Sys2Proof/Machine/Step.lean ====
section
/-! DEFINITION. One step of the block: the next chunk while a DECODE is in progress, else the host's next action. -/

namespace Sys2Proof.Machine

/-- One step. A DECODE in progress shows only in states that `withFetchWord` or a proof sets up: a DECODE the host
starts runs to its end in one step (R49, log 16). -/
def step (s : State) : Host.Outcome State Fault Refusal :=
  if s.busy then chunkStep s else idleStep s

/-- `s` with the instruction of a table row where `step` fetches its next one. -/
def State.withFetchWord (s : State) (nbits w : Nat) : State := placeFetchWord s nbits w

end Sys2Proof.Machine
end

