-- ==== Sys2Proof/Safety.lean ====
section
/-! DEFINITION. The terms the statements are written in: the invariant of the block (R17, R18, R19, R26), the data and
pixels of a buffer, what a command leaves alone, and chunk streams as a sender sees them. -/

namespace Sys2Proof.Machine

/-! ### The invariant -/

/-- The only empty state the block can be in: the three geometry registers zero (R19). -/
abbrev State.geometryZero (s : State) : Prop := s.pbW = 0 ∧ s.pbH = 0 ∧ s.pbBpp = 0

/-- The geometry registers hold a checked, positive geometry (R17, R18, R80). -/
abbrev State.geometryOK (s : State) : Prop := GeomOK s.capr (int32 s.pbW) (int32 s.pbH) (int32 s.pbBpp)

/-- Every one of the first `n` bytes of the active bank has a value. -/
abbrev State.holds (s : State) (n : Nat) : Prop := ∀ a, a < n → (s.pm.byte a).isSome = true

/-- A bank's listed offsets lie below the capacity (R21). -/
abbrev Memory.below (m : Memory) (cap : Nat) : Prop := ∀ p ∈ m, p.1 < cap

/-- The decoder's working values between two chunks of a DECODE in progress (R26). -/
structure State.Decoding (s : State) : Prop where
  geometry : s.geometryOK
  target : s.dec.n = s.pixelCount
  count_le : s.dec.cnt ≤ s.dec.n
  offset : s.dec.wp = s.dec.cnt * s.bpp
  start_le : s.dec.pos0 ≤ s.inS.pos
  held : s.holds s.dec.wp

/-- The invariant. Its heart is R18: between commands the valid region is exactly the buffer's data, all of it has a
value, and it fits the bank. -/
structure State.Inv (s : State) : Prop where
  cap_min : 4 ≤ s.capr
  cap_max : s.capr < 2 ^ 31
  pm_wf : s.pm.wf
  sh_wf : s.sh.wf
  pm_below : s.pm.below s.capr
  sh_below : s.sh.below s.capr
  geometry : s.geometryZero ∨ s.geometryOK
  held : s.busy = false → s.holds s.dataSize
  decoding : s.busy = true → s.Decoding

/-- A buffer is established and no command runs: the state every command but ALLOC and DECODE asks for. -/
structure State.Ready (s : State) : Prop where
  inv : s.Inv
  idle : s.busy = false
  buffer : s.isEmpty = false

/-! ### What a state holds -/

/-- The data of the buffer: the valid region in ascending offset order (R18). -/
def State.data (s : State) : Option (List Byte) := s.pm.bytes 0 s.dataSize

/-- The pixel at column `x`, row `y` (R42). -/
def State.pixel (s : State) (x y : Nat) : Option (List Byte) := s.pm.bytes (s.addr x y) s.bpp

/-- The bytes `InGet` would give one after another before it gives none: the stream from its cursor on, up to the read
error if one lies ahead (R22). -/
def State.incoming (s : State) : List Byte :=
  match s.inS.failAt with
  | none => s.inS.data.drop s.inS.pos
  | some f =>
    if s.inS.pos ≤ f then (s.inS.data.drop s.inS.pos).take (f - s.inS.pos) else s.inS.data.drop s.inS.pos

/-! ### What a command leaves alone -/

/-- The operand registers and the capacity are as before. -/
abbrev State.sameOperands (s t : State) : Prop :=
  t.arg0 = s.arg0 ∧ t.arg1 = s.arg1 ∧ t.arg2 = s.arg2 ∧ t.capr = s.capr

/-- The geometry registers are as before. -/
abbrev State.sameGeometry (s t : State) : Prop := t.pbW = s.pbW ∧ t.pbH = s.pbH ∧ t.pbBpp = s.pbBpp

/-- The streams are as before. -/
abbrev State.sameStreams (s t : State) : Prop := t.inS = s.inS ∧ t.outS = s.outS

/-- The shadow bank and the bank select are as before. -/
abbrev State.sameShadow (s t : State) : Prop := t.sh = s.sh ∧ t.bank = s.bank

/-- The host's script and what its reads returned are as before. -/
abbrev State.sameScript (s t : State) : Prop := t.host = s.host ∧ t.reads = s.reads

/-- Every byte of the active bank outside the `n` from offset `a` reads as before. -/
abbrev State.sameOutside (s t : State) (a n : Nat) : Prop :=
  ∀ k, ¬(a ≤ k ∧ k < a + n) → t.pm.byte k = s.pm.byte k

/-- The command ended with result `e`: the code is recorded, `STICKY` is set by an error and otherwise kept, `BUSY` is
0 (R14, R160). -/
abbrev State.endsWith (s t : State) (e : Result) : Prop :=
  t.result = e ∧ t.sticky = (s.sticky || e != .ok) ∧ t.busy = false

/-- The command ended in error `e` and nothing but `STATUS` changed (R154, R155, R157). -/
def State.onlyStatus (s : State) (e : Result) : State :=
  { s with result := e, sticky := true, busy := false }

/-! ### Chunk streams -/

/-- A chunk with its payload, as a sender writes it (R74). -/
inductive Chunk where
  | raw (pixels : List (List Byte))
  | run (count : Nat) (pixel : List Byte)
  deriving DecidableEq, Repr

/-- The pixels a chunk stands for (R64). -/
def Chunk.count : Chunk → Nat
  | .raw ps => ps.length
  | .run n _ => n

/-- A chunk of pixels of `bpp` bytes each that the format can express (R62, R63). -/
def Chunk.Fits (bpp : Nat) : Chunk → Prop
  | .raw ps => 1 ≤ ps.length ∧ ps.length ≤ 128 ∧ ∀ p ∈ ps, p.length = bpp
  | .run n p => 1 ≤ n ∧ n ≤ 128 ∧ p.length = bpp

/-- The header byte: `h = (T << 7) | (n - 1)` (R61, R64). -/
def Chunk.header : Chunk → Byte
  | .raw ps => BitVec.ofNat 8 (ps.length - 1)
  | .run n _ => BitVec.ofNat 8 (128 + (n - 1))

/-- The payload (R62, R63). -/
def Chunk.payload : Chunk → List Byte
  | .raw ps => ps.flatten
  | .run _ p => p

/-- The bytes of a chunk on the stream (R62, R63). -/
def Chunk.bytes (c : Chunk) : List Byte := c.header :: c.payload

/-- The data a chunk decodes to: its payload, or its pixel repeated (R101 (iii)). -/
def Chunk.data : Chunk → List Byte
  | .raw ps => ps.flatten
  | .run n p => (List.replicate n p).flatten

/-- The bytes of a chunk the decoder takes when `r` pixels are still to fill, before it is done with the chunk or
refuses its first surplus pixel: of a `RAW` chunk at most `r + 1` pixels, of a `RUN` chunk its one pixel (R97). -/
def Chunk.wanted (r : Nat) : Chunk → List Byte
  | .raw ps => (Chunk.raw ps).header :: (ps.take (r + 1)).flatten
  | .run n p => (Chunk.run n p).bytes

/-- The bytes of a stream of chunks. -/
def streamBytes (cs : List Chunk) : List Byte := (cs.map Chunk.bytes).flatten

/-- The data a stream of chunks decodes to. -/
def streamData (cs : List Chunk) : List Byte := (cs.map Chunk.data).flatten

/-- The pixels a stream of chunks stands for. -/
def streamCount (cs : List Chunk) : Nat := (cs.map Chunk.count).sum

/-- The pixel count that DECODE's operands ask for. -/
def State.wantedCount (s : State) : Nat := (int32 s.arg0).toNat * (int32 s.arg1).toNat

/-- The pixel size that DECODE's operands ask for. -/
def State.wantedBpp (s : State) : Nat := (int32 s.arg2).toNat

/-- The bytes ENCODE emits from `s` when every `OutPut` is accepted. -/
def State.encoding (s : State) : Option (List Byte) :=
  match exec .encode { s with outS := ⟨[], []⟩ } with
  | .next t => if t.result = .ok then some t.outS.data else none
  | _ => none

end Sys2Proof.Machine
end

