-- ==== Sys2Proof/Certificates/Slice0/Obligations.lean ====
section
/-! DEFINITION. The statements for the provers. Each docstring names the rules it formalises. -/

open Sys2Proof Sys2Proof.Machine

/-! ### Encodings (30_encoding.md) -/

/-- R64, R68: every well-formed instruction is decoded back from its encoding. -/
def Obligations.DecodeInvertsEncode : Prop :=
  ∀ i : Instr, i.WellFormed → decode (encode i) = .ok i

/-- R60, R61, R67: a coded item that decodes to an instruction is that instruction's encoding, so no instruction has
two encodings, and it is well formed. -/
def Obligations.EncodeInvertsDecode : Prop :=
  ∀ (c : Coded) (i : Instr), decode c = .ok i → encode i = c ∧ i.WellFormed

/-- R61, R69, and the lengths of R66: every header is a chunk. Bit 7 is the type and tells `h < 128` from `h >= 128`;
bits 6:0 are the count minus one, 0 to 127. -/
def Obligations.EveryHeaderIsOneChunk : Prop :=
  ∀ (h : Byte) (b : Nat),
    (h.getLsbD 7 = decide (128 ≤ h.toNat)) ∧
    (h.getLsbD 7 = false →
      decode (.header h) = .ok (.raw ((h.extractLsb' 0 7).toNat + 1)) ∧ chunkLength h b = 1 + (h.toNat + 1) * b) ∧
    (h.getLsbD 7 = true →
      decode (.header h) = .ok (.run ((h.extractLsb' 0 7).toNat + 1)) ∧ chunkLength h b = 1 + b) ∧
    1 ≤ (h.extractLsb' 0 7).toNat + 1 ∧ (h.extractLsb' 0 7).toNat + 1 ≤ 128

/-- R68, R62, R63: words and headers written out from the spec's tables. -/
def Obligations.SpecCodesDecode : Prop :=
  decode (.command 0x00000001) = .ok .alloc ∧ decode (.command 0x00000002) = .ok .getpix ∧
  decode (.command 0x00000003) = .ok .setpix ∧ decode (.command 0x00000004) = .ok .decode ∧
  decode (.command 0x00000005) = .ok .encode ∧ decode (.command 0x00000006) = .ok .flipv ∧
  decode (.command 0x00000007) = .ok .fliph ∧ decode (.command 0x00000008) = .ok .scale ∧
  decode (.header 0x00) = .ok (.raw 1) ∧ decode (.header 0x7F) = .ok (.raw 128) ∧
  decode (.header 0x80) = .ok (.run 1) ∧ decode (.header 0x81) = .ok (.run 2) ∧
  decode (.header 0xFF) = .ok (.run 128)

/-- R71, R157: a word written to `CMD` whose `OP` is 0 or 9 to 15, or whose bits 31:4 are not all zero, ends in
`IllegalCommand` and changes nothing but `STATUS`. -/
def Obligations.IllegalWordsChangeOnlyStatus : Prop :=
  ∀ (s : State) (c : Word) (ops : List HostOp), s.busy = false → s.host = .write 0x00 c :: ops →
    (c.extractLsb' 0 4 = 0 ∨ 9 ≤ (c.extractLsb' 0 4).toNat ∨ c.extractLsb' 4 28 ≠ 0) →
    step s = .next (State.onlyStatus { s with host := ops } .illegalCommand)

/-! ### The step -/

/-- R13: when the host writes to `CMD` a word that decodes to an instruction, the step is that instruction, run on the
state with the host's action taken off its script. -/
def Obligations.CommandWriteRunsItsInstruction : Prop :=
  ∀ (s : State) (c : Word) (i : Instr) (ops : List HostOp), s.busy = false → s.host = .write 0x00 c :: ops →
    decode (.command c) = .ok i → step s = exec i { s with host := ops }

/-- R24, R91: inside a DECODE with pixels to fill, the next byte of `IN` decodes to a chunk, and the step is that chunk,
run on the state with the header taken and recorded in `hd`. The state between two chunks is the model's (log 16). -/
def Obligations.ChunkStepRunsItsInstruction : Prop :=
  ∀ (s : State) (h : Byte) (rest : List Byte) (i : Instr), s.busy = true → s.dec.cnt < s.dec.n →
    s.incoming = h :: rest → decode (.header h) = .ok i →
    step s = exec i { s with
      inS := { s.inS with pos := s.inS.pos + 1 }
      dec := { s.dec with hd := h } }

/-- R95 (a), R98: inside a DECODE, with no pixel left to fill the step ends it with `OK`, taking no byte; with pixels to
fill and no byte to come it ends in `TruncatedStream`. -/
def Obligations.ChunkStepEndsTheDecode : Prop :=
  ∀ s : State, s.busy = true →
    (s.dec.n ≤ s.dec.cnt → ∃ t, step s = .next t ∧ s.endsWith t .ok ∧ t.inS = s.inS ∧ t.pm = s.pm ∧
      s.sameGeometry t) ∧
    (s.dec.cnt < s.dec.n → s.incoming = [] → ∃ t, step s = .next t ∧ s.endsWith t .truncatedStream ∧
      s.sameGeometry t ∧ s.sameOutside t 0 s.dataSize)

/-- R166, R180: with no command running and no action of the host pending, the block is idle and holds its state. -/
def Obligations.IdleHoldsEverything : Prop :=
  ∀ s : State, s.busy = false → s.host = [] → step s = .next s

/-! ### Registers, status, reset (10_state.md, 70_reset_and_hazards.md) -/

/-- R11, R12, R14: host writes. The operand registers and `PIX` take the word; `STATUS` loses `STICKY` when bit 4 is 1
and is otherwise as before; the four read-only registers ignore the write. -/
def Obligations.HostWritesReachTheirRegister : Prop :=
  ∀ (s : State) (v : Word) (ops : List HostOp), s.busy = false →
    (s.host = .write 0x04 v :: ops → step s = .next { s with host := ops, sticky := s.sticky && !v.getLsbD 4 }) ∧
    (s.host = .write 0x08 v :: ops → step s = .next { s with host := ops, arg0 := v }) ∧
    (s.host = .write 0x0C v :: ops → step s = .next { s with host := ops, arg1 := v }) ∧
    (s.host = .write 0x10 v :: ops → step s = .next { s with host := ops, arg2 := v }) ∧
    (s.host = .write 0x14 v :: ops → step s = .next { s with host := ops, pix := v }) ∧
    (∀ o ∈ [0x18, 0x1C, 0x20, 0x24], s.host = .write o v :: ops → step s = .next { s with host := ops })

/-- R11, R12, R20: host reads. Each register returns its content, `CMD` returns 0, and nothing else changes. -/
def Obligations.HostReadsReturnTheirRegister : Prop :=
  ∀ (s : State) (o : Nat) (v : Word) (ops : List HostOp), s.busy = false → s.host = .read o :: ops →
    (o, v) ∈ [(0x00, 0), (0x04, s.statusWord), (0x08, s.arg0), (0x0C, s.arg1), (0x10, s.arg2), (0x14, s.pix),
      (0x18, s.pbW), (0x1C, s.pbH), (0x20, s.pbBpp), (0x24, BitVec.ofNat 32 s.capr)] →
    step s = .next { s with host := ops, reads := s.reads ++ [v] }

/-- R12: an access to an offset that is no register is outside the spec; the model refuses it (the model's choice, log
12). -/
def Obligations.OtherOffsetsAreRefused : Prop :=
  ∀ (s : State) (o : Nat) (v : Word) (ops : List HostOp), s.busy = false →
    o ∉ [0x00, 0x04, 0x08, 0x0C, 0x10, 0x14, 0x18, 0x1C, 0x20, 0x24] →
    (s.host = .write o v :: ops ∨ s.host = .read o :: ops) → step s = .refused (.notARegister o)

/-- R14, R150: the fields of the `STATUS` word, and the numbers of the result codes. -/
def Obligations.StatusWordFields : Prop :=
  ∀ s : State,
    (s.statusWord.extractLsb' 0 4).toNat =
      (match s.result with
        | .ok => 0 | .truncatedStream => 1 | .writeFailure => 2 | .pixelCountOverflow => 3
        | .invalidDimensions => 4 | .outOfBounds => 5 | .illegalCommand => 6) ∧
    s.statusWord.getLsbD 4 = s.sticky ∧
    (s.statusWord.getLsbD 5 = true ↔ s.pbW = 0 ∨ s.pbH = 0 ∨ s.pbBpp = 0) ∧
    s.statusWord.extractLsb' 6 25 = 0 ∧
    s.statusWord.getLsbD 31 = s.busy

/-- R31, R180: the state after reset. -/
def Obligations.ResetLeavesTheSpecsValues : Prop :=
  State.reset.statusWord = 0x00000020 ∧ State.reset.arg0 = 0 ∧ State.reset.arg1 = 0 ∧ State.reset.arg2 = 0 ∧
  State.reset.pix = 0 ∧ State.reset.pbW = 0 ∧ State.reset.pbH = 0 ∧ State.reset.pbBpp = 0 ∧
  State.reset.capr = Config.cap ∧ 4 ≤ Config.cap ∧ Config.cap < 2 ^ 31

/-- R180, R181: the reset input puts every register into its reset value from any state, keeps the capacity, and does
not touch the streams. -/
def Obligations.ResetInputResetsTheBlock : Prop :=
  ∀ (s : State) (ops : List HostOp), s.busy = false → s.host = .reset :: ops →
    ∃ t, step s = .next t ∧ t.statusWord = 0x00000020 ∧ t.arg0 = 0 ∧ t.arg1 = 0 ∧ t.arg2 = 0 ∧ t.pix = 0 ∧
      t.pbW = 0 ∧ t.pbH = 0 ∧ t.pbBpp = 0 ∧ t.capr = s.capr ∧ s.sameStreams t ∧ t.host = ops ∧ t.reads = s.reads

/-- R14, R160, R167: however a command ends, `BUSY` is 0, `STICKY` is set by an error, and is otherwise kept. -/
def Obligations.CommandsEndInStatus : Prop :=
  ∀ (i : Instr) (s t : State), i.isCommand = true → exec i s = .next t → s.endsWith t t.result

/-- R15, R32, R84: no instruction writes `ARG0`, `ARG1`, `ARG2`, the capacity or the host's script, and only GETPIX
writes `PIX`. -/
def Obligations.OperandRegistersAreNeverWritten : Prop :=
  ∀ (i : Instr) (s t : State), exec i s = .next t →
    s.sameOperands t ∧ s.sameScript t ∧ (i ≠ .getpix → t.pix = s.pix)

/-- R17, R27, R32: only ALLOC, DECODE and SCALE write the geometry, SCALE keeps `PB_BPP`, and only SCALE touches the
shadow bank and the bank select. -/
def Obligations.GeometryWriters : Prop :=
  ∀ (i : Instr) (s t : State), exec i s = .next t →
    (i ≠ .alloc → i ≠ .decode → i ≠ .scale → s.sameGeometry t) ∧
    (i ≠ .alloc → i ≠ .decode → t.pbBpp = s.pbBpp) ∧
    (i ≠ .scale → s.sameShadow t)

/-- R22, R23, R32: only DECODE and its chunks take from `IN`, and never change its bytes; only ENCODE writes to `OUT`,
and only appends. -/
def Obligations.StreamUsers : Prop :=
  ∀ (i : Instr) (s t : State), exec i s = .next t →
    (i.isCommand = true → i ≠ .decode → t.inS = s.inS) ∧
    t.inS.data = s.inS.data ∧ t.inS.failAt = s.inS.failAt ∧
    (i ≠ .encode → t.outS = s.outS) ∧ ∃ bs, t.outS.data = s.outS.data ++ bs

/-- R41, R101 (i): no command but SCALE, which replaces the bank, changes a byte outside the valid region of the
geometry it leaves; GETPIX and ENCODE change no byte. -/
def Obligations.CommandsStayInTheValidRegion : Prop :=
  ∀ (i : Instr) (s t : State), i.isCommand = true → exec i s = .next t →
    (i ≠ .scale → s.sameOutside t 0 t.dataSize) ∧ (i = .getpix ∨ i = .encode → t.pm = s.pm)

/-- R19: a command never empties a buffer. -/
def Obligations.CommandsNeverEmptyTheBuffer : Prop :=
  ∀ (i : Instr) (s t : State), exec i s = .next t → s.isEmpty = false → t.isEmpty = false

/-! ### Errors (60_exceptions.md) -/

/-- R154: the causes of `InvalidDimensions`, each before any other effect: SCALE's target not positive, a command that
needs a buffer given none, a geometry ALLOC or DECODE refuses, a target that does not fit the capacity. The products
are exact (R86, R156). -/
def Obligations.InvalidDimensionsCauses : Prop :=
  ∀ s : State,
    (int32 s.arg0 ≤ 0 ∨ int32 s.arg1 ≤ 0 → exec .scale s = .next (s.onlyStatus .invalidDimensions)) ∧
    (s.pbW = 0 ∨ s.pbH = 0 ∨ s.pbBpp = 0 →
      ∀ i ∈ [Instr.scale, .flipv, .fliph, .encode, .getpix, .setpix],
        exec i s = .next (s.onlyStatus .invalidDimensions)) ∧
    (int32 s.arg0 ≤ 0 ∨ int32 s.arg1 ≤ 0 ∨ int32 s.arg2 ∉ [1, 3, 4] ∨
        int32 s.arg0 * int32 s.arg1 * int32 s.arg2 > s.capr →
      ∀ i ∈ [Instr.alloc, .decode], exec i s = .next (s.onlyStatus .invalidDimensions)) ∧
    (int32 s.arg0 * int32 s.arg1 * int32 s.pbBpp > s.capr → exec .scale s = .next (s.onlyStatus .invalidDimensions))

/-- R155: GETPIX and SETPIX on a buffer, with coordinates outside it, end in `OutOfBounds` and change nothing but
`STATUS`. -/
def Obligations.OutOfBoundsCause : Prop :=
  ∀ s : State, s.isEmpty = false →
    ¬(0 ≤ int32 s.arg0 ∧ int32 s.arg0 < s.width ∧ 0 ≤ int32 s.arg1 ∧ int32 s.arg1 < s.height) →
    exec .getpix s = .next (s.onlyStatus .outOfBounds) ∧ exec .setpix s = .next (s.onlyStatus .outOfBounds)

/-- R160: whichever command ends in `InvalidDimensions` or `OutOfBounds`, nothing but `STATUS` has changed; and only
DECODE and ENCODE end in another error, DECODE in a stream error, ENCODE in `WriteFailure`. -/
def Obligations.EarlyErrorsLeaveNoTrace : Prop :=
  ∀ (i : Instr) (s t : State), i.isCommand = true → exec i s = .next t →
    (t.result = .invalidDimensions ∨ t.result = .outOfBounds → t = s.onlyStatus t.result) ∧
    (t.result = .truncatedStream ∨ t.result = .pixelCountOverflow → i = .decode) ∧
    (t.result = .writeFailure → i = .encode) ∧ t.result ≠ .illegalCommand

/-! ### PixelBuffer (40_pixelbuffer.md) -/

/-- R80, R81: ALLOC of a geometry that passes the check ends with `OK`, the geometry registers hold it, every byte of
the buffer has a value, and nothing else is written. The last clause, that the data is the same whatever the old bank
held, is the model's choice and no rule: R81 and U4 only call the bytes unspecified, and it rests on each being a draw
numbered by the counter (logs 3 and 5). -/
def Obligations.AllocEstablishesABuffer : Prop :=
  ∀ s : State, GeomOK s.capr (int32 s.arg0) (int32 s.arg1) (int32 s.arg2) →
    ∃ t, exec .alloc s = .next t ∧ s.endsWith t .ok ∧ t.pbW = s.arg0 ∧ t.pbH = s.arg1 ∧ t.pbBpp = s.arg2 ∧
      t.isEmpty = false ∧ t.holds t.dataSize ∧ s.sameOutside t 0 t.dataSize ∧ s.sameOperands t ∧ t.pix = s.pix ∧
      s.sameStreams t ∧ s.sameShadow t ∧ s.sameScript t ∧
      ∀ m : Memory, ∃ u, exec .alloc { s with pm := m } = .next u ∧ u.data = t.data

/-- R82: GETPIX in bounds copies the pixel's bytes to `PIX`, lowest offset in the lowest byte, zeros above them, and
changes nothing else. -/
def Obligations.GetpixCopiesThePixel : Prop :=
  ∀ s : State, s.Ready →
    0 ≤ int32 s.arg0 → int32 s.arg0 < s.width → 0 ≤ int32 s.arg1 → int32 s.arg1 < s.height →
    ∃ (v : Word) (bs : List Byte), s.pixel (int32 s.arg0).toNat (int32 s.arg1).toNat = some bs ∧
      (∀ k, k < 4 → v.extractLsb' (8 * k) 8 = if k < s.bpp then bs.getD k 0 else 0) ∧
      exec .getpix s = .next { s with pix := v, result := .ok }

/-- R83: SETPIX in bounds stores the low `PB_BPP` bytes of `PIX` at `addr(x, y)`, and changes nothing else. -/
def Obligations.SetpixStoresThePixel : Prop :=
  ∀ s : State, s.Ready →
    0 ≤ int32 s.arg0 → int32 s.arg0 < s.width → 0 ≤ int32 s.arg1 → int32 s.arg1 < s.height →
    ∃ m : Memory, exec .setpix s = .next { s with pm := m, result := .ok } ∧
      (∀ k, k < s.bpp → m.byte (s.argAddr + k) = some (s.pix.extractLsb' (8 * k) 8)) ∧
      ∀ a, ¬(s.argAddr ≤ a ∧ a < s.argAddr + s.bpp) → m.byte a = s.pm.byte a

/-! ### Chunks (41_rle_decode.md) -/

/-- R92, R94: a `RAW` chunk whose pixels are all present and all fit appends them in order, takes their bytes from
`IN`, and changes nothing else. -/
def Obligations.RawChunkAppendsItsPixels : Prop :=
  ∀ (n : Nat) (s : State), s.Inv → s.busy = true → s.dec.cnt + n ≤ s.dec.n → n * s.bpp ≤ s.incoming.length →
    ∃ (m : Memory) (d : Decoder),
      exec (.raw n) s = .next { s with pm := m, dec := d, inS := { s.inS with pos := s.inS.pos + n * s.bpp } } ∧
      d.cnt = s.dec.cnt + n ∧ d.wp = s.dec.wp + n * s.bpp ∧ d.n = s.dec.n ∧ d.hd = s.dec.hd ∧
      m.bytes s.dec.wp (n * s.bpp) = some (s.incoming.take (n * s.bpp)) ∧
      ∀ a, ¬(s.dec.wp ≤ a ∧ a < s.dec.wp + n * s.bpp) → m.byte a = s.pm.byte a

/-- R93, R94: a `RUN` chunk whose pixel is present and whose repeats all fit appends the pixel `n` times, takes its
bytes from `IN` once, and changes nothing else. -/
def Obligations.RunChunkRepeatsItsPixel : Prop :=
  ∀ (n : Nat) (s : State), s.Inv → s.busy = true → s.dec.cnt + n ≤ s.dec.n → s.bpp ≤ s.incoming.length →
    ∃ (m : Memory) (d : Decoder),
      exec (.run n) s = .next { s with pm := m, dec := d, inS := { s.inS with pos := s.inS.pos + s.bpp } } ∧
      d.cnt = s.dec.cnt + n ∧ d.wp = s.dec.wp + n * s.bpp ∧ d.n = s.dec.n ∧ d.hd = s.dec.hd ∧
      d.px = s.incoming.take s.bpp ∧
      m.bytes s.dec.wp (n * s.bpp) = some (List.replicate n (s.incoming.take s.bpp)).flatten ∧
      ∀ a, ¬(s.dec.wp ≤ a ∧ a < s.dec.wp + n * s.bpp) → m.byte a = s.pm.byte a

/-- R95 (b), R96, R97: where a chunk ends in error. With `r` pixels to fill, a `RAW` chunk of `n` pixels that lacks a
byte of its first `min n (r+1)` pixels ends in `TruncatedStream`, and one of more than `r` pixels that lacks none of
them in `PixelCountOverflow`; a `RUN` chunk that lacks a byte of its pixel ends in `TruncatedStream`, and one with more
than `r` repeats that lacks none in `PixelCountOverflow`. -/
def Obligations.ChunkErrors : Prop :=
  ∀ (n : Nat) (s : State), s.Inv → s.busy = true →
    (s.incoming.length < min n (s.dec.n - s.dec.cnt + 1) * s.bpp →
      ∃ t, exec (.raw n) s = .next t ∧ s.endsWith t .truncatedStream) ∧
    (s.dec.n - s.dec.cnt < n → (s.dec.n - s.dec.cnt + 1) * s.bpp ≤ s.incoming.length →
      ∃ t, exec (.raw n) s = .next t ∧ s.endsWith t .pixelCountOverflow) ∧
    (s.incoming.length < s.bpp → ∃ t, exec (.run n) s = .next t ∧ s.endsWith t .truncatedStream) ∧
    (s.dec.n - s.dec.cnt < n → s.bpp ≤ s.incoming.length →
      ∃ t, exec (.run n) s = .next t ∧ s.endsWith t .pixelCountOverflow)

/-- R94, R100, R101 (i): however a chunk ends, the geometry is kept and no byte outside the valid region is written. -/
def Obligations.ChunksStayInTheValidRegion : Prop :=
  ∀ (n : Nat) (s t : State), s.Inv → s.busy = true → exec (.raw n) s = .next t ∨ exec (.run n) s = .next t →
    s.sameGeometry t ∧ s.sameOutside t 0 s.dataSize

/-! ### DECODE (41_rle_decode.md) -/

/-- R90, R98, R99, R101 (iii): when the stream begins with chunks that supply exactly the pixels asked for, DECODE ends
with `OK`, the data is what the chunks stand for, the cursor stands after the last of them, and nothing else changes. -/
def Obligations.DecodeFillsTheBuffer : Prop :=
  ∀ (s : State) (cs : List Chunk), GeomOK s.capr (int32 s.arg0) (int32 s.arg1) (int32 s.arg2) →
    (∀ c ∈ cs, c.Fits s.wantedBpp) → streamCount cs = s.wantedCount → streamBytes cs <+: s.incoming →
    ∃ t, exec .decode s = .next t ∧ s.endsWith t .ok ∧ t.pbW = s.arg0 ∧ t.pbH = s.arg1 ∧ t.pbBpp = s.arg2 ∧
      t.data = some (streamData cs) ∧ t.inS = { s.inS with pos := s.inS.pos + (streamBytes cs).length } ∧
      s.sameOutside t 0 t.dataSize ∧ s.sameOperands t ∧ t.pix = s.pix ∧ t.outS = s.outS ∧ s.sameShadow t ∧
      s.sameScript t

/-- R98: DECODE ends with `OK` only when the stream begins with chunks that supply exactly the pixels asked for. -/
def Obligations.DecodeSucceedsOnlyOnExactStreams : Prop :=
  ∀ s t : State, exec .decode s = .next t → t.result = .ok →
    ∃ cs : List Chunk, (∀ c ∈ cs, c.Fits s.wantedBpp) ∧ streamCount cs = s.wantedCount ∧
      streamBytes cs <+: s.incoming

/-- R95: when the stream ends after whole chunks that leave pixels to fill, or inside what the decoder wants of the
chunk after them, DECODE ends in `TruncatedStream`. -/
def Obligations.DecodeReportsATruncatedStream : Prop :=
  ∀ (s : State) (cs : List Chunk) (c : Chunk) (p : List Byte),
    GeomOK s.capr (int32 s.arg0) (int32 s.arg1) (int32 s.arg2) →
    (∀ d ∈ cs, d.Fits s.wantedBpp) → c.Fits s.wantedBpp → streamCount cs < s.wantedCount →
    p <+: c.wanted (s.wantedCount - streamCount cs) → p ≠ c.wanted (s.wantedCount - streamCount cs) →
    s.incoming = streamBytes cs ++ p →
    ∃ t, exec .decode s = .next t ∧ s.endsWith t .truncatedStream

/-- R96: when, after whole chunks that leave pixels to fill, a chunk stands for more pixels than that and what the
decoder wants of it is present, DECODE ends in `PixelCountOverflow`. -/
def Obligations.DecodeReportsAnOverlongChunk : Prop :=
  ∀ (s : State) (cs : List Chunk) (c : Chunk),
    GeomOK s.capr (int32 s.arg0) (int32 s.arg1) (int32 s.arg2) →
    (∀ d ∈ cs, d.Fits s.wantedBpp) → c.Fits s.wantedBpp → streamCount cs < s.wantedCount →
    s.wantedCount < streamCount cs + c.count →
    streamBytes cs ++ c.wanted (s.wantedCount - streamCount cs) <+: s.incoming →
    ∃ t, exec .decode s = .next t ∧ s.endsWith t .pixelCountOverflow

/-- R100, R184: a DECODE whose geometry passes the check ends with `OK`, `TruncatedStream` or `PixelCountOverflow`,
whatever the stream. In each case the geometry is as requested, every byte of the valid region has a value, no byte
outside it is written, and the cursor stands between where it began and the end of the stream. -/
def Obligations.DecodeAlwaysEndsOneOfThreeWays : Prop :=
  ∀ s : State, GeomOK s.capr (int32 s.arg0) (int32 s.arg1) (int32 s.arg2) → s.inS.pos ≤ s.inS.data.length →
    ∃ t, exec .decode s = .next t ∧ s.endsWith t t.result ∧
      (t.result = .ok ∨ t.result = .truncatedStream ∨ t.result = .pixelCountOverflow) ∧
      t.pbW = s.arg0 ∧ t.pbH = s.arg1 ∧ t.pbBpp = s.arg2 ∧ t.holds t.dataSize ∧ s.sameOutside t 0 t.dataSize ∧
      s.inS.pos ≤ t.inS.pos ∧ t.inS.pos ≤ s.inS.data.length

/-- R101 (vi): what DECODE does with the stream and the new data depends on the operands, the capacity and the stream
alone: two states that agree on these (and on the draws made so far) end alike, whatever else differs. That the free
data and the free cursor of a failed DECODE agree too is the model's choice: R100, U1 and U2 only call them unspecified,
and it rests on their being draws numbered by the counter (logs 3, 4 and 5). -/
def Obligations.DecodeIgnoresTheOldBuffer : Prop :=
  ∀ s u : State, GeomOK s.capr (int32 s.arg0) (int32 s.arg1) (int32 s.arg2) →
    s.sameOperands u → u.inS = s.inS → u.draws = s.draws →
    ∃ t v, exec .decode s = .next t ∧ exec .decode u = .next v ∧ v.result = t.result ∧ v.inS = t.inS ∧
      v.data = t.data

/-- R24, R91: a DECODE is its chunks, run one after another by the machine's own step: from the state in which it has
just begun, some number of steps gives what DECODE gives. That a DECODE in progress is stepped chunk by chunk is the
model's choice (log 16), and so is the numbering of the draws by which the free values at its end agree (log 5). -/
def Obligations.DecodeIsItsChunkSteps : Prop :=
  ∀ s : State, GeomOK s.capr (int32 s.arg0) (int32 s.arg1) (int32 s.arg2) →
    ∃ k, Sys2Proof.core.run k (decodeStart s) = exec .decode s

/-! ### ENCODE (42_rle_encode.md) -/

/-- R113: ENCODE of an empty buffer ends in `InvalidDimensions` before anything is written. Otherwise, if the environment
accepts every byte, it ends with `OK` and has appended the encoding; if it refuses one, it ends in `WriteFailure` and
has appended exactly the bytes accepted before. In both cases the buffer and every register but `STATUS` are as
before. -/
def Obligations.EncodeAppendsItsEncoding : Prop :=
  ∀ s : State,
    (s.isEmpty = true → exec .encode s = .next (s.onlyStatus .invalidDimensions)) ∧
    (s.Ready → ∃ e, s.encoding = some e ∧
      ((∀ a ∈ s.outS.answers.take e.length, a = true) →
        ∃ t, exec .encode s = .next t ∧ s.endsWith t .ok ∧ t.outS.data = s.outS.data ++ e ∧ t.pm = s.pm ∧
          s.sameGeometry t ∧ s.sameOperands t ∧ t.pix = s.pix ∧ t.inS = s.inS ∧ s.sameShadow t ∧ s.sameScript t) ∧
      ∀ (k : Nat) (as : List Bool), k < e.length → s.outS.answers = List.replicate k true ++ false :: as →
        ∃ t, exec .encode s = .next t ∧ s.endsWith t .writeFailure ∧ t.outS.data = s.outS.data ++ e.take k ∧
          t.pm = s.pm ∧ s.sameGeometry t ∧ s.sameOperands t ∧ t.pix = s.pix ∧ t.inS = s.inS ∧ s.sameShadow t ∧
          s.sameScript t)

/-- R108, R109, R110, R114: the encoding is a stream of chunks that stand for the buffer's data. Every run has 1 to 128
pixels, a `RUN` at least two, and inside a `RAW` no two neighbours are equal. The cuts are greedy: a `RUN` ends at 128
pixels, at the end, or before a pixel that differs; a `RAW` ends at 128 pixels, at the end, or before a `RUN` whose
pixel differs from its last. -/
def Obligations.EncodingIsGreedyChunks : Prop :=
  ∀ s : State, s.Ready →
    ∃ (e d : List Byte) (cs : List Chunk), s.encoding = some e ∧ s.data = some d ∧
      streamBytes cs = e ∧ streamData cs = d ∧ streamCount cs = s.pixelCount ∧
      (∀ c ∈ cs, c.Fits s.bpp) ∧
      (∀ (n : Nat) (p : List Byte), Chunk.run n p ∈ cs → 2 ≤ n) ∧
      (∀ ps : List (List Byte), Chunk.raw ps ∈ cs → ps.IsChain (· ≠ ·)) ∧
      (∀ (before after : List Chunk) (n : Nat) (p : List Byte) (c : Chunk),
        cs = before ++ Chunk.run n p :: c :: after → n = 128 ∨ c.data.take s.bpp ≠ p) ∧
      (∀ (before after : List Chunk) (ps : List (List Byte)) (c : Chunk),
        cs = before ++ Chunk.raw ps :: c :: after →
          ps.length = 128 ∨ ∃ n q, c = .run n q ∧ ps.getLast? ≠ some q)

/-- R116: the round trip. If ENCODE of a buffer ends with `OK` having appended the bytes `e`, then DECODE with the
buffer's geometry, on a stream that starts with `e`, ends with `OK`, takes exactly `e`, and leaves the buffer's data. -/
def Obligations.DecodeRestoresWhatEncodeEmitted : Prop :=
  ∀ (s t u : State) (e : List Byte), s.Ready →
    exec .encode s = .next t → t.result = .ok → t.outS.data = s.outS.data ++ e →
    u.capr = s.capr → u.arg0 = s.pbW → u.arg1 = s.pbH → u.arg2 = s.pbBpp → e <+: u.incoming →
    ∃ v, exec .decode u = .next v ∧ u.endsWith v .ok ∧ s.sameGeometry v ∧ v.data = s.data ∧
      v.inS.pos = u.inS.pos + e.length

/-- R114 (ix): the encoding depends on the pixel count, the pixel size and the data alone. -/
def Obligations.EncodingIgnoresTheShape : Prop :=
  ∀ s u : State, s.Ready → u.Ready → u.pixelCount = s.pixelCount → u.bpp = s.bpp → u.data = s.data →
    u.encoding = s.encoding

/-! ### Flips (43_flip.md) -/

/-- R121: FLIPV on a buffer ends with `OK`; the new pixel `(x, y)` is the old pixel `(x, PB_H - 1 - y)`; everything
outside the data, the status and the hidden values is as before. -/
def Obligations.FlipvReversesTheRows : Prop :=
  ∀ s : State, s.Ready →
    ∃ t, exec .flipv s = .next t ∧ s.endsWith t .ok ∧
      (∀ x y, x < s.width → y < s.height → t.pixel x y = s.pixel x (s.height - 1 - y)) ∧
      s.sameOutside t 0 s.dataSize ∧ s.sameGeometry t ∧ s.sameOperands t ∧ t.pix = s.pix ∧ s.sameStreams t ∧
      s.sameShadow t ∧ s.sameScript t

/-- R123: FLIPH on a buffer ends with `OK`; the new pixel `(x, y)` is the old pixel `(PB_W - 1 - x, y)`, its bytes in
their order; everything outside the data, the status and the hidden values is as before. -/
def Obligations.FliphReversesEveryRow : Prop :=
  ∀ s : State, s.Ready →
    ∃ t, exec .fliph s = .next t ∧ s.endsWith t .ok ∧
      (∀ x y, x < s.width → y < s.height → t.pixel x y = s.pixel (s.width - 1 - x) y) ∧
      s.sameOutside t 0 s.dataSize ∧ s.sameGeometry t ∧ s.sameOperands t ∧ t.pix = s.pix ∧ s.sameStreams t ∧
      s.sameShadow t ∧ s.sameScript t

/-- R124: each flip is its own inverse, and the two commute: either order gives new `(x, y)` = old
`(PB_W - 1 - x, PB_H - 1 - y)`. -/
def Obligations.FlipsAreInvolutionsAndCommute : Prop :=
  ∀ s : State, s.Ready →
    (∃ t u, exec .flipv s = .next t ∧ exec .flipv t = .next u ∧ u.data = s.data) ∧
    (∃ t u, exec .fliph s = .next t ∧ exec .fliph t = .next u ∧ u.data = s.data) ∧
    ∃ t u t' u', exec .flipv s = .next t ∧ exec .fliph t = .next u ∧ exec .fliph s = .next t' ∧
      exec .flipv t' = .next u' ∧ u.data = u'.data ∧
      ∀ x y, x < s.width → y < s.height → u.pixel x y = s.pixel (s.width - 1 - x) (s.height - 1 - y)

/-! ### SCALE (44_scale.md) -/

/-- R130, R137, R138: SCALE to a positive size that fits ends with `OK`; the geometry is the new size with the old pixel
size; the new pixel `(k, r)` is the old pixel `(ceil((k+1)*W0/w) - 1, ceil((r+1)*H0/h) - 1)`; the registers and streams
are as before and the bank select has changed. -/
def Obligations.ScaleSelectsNearestPixels : Prop :=
  ∀ (s : State) (w h : Nat), s.Ready → int32 s.arg0 = w → int32 s.arg1 = h → 0 < w → 0 < h →
    w * h * s.bpp ≤ s.capr →
    ∃ t, exec .scale s = .next t ∧ s.endsWith t .ok ∧ t.pbW = s.arg0 ∧ t.pbH = s.arg1 ∧ t.pbBpp = s.pbBpp ∧
      (∀ k r, k < w → r < h → t.pixel k r =
        s.pixel (((k + 1) * s.width + (w - 1)) / w - 1) (((r + 1) * s.height + (h - 1)) / h - 1)) ∧
      t.holds t.dataSize ∧ t.bank = !s.bank ∧ s.sameOperands t ∧ t.pix = s.pix ∧ s.sameStreams t ∧ s.sameScript t

/-- R139: SCALE to the buffer's own size reproduces the buffer. -/
def Obligations.ScaleToOwnSizeIsIdentity : Prop :=
  ∀ s : State, s.Ready → s.arg0 = s.pbW → s.arg1 = s.pbH →
    ∃ t, exec .scale s = .next t ∧ s.endsWith t .ok ∧ s.sameGeometry t ∧ t.data = s.data

/-- R131: SCALE ends in `InvalidDimensions` exactly when one of its three checks fails, and then nothing but `STATUS` has
changed. -/
def Obligations.ScaleRefusesExactly : Prop :=
  ∀ s : State, s.Inv → s.busy = false →
    ((∃ t, exec .scale s = .next t ∧ t.result = .invalidDimensions) ↔
      (int32 s.arg0 ≤ 0 ∨ int32 s.arg1 ≤ 0 ∨ s.isEmpty = true ∨
        int32 s.arg0 * int32 s.arg1 * int32 s.pbBpp > s.capr)) ∧
    ∀ t, exec .scale s = .next t → t.result = .invalidDimensions → t = s.onlyStatus .invalidDimensions

/-! ### Invariants of the machine -/

/-- R18, R19, R31: the invariant holds after reset. -/
def Obligations.InvariantHoldsAtReset : Prop := State.reset.Inv

/-- R17, R18, R19: every step keeps the invariant: the geometry is empty or checked, the banks keep their canonical form
below the capacity, and between commands every byte of the valid region has a value. -/
def Obligations.StepKeepsTheInvariant : Prop :=
  ∀ s t : State, s.Inv → step s = .next t → t.Inv

/-- R41, R101, R114 (v), R126, R140, R192: from a state that meets the invariant no step stops with a fault: no command
reaches a byte outside the bank, reads a byte without a value, or runs for ever. A step that gives no next state is a
host access to an offset that is no register. -/
def Obligations.StepNeverFaults : Prop :=
  ∀ s : State, s.Inv → (∃ t, step s = .next t) ∨ ∃ o, step s = .refused (.notARegister o)

/-- R20: no step changes the capacity; a host read of `CAPR` returns it, and a host write to `CAPR` is ignored. -/
def Obligations.CapacityIsReadOnly : Prop :=
  ∀ s : State, (∀ t, step s = .next t → t.capr = s.capr) ∧
    (∀ ops, s.busy = false → s.host = .read 0x24 :: ops →
      step s = .next { s with host := ops, reads := s.reads ++ [BitVec.ofNat 32 s.capr] }) ∧
    ∀ v ops, s.busy = false → s.host = .write 0x24 v :: ops → step s = .next { s with host := ops }
end

