-- ==== Sys2Proof/Laws/Memory.lean ====
section
/-! SUPPORT. The laws of a bank: a read after a write, the canonical form, the byte lists of `MemRead` and `MemWrite`. -/

namespace Sys2Proof.Machine

theorem Memory.byte_put (m : Memory) (a : Nat) (v : Byte) (k : Nat) :
    (m.put a v).byte k = if a = k then some v else m.byte k := by
  induction m with
  | nil => simp [Memory.put, Memory.byte]
  | cons c m ih =>
    obtain ⟨j, b⟩ := c
    simp only [Memory.put]
    split
    · simp [Memory.byte]
    · split
      · rename_i hj; subst hj; simp only [Memory.byte]; split <;> rfl
      · rename_i hj
        simp only [Memory.byte, ih]
        by_cases hk : j = k
        · rw [if_pos hk, if_pos hk, if_neg (by omega)]
        · rw [if_neg hk, if_neg hk]

theorem Memory.mem_put {m : Memory} {a : Nat} {v : Byte} {c : Host.Cell} (h : c ∈ m.put a v) :
    c = (a, v) ∨ c ∈ m := by
  induction m with
  | nil => simpa [Memory.put] using h
  | cons d m ih =>
    obtain ⟨j, b⟩ := d
    simp only [Memory.put] at h
    split at h
    · simpa using h
    · split at h
      · simp only [List.mem_cons] at h ⊢; tauto
      · simp only [List.mem_cons] at h ⊢
        rcases h with h | h
        · tauto
        · rcases ih h with h | h <;> tauto

theorem Memory.wf_put {m : Memory} (h : m.wf) (a : Nat) (v : Byte) : (m.put a v).wf := by
  induction m with
  | nil => simp [Memory.wf, Memory.put]
  | cons d m ih =>
    obtain ⟨j, b⟩ := d
    have hm : Memory.wf m := List.Pairwise.of_cons h
    have hj : ∀ c ∈ m, j < c.1 := (List.pairwise_cons.1 h).1
    simp only [Memory.put]
    split
    · rename_i hlt
      refine List.pairwise_cons.2 ⟨fun c hc => ?_, h⟩
      rcases List.mem_cons.1 hc with rfl | hc
      · exact hlt
      · exact Nat.lt_trans hlt (hj c hc)
    · split
      · subst_vars; exact List.pairwise_cons.2 ⟨hj, hm⟩
      · refine List.pairwise_cons.2 ⟨fun c hc => ?_, ih hm⟩
        rcases Memory.mem_put hc with rfl | hc
        · show j < a; omega
        · exact hj c hc

theorem Memory.below_put {m : Memory} {cap a : Nat} (h : m.below cap) (ha : a < cap) (v : Byte) :
    (m.put a v).below cap := fun c hc => by
  rcases Memory.mem_put hc with rfl | hc
  · exact ha
  · exact h c hc

theorem Memory.byte_putAll (m : Memory) (a : Nat) (bs : List Byte) (k : Nat) :
    (m.putAll a bs).byte k = if a ≤ k ∧ k < a + bs.length then bs[k - a]? else m.byte k := by
  induction bs generalizing m a with
  | nil => simp only [Memory.putAll, List.length_nil]; rw [if_neg (by omega)]
  | cons b bs ih =>
    simp only [Memory.putAll, ih, Memory.byte_put, List.length_cons]
    by_cases h1 : a + 1 ≤ k ∧ k < a + 1 + bs.length
    · rw [if_pos h1, if_pos (by omega)]
      obtain ⟨j, rfl⟩ : ∃ j, k = a + 1 + j := ⟨k - (a + 1), by omega⟩
      rw [show a + 1 + j - (a + 1) = j by omega, show a + 1 + j - a = j + 1 by omega]; simp
    · rw [if_neg h1]
      by_cases h2 : a = k
      · subst h2; simp
      · rw [if_neg h2, if_neg (by omega)]

theorem Memory.wf_putAll {m : Memory} (h : m.wf) (a : Nat) (bs : List Byte) : (m.putAll a bs).wf := by
  induction bs generalizing m a with
  | nil => exact h
  | cons b bs ih => exact ih (Memory.wf_put h a b) (a + 1)

theorem Memory.below_putAll {m : Memory} {cap : Nat} (h : m.below cap) {a : Nat} {bs : List Byte}
    (ha : a + bs.length ≤ cap) : (m.putAll a bs).below cap := by
  induction bs generalizing m a with
  | nil => exact h
  | cons b bs ih =>
    simp only [List.length_cons] at ha
    exact ih (Memory.below_put h (by omega) b) (by omega)

theorem Memory.bytes_eq_some {m : Memory} {a n : Nat} {bs : List Byte} :
    m.bytes a n = some bs ↔ bs.length = n ∧ ∀ k, k < n → m.byte (a + k) = bs[k]? := by
  induction n generalizing a bs with
  | zero => cases bs <;> simp [Memory.bytes]
  | succ n ih =>
    simp only [Memory.bytes]
    constructor
    · intro h
      split at h
      · rename_i b cs hb hcs
        cases h
        obtain ⟨hl, hk⟩ := ih.1 hcs
        refine ⟨by simp [hl], fun k hk' => ?_⟩
        cases k with
        | zero => simpa using hb
        | succ k => rw [show a + (k + 1) = a + 1 + k by omega, hk k (by omega)]; simp
      · cases h
    · rintro ⟨hl, hk⟩
      cases bs with
      | nil => simp at hl
      | cons b cs =>
        have h0 : m.byte a = some b := by simpa using hk 0 (by omega)
        have h1 : m.bytes (a + 1) n = some cs := by
          refine ih.2 ⟨by simpa using hl, fun k hk' => ?_⟩
          rw [show a + 1 + k = a + (k + 1) by omega, hk (k + 1) (by omega)]; simp
        rw [h0, h1]

theorem Memory.bytes_length {m : Memory} {a n : Nat} {bs : List Byte} (h : m.bytes a n = some bs) :
    bs.length = n := (Memory.bytes_eq_some.1 h).1

/-- A region all of whose bytes have a value reads as some byte list. -/
theorem Memory.bytes_isSome {m : Memory} {a n : Nat} (h : ∀ k, k < n → (m.byte (a + k)).isSome = true) :
    ∃ bs, m.bytes a n = some bs := by
  induction n generalizing a with
  | zero => exact ⟨[], rfl⟩
  | succ n ih =>
    obtain ⟨bs, hbs⟩ := ih (a := a + 1) fun k hk => by
      rw [show a + 1 + k = a + (k + 1) by omega]; exact h (k + 1) (by omega)
    obtain ⟨b, hb⟩ := Option.isSome_iff_exists.1 (h 0 (by omega))
    exact ⟨b :: bs, by simp only [Memory.bytes, show m.byte a = some b from hb, hbs]⟩

/-- Two banks that agree on a region read alike there. -/
theorem Memory.bytes_congr {m m' : Memory} {a b n : Nat} (h : ∀ k, k < n → m.byte (a + k) = m'.byte (b + k)) :
    m.bytes a n = m'.bytes b n := by
  induction n generalizing a b with
  | zero => rfl
  | succ n ih =>
    have h0 : m.byte a = m'.byte b := h 0 (by omega)
    have h1 : m.bytes (a + 1) n = m'.bytes (b + 1) n := ih fun k hk => by
      rw [show a + 1 + k = a + (k + 1) by omega, show b + 1 + k = b + (k + 1) by omega]; exact h (k + 1) (by omega)
    simp only [Memory.bytes, h0, h1]

/-- `MemRead` after `MemWrite` of the same region gives the bytes written. -/
theorem Memory.bytes_putAll (m : Memory) (a : Nat) (bs : List Byte) :
    (m.putAll a bs).bytes a bs.length = some bs :=
  Memory.bytes_eq_some.2 ⟨rfl, fun k hk => by
    rw [Memory.byte_putAll, if_pos (by omega), show a + k - a = k by omega]⟩

/-- A region read, its byte at one offset. -/
theorem Memory.byte_of_bytes {m : Memory} {a n : Nat} {bs : List Byte} (h : m.bytes a n = some bs) {k : Nat}
    (hk : k < n) : m.byte (a + k) = bs[k]? := (Memory.bytes_eq_some.1 h).2 k hk

theorem Memory.putAll_append (m : Memory) (a : Nat) (bs cs : List Byte) :
    m.putAll a (bs ++ cs) = (m.putAll a bs).putAll (a + bs.length) cs := by
  induction bs generalizing m a with
  | nil => simp [Memory.putAll]
  | cons b bs ih =>
    simp only [List.cons_append, Memory.putAll, ih, List.length_cons]
    rw [show a + 1 + bs.length = a + (bs.length + 1) by omega]

/-- A region read is its two parts read. -/
theorem Memory.bytes_add (m : Memory) (a n k : Nat) :
    m.bytes a (n + k) = (m.bytes a n).bind fun bs => (m.bytes (a + n) k).map (bs ++ ·) := by
  induction n generalizing a with
  | zero => simp [Memory.bytes]
  | succ n ih =>
    rw [show n + 1 + k = n + k + 1 by omega]
    simp only [Memory.bytes, ih]
    rw [show a + 1 + n = a + (n + 1) by omega]
    cases m.byte a <;> cases m.bytes (a + 1) n <;> cases m.bytes (a + (n + 1)) k <;> simp

end Sys2Proof.Machine
end

