-- ==== Sys2Proof/Laws/State.lean ====
section
/-! SUPPORT. One lemma per field per named update of the state, so that no proof unfolds an update. -/

namespace Sys2Proof.Machine

/-! ### `raise` -/

@[simp] theorem raise_arg0 (e : Result) (s : State) : (raise e s).arg0 = s.arg0 := rfl
@[simp] theorem raise_arg1 (e : Result) (s : State) : (raise e s).arg1 = s.arg1 := rfl
@[simp] theorem raise_arg2 (e : Result) (s : State) : (raise e s).arg2 = s.arg2 := rfl
@[simp] theorem raise_pix (e : Result) (s : State) : (raise e s).pix = s.pix := rfl
@[simp] theorem raise_pbW (e : Result) (s : State) : (raise e s).pbW = s.pbW := rfl
@[simp] theorem raise_pbH (e : Result) (s : State) : (raise e s).pbH = s.pbH := rfl
@[simp] theorem raise_pbBpp (e : Result) (s : State) : (raise e s).pbBpp = s.pbBpp := rfl
@[simp] theorem raise_capr (e : Result) (s : State) : (raise e s).capr = s.capr := rfl
@[simp] theorem raise_result (e : Result) (s : State) : (raise e s).result = e := rfl
@[simp] theorem raise_sticky (e : Result) (s : State) : (raise e s).sticky = true := rfl
@[simp] theorem raise_busy (e : Result) (s : State) : (raise e s).busy = false := rfl
@[simp] theorem raise_pm (e : Result) (s : State) : (raise e s).pm = s.pm := rfl
@[simp] theorem raise_sh (e : Result) (s : State) : (raise e s).sh = s.sh := rfl
@[simp] theorem raise_bank (e : Result) (s : State) : (raise e s).bank = s.bank := rfl
@[simp] theorem raise_dec (e : Result) (s : State) : (raise e s).dec = s.dec := rfl
@[simp] theorem raise_enc (e : Result) (s : State) : (raise e s).enc = s.enc := rfl
@[simp] theorem raise_flip (e : Result) (s : State) : (raise e s).flip = s.flip := rfl
@[simp] theorem raise_scl (e : Result) (s : State) : (raise e s).scl = s.scl := rfl
@[simp] theorem raise_inS (e : Result) (s : State) : (raise e s).inS = s.inS := rfl
@[simp] theorem raise_outS (e : Result) (s : State) : (raise e s).outS = s.outS := rfl
@[simp] theorem raise_host (e : Result) (s : State) : (raise e s).host = s.host := rfl
@[simp] theorem raise_reads (e : Result) (s : State) : (raise e s).reads = s.reads := rfl
@[simp] theorem raise_draws (e : Result) (s : State) : (raise e s).draws = s.draws := rfl
@[simp] theorem raise_width (e : Result) (s : State) : (raise e s).width = s.width := rfl
@[simp] theorem raise_height (e : Result) (s : State) : (raise e s).height = s.height := rfl
@[simp] theorem raise_bpp (e : Result) (s : State) : (raise e s).bpp = s.bpp := rfl
@[simp] theorem raise_pixelCount (e : Result) (s : State) : (raise e s).pixelCount = s.pixelCount := rfl
@[simp] theorem raise_dataSize (e : Result) (s : State) : (raise e s).dataSize = s.dataSize := rfl
@[simp] theorem raise_lineSize (e : Result) (s : State) : (raise e s).lineSize = s.lineSize := rfl
@[simp] theorem raise_isEmpty (e : Result) (s : State) : (raise e s).isEmpty = s.isEmpty := rfl

/-! ### `complete` -/

@[simp] theorem complete_arg0 (s : State) : (complete s).arg0 = s.arg0 := rfl
@[simp] theorem complete_arg1 (s : State) : (complete s).arg1 = s.arg1 := rfl
@[simp] theorem complete_arg2 (s : State) : (complete s).arg2 = s.arg2 := rfl
@[simp] theorem complete_pix (s : State) : (complete s).pix = s.pix := rfl
@[simp] theorem complete_pbW (s : State) : (complete s).pbW = s.pbW := rfl
@[simp] theorem complete_pbH (s : State) : (complete s).pbH = s.pbH := rfl
@[simp] theorem complete_pbBpp (s : State) : (complete s).pbBpp = s.pbBpp := rfl
@[simp] theorem complete_capr (s : State) : (complete s).capr = s.capr := rfl
@[simp] theorem complete_result (s : State) : (complete s).result = .ok := rfl
@[simp] theorem complete_sticky (s : State) : (complete s).sticky = s.sticky := rfl
@[simp] theorem complete_busy (s : State) : (complete s).busy = false := rfl
@[simp] theorem complete_pm (s : State) : (complete s).pm = s.pm := rfl
@[simp] theorem complete_sh (s : State) : (complete s).sh = s.sh := rfl
@[simp] theorem complete_bank (s : State) : (complete s).bank = s.bank := rfl
@[simp] theorem complete_dec (s : State) : (complete s).dec = s.dec := rfl
@[simp] theorem complete_enc (s : State) : (complete s).enc = s.enc := rfl
@[simp] theorem complete_flip (s : State) : (complete s).flip = s.flip := rfl
@[simp] theorem complete_scl (s : State) : (complete s).scl = s.scl := rfl
@[simp] theorem complete_inS (s : State) : (complete s).inS = s.inS := rfl
@[simp] theorem complete_outS (s : State) : (complete s).outS = s.outS := rfl
@[simp] theorem complete_host (s : State) : (complete s).host = s.host := rfl
@[simp] theorem complete_reads (s : State) : (complete s).reads = s.reads := rfl
@[simp] theorem complete_draws (s : State) : (complete s).draws = s.draws := rfl
@[simp] theorem complete_width (s : State) : (complete s).width = s.width := rfl
@[simp] theorem complete_height (s : State) : (complete s).height = s.height := rfl
@[simp] theorem complete_bpp (s : State) : (complete s).bpp = s.bpp := rfl
@[simp] theorem complete_pixelCount (s : State) : (complete s).pixelCount = s.pixelCount := rfl
@[simp] theorem complete_dataSize (s : State) : (complete s).dataSize = s.dataSize := rfl
@[simp] theorem complete_lineSize (s : State) : (complete s).lineSize = s.lineSize := rfl
@[simp] theorem complete_isEmpty (s : State) : (complete s).isEmpty = s.isEmpty := rfl

/-! ### `scrub` -/

@[simp] theorem scrub_arg0 (s : State) : (scrub s).arg0 = s.arg0 := rfl
@[simp] theorem scrub_arg1 (s : State) : (scrub s).arg1 = s.arg1 := rfl
@[simp] theorem scrub_arg2 (s : State) : (scrub s).arg2 = s.arg2 := rfl
@[simp] theorem scrub_pix (s : State) : (scrub s).pix = s.pix := rfl
@[simp] theorem scrub_pbW (s : State) : (scrub s).pbW = s.pbW := rfl
@[simp] theorem scrub_pbH (s : State) : (scrub s).pbH = s.pbH := rfl
@[simp] theorem scrub_pbBpp (s : State) : (scrub s).pbBpp = s.pbBpp := rfl
@[simp] theorem scrub_capr (s : State) : (scrub s).capr = s.capr := rfl
@[simp] theorem scrub_result (s : State) : (scrub s).result = s.result := rfl
@[simp] theorem scrub_sticky (s : State) : (scrub s).sticky = s.sticky := rfl
@[simp] theorem scrub_busy (s : State) : (scrub s).busy = s.busy := rfl
@[simp] theorem scrub_pm (s : State) : (scrub s).pm = s.pm := rfl
@[simp] theorem scrub_sh (s : State) : (scrub s).sh = s.sh := rfl
@[simp] theorem scrub_bank (s : State) : (scrub s).bank = s.bank := rfl
@[simp] theorem scrub_dec (s : State) : (scrub s).dec = Decoder.unspecified s.draws := rfl
@[simp] theorem scrub_enc (s : State) : (scrub s).enc = Encoder.unspecified (s.draws + 6) := rfl
@[simp] theorem scrub_flip (s : State) : (scrub s).flip = Flipper.unspecified (s.draws + 13) := rfl
@[simp] theorem scrub_scl (s : State) : (scrub s).scl = Scaler.unspecified (s.draws + 16) := rfl
@[simp] theorem scrub_inS (s : State) : (scrub s).inS = s.inS := rfl
@[simp] theorem scrub_outS (s : State) : (scrub s).outS = s.outS := rfl
@[simp] theorem scrub_host (s : State) : (scrub s).host = s.host := rfl
@[simp] theorem scrub_reads (s : State) : (scrub s).reads = s.reads := rfl
@[simp] theorem scrub_draws (s : State) : (scrub s).draws = s.draws + 23 := rfl
@[simp] theorem scrub_width (s : State) : (scrub s).width = s.width := rfl
@[simp] theorem scrub_height (s : State) : (scrub s).height = s.height := rfl
@[simp] theorem scrub_bpp (s : State) : (scrub s).bpp = s.bpp := rfl
@[simp] theorem scrub_pixelCount (s : State) : (scrub s).pixelCount = s.pixelCount := rfl
@[simp] theorem scrub_dataSize (s : State) : (scrub s).dataSize = s.dataSize := rfl
@[simp] theorem scrub_lineSize (s : State) : (scrub s).lineSize = s.lineSize := rfl
@[simp] theorem scrub_isEmpty (s : State) : (scrub s).isEmpty = s.isEmpty := rfl

/-! ### `drawData` -/

@[simp] theorem drawData_arg0 (s : State) : (drawData s).arg0 = s.arg0 := rfl
@[simp] theorem drawData_arg1 (s : State) : (drawData s).arg1 = s.arg1 := rfl
@[simp] theorem drawData_arg2 (s : State) : (drawData s).arg2 = s.arg2 := rfl
@[simp] theorem drawData_pix (s : State) : (drawData s).pix = s.pix := rfl
@[simp] theorem drawData_pbW (s : State) : (drawData s).pbW = s.pbW := rfl
@[simp] theorem drawData_pbH (s : State) : (drawData s).pbH = s.pbH := rfl
@[simp] theorem drawData_pbBpp (s : State) : (drawData s).pbBpp = s.pbBpp := rfl
@[simp] theorem drawData_capr (s : State) : (drawData s).capr = s.capr := rfl
@[simp] theorem drawData_result (s : State) : (drawData s).result = s.result := rfl
@[simp] theorem drawData_sticky (s : State) : (drawData s).sticky = s.sticky := rfl
@[simp] theorem drawData_busy (s : State) : (drawData s).busy = s.busy := rfl
@[simp] theorem drawData_pm (s : State) : (drawData s).pm = s.pm.putAll 0 (freeData s.draws s.dataSize) := rfl
@[simp] theorem drawData_sh (s : State) : (drawData s).sh = s.sh := rfl
@[simp] theorem drawData_bank (s : State) : (drawData s).bank = s.bank := rfl
@[simp] theorem drawData_dec (s : State) : (drawData s).dec = s.dec := rfl
@[simp] theorem drawData_enc (s : State) : (drawData s).enc = s.enc := rfl
@[simp] theorem drawData_flip (s : State) : (drawData s).flip = s.flip := rfl
@[simp] theorem drawData_scl (s : State) : (drawData s).scl = s.scl := rfl
@[simp] theorem drawData_inS (s : State) : (drawData s).inS = s.inS := rfl
@[simp] theorem drawData_outS (s : State) : (drawData s).outS = s.outS := rfl
@[simp] theorem drawData_host (s : State) : (drawData s).host = s.host := rfl
@[simp] theorem drawData_reads (s : State) : (drawData s).reads = s.reads := rfl
@[simp] theorem drawData_draws (s : State) : (drawData s).draws = s.draws + s.dataSize := rfl
@[simp] theorem drawData_width (s : State) : (drawData s).width = s.width := rfl
@[simp] theorem drawData_height (s : State) : (drawData s).height = s.height := rfl
@[simp] theorem drawData_bpp (s : State) : (drawData s).bpp = s.bpp := rfl
@[simp] theorem drawData_pixelCount (s : State) : (drawData s).pixelCount = s.pixelCount := rfl
@[simp] theorem drawData_dataSize (s : State) : (drawData s).dataSize = s.dataSize := rfl
@[simp] theorem drawData_lineSize (s : State) : (drawData s).lineSize = s.lineSize := rfl
@[simp] theorem drawData_isEmpty (s : State) : (drawData s).isEmpty = s.isEmpty := rfl

/-! ### `drawPos` -/

@[simp] theorem drawPos_arg0 (s : State) : (drawPos s).arg0 = s.arg0 := rfl
@[simp] theorem drawPos_arg1 (s : State) : (drawPos s).arg1 = s.arg1 := rfl
@[simp] theorem drawPos_arg2 (s : State) : (drawPos s).arg2 = s.arg2 := rfl
@[simp] theorem drawPos_pix (s : State) : (drawPos s).pix = s.pix := rfl
@[simp] theorem drawPos_pbW (s : State) : (drawPos s).pbW = s.pbW := rfl
@[simp] theorem drawPos_pbH (s : State) : (drawPos s).pbH = s.pbH := rfl
@[simp] theorem drawPos_pbBpp (s : State) : (drawPos s).pbBpp = s.pbBpp := rfl
@[simp] theorem drawPos_capr (s : State) : (drawPos s).capr = s.capr := rfl
@[simp] theorem drawPos_result (s : State) : (drawPos s).result = s.result := rfl
@[simp] theorem drawPos_sticky (s : State) : (drawPos s).sticky = s.sticky := rfl
@[simp] theorem drawPos_busy (s : State) : (drawPos s).busy = s.busy := rfl
@[simp] theorem drawPos_pm (s : State) : (drawPos s).pm = s.pm := rfl
@[simp] theorem drawPos_sh (s : State) : (drawPos s).sh = s.sh := rfl
@[simp] theorem drawPos_bank (s : State) : (drawPos s).bank = s.bank := rfl
@[simp] theorem drawPos_dec (s : State) : (drawPos s).dec = s.dec := rfl
@[simp] theorem drawPos_enc (s : State) : (drawPos s).enc = s.enc := rfl
@[simp] theorem drawPos_flip (s : State) : (drawPos s).flip = s.flip := rfl
@[simp] theorem drawPos_scl (s : State) : (drawPos s).scl = s.scl := rfl
@[simp] theorem drawPos_outS (s : State) : (drawPos s).outS = s.outS := rfl
@[simp] theorem drawPos_host (s : State) : (drawPos s).host = s.host := rfl
@[simp] theorem drawPos_reads (s : State) : (drawPos s).reads = s.reads := rfl
@[simp] theorem drawPos_draws (s : State) : (drawPos s).draws = s.draws + 1 := rfl
@[simp] theorem drawPos_width (s : State) : (drawPos s).width = s.width := rfl
@[simp] theorem drawPos_height (s : State) : (drawPos s).height = s.height := rfl
@[simp] theorem drawPos_bpp (s : State) : (drawPos s).bpp = s.bpp := rfl
@[simp] theorem drawPos_pixelCount (s : State) : (drawPos s).pixelCount = s.pixelCount := rfl
@[simp] theorem drawPos_dataSize (s : State) : (drawPos s).dataSize = s.dataSize := rfl
@[simp] theorem drawPos_lineSize (s : State) : (drawPos s).lineSize = s.lineSize := rfl
@[simp] theorem drawPos_isEmpty (s : State) : (drawPos s).isEmpty = s.isEmpty := rfl
@[simp] theorem drawPos_inS_data (s : State) : (drawPos s).inS.data = s.inS.data := rfl
@[simp] theorem drawPos_inS_failAt (s : State) : (drawPos s).inS.failAt = s.inS.failAt := rfl

/-! ### `setGeometry` -/

@[simp] theorem setGeometry_arg0 (w h bpp : Word) (s : State) : (setGeometry w h bpp s).arg0 = s.arg0 := rfl
@[simp] theorem setGeometry_arg1 (w h bpp : Word) (s : State) : (setGeometry w h bpp s).arg1 = s.arg1 := rfl
@[simp] theorem setGeometry_arg2 (w h bpp : Word) (s : State) : (setGeometry w h bpp s).arg2 = s.arg2 := rfl
@[simp] theorem setGeometry_pix (w h bpp : Word) (s : State) : (setGeometry w h bpp s).pix = s.pix := rfl
@[simp] theorem setGeometry_pbW (w h bpp : Word) (s : State) : (setGeometry w h bpp s).pbW = w := rfl
@[simp] theorem setGeometry_pbH (w h bpp : Word) (s : State) : (setGeometry w h bpp s).pbH = h := rfl
@[simp] theorem setGeometry_pbBpp (w h bpp : Word) (s : State) : (setGeometry w h bpp s).pbBpp = bpp := rfl
@[simp] theorem setGeometry_capr (w h bpp : Word) (s : State) : (setGeometry w h bpp s).capr = s.capr := rfl
@[simp] theorem setGeometry_result (w h bpp : Word) (s : State) : (setGeometry w h bpp s).result = s.result := rfl
@[simp] theorem setGeometry_sticky (w h bpp : Word) (s : State) : (setGeometry w h bpp s).sticky = s.sticky := rfl
@[simp] theorem setGeometry_busy (w h bpp : Word) (s : State) : (setGeometry w h bpp s).busy = s.busy := rfl
@[simp] theorem setGeometry_pm (w h bpp : Word) (s : State) : (setGeometry w h bpp s).pm = s.pm := rfl
@[simp] theorem setGeometry_sh (w h bpp : Word) (s : State) : (setGeometry w h bpp s).sh = s.sh := rfl
@[simp] theorem setGeometry_bank (w h bpp : Word) (s : State) : (setGeometry w h bpp s).bank = s.bank := rfl
@[simp] theorem setGeometry_dec (w h bpp : Word) (s : State) : (setGeometry w h bpp s).dec = s.dec := rfl
@[simp] theorem setGeometry_enc (w h bpp : Word) (s : State) : (setGeometry w h bpp s).enc = s.enc := rfl
@[simp] theorem setGeometry_flip (w h bpp : Word) (s : State) : (setGeometry w h bpp s).flip = s.flip := rfl
@[simp] theorem setGeometry_scl (w h bpp : Word) (s : State) : (setGeometry w h bpp s).scl = s.scl := rfl
@[simp] theorem setGeometry_inS (w h bpp : Word) (s : State) : (setGeometry w h bpp s).inS = s.inS := rfl
@[simp] theorem setGeometry_outS (w h bpp : Word) (s : State) : (setGeometry w h bpp s).outS = s.outS := rfl
@[simp] theorem setGeometry_host (w h bpp : Word) (s : State) : (setGeometry w h bpp s).host = s.host := rfl
@[simp] theorem setGeometry_reads (w h bpp : Word) (s : State) : (setGeometry w h bpp s).reads = s.reads := rfl
@[simp] theorem setGeometry_draws (w h bpp : Word) (s : State) : (setGeometry w h bpp s).draws = s.draws := rfl

/-! ### `writeStatus` -/

@[simp] theorem writeStatus_arg0 (s : State) (v : Word) : (s.writeStatus v).arg0 = s.arg0 := rfl
@[simp] theorem writeStatus_arg1 (s : State) (v : Word) : (s.writeStatus v).arg1 = s.arg1 := rfl
@[simp] theorem writeStatus_arg2 (s : State) (v : Word) : (s.writeStatus v).arg2 = s.arg2 := rfl
@[simp] theorem writeStatus_pix (s : State) (v : Word) : (s.writeStatus v).pix = s.pix := rfl
@[simp] theorem writeStatus_pbW (s : State) (v : Word) : (s.writeStatus v).pbW = s.pbW := rfl
@[simp] theorem writeStatus_pbH (s : State) (v : Word) : (s.writeStatus v).pbH = s.pbH := rfl
@[simp] theorem writeStatus_pbBpp (s : State) (v : Word) : (s.writeStatus v).pbBpp = s.pbBpp := rfl
@[simp] theorem writeStatus_capr (s : State) (v : Word) : (s.writeStatus v).capr = s.capr := rfl
@[simp] theorem writeStatus_result (s : State) (v : Word) : (s.writeStatus v).result = s.result := rfl
@[simp] theorem writeStatus_sticky (s : State) (v : Word) : (s.writeStatus v).sticky = (s.sticky && !v.getLsbD 4) := rfl
@[simp] theorem writeStatus_busy (s : State) (v : Word) : (s.writeStatus v).busy = s.busy := rfl
@[simp] theorem writeStatus_pm (s : State) (v : Word) : (s.writeStatus v).pm = s.pm := rfl
@[simp] theorem writeStatus_sh (s : State) (v : Word) : (s.writeStatus v).sh = s.sh := rfl
@[simp] theorem writeStatus_bank (s : State) (v : Word) : (s.writeStatus v).bank = s.bank := rfl
@[simp] theorem writeStatus_dec (s : State) (v : Word) : (s.writeStatus v).dec = s.dec := rfl
@[simp] theorem writeStatus_enc (s : State) (v : Word) : (s.writeStatus v).enc = s.enc := rfl
@[simp] theorem writeStatus_flip (s : State) (v : Word) : (s.writeStatus v).flip = s.flip := rfl
@[simp] theorem writeStatus_scl (s : State) (v : Word) : (s.writeStatus v).scl = s.scl := rfl
@[simp] theorem writeStatus_inS (s : State) (v : Word) : (s.writeStatus v).inS = s.inS := rfl
@[simp] theorem writeStatus_outS (s : State) (v : Word) : (s.writeStatus v).outS = s.outS := rfl
@[simp] theorem writeStatus_host (s : State) (v : Word) : (s.writeStatus v).host = s.host := rfl
@[simp] theorem writeStatus_reads (s : State) (v : Word) : (s.writeStatus v).reads = s.reads := rfl
@[simp] theorem writeStatus_draws (s : State) (v : Word) : (s.writeStatus v).draws = s.draws := rfl
@[simp] theorem writeStatus_width (s : State) (v : Word) : (s.writeStatus v).width = s.width := rfl
@[simp] theorem writeStatus_height (s : State) (v : Word) : (s.writeStatus v).height = s.height := rfl
@[simp] theorem writeStatus_bpp (s : State) (v : Word) : (s.writeStatus v).bpp = s.bpp := rfl
@[simp] theorem writeStatus_pixelCount (s : State) (v : Word) : (s.writeStatus v).pixelCount = s.pixelCount := rfl
@[simp] theorem writeStatus_dataSize (s : State) (v : Word) : (s.writeStatus v).dataSize = s.dataSize := rfl
@[simp] theorem writeStatus_lineSize (s : State) (v : Word) : (s.writeStatus v).lineSize = s.lineSize := rfl
@[simp] theorem writeStatus_isEmpty (s : State) (v : Word) : (s.writeStatus v).isEmpty = s.isEmpty := rfl

/-! ### `setHeader` -/

@[simp] theorem setHeader_arg0 (h : Byte) (s : State) : (setHeader h s).arg0 = s.arg0 := rfl
@[simp] theorem setHeader_arg1 (h : Byte) (s : State) : (setHeader h s).arg1 = s.arg1 := rfl
@[simp] theorem setHeader_arg2 (h : Byte) (s : State) : (setHeader h s).arg2 = s.arg2 := rfl
@[simp] theorem setHeader_pix (h : Byte) (s : State) : (setHeader h s).pix = s.pix := rfl
@[simp] theorem setHeader_pbW (h : Byte) (s : State) : (setHeader h s).pbW = s.pbW := rfl
@[simp] theorem setHeader_pbH (h : Byte) (s : State) : (setHeader h s).pbH = s.pbH := rfl
@[simp] theorem setHeader_pbBpp (h : Byte) (s : State) : (setHeader h s).pbBpp = s.pbBpp := rfl
@[simp] theorem setHeader_capr (h : Byte) (s : State) : (setHeader h s).capr = s.capr := rfl
@[simp] theorem setHeader_result (h : Byte) (s : State) : (setHeader h s).result = s.result := rfl
@[simp] theorem setHeader_sticky (h : Byte) (s : State) : (setHeader h s).sticky = s.sticky := rfl
@[simp] theorem setHeader_busy (h : Byte) (s : State) : (setHeader h s).busy = s.busy := rfl
@[simp] theorem setHeader_pm (h : Byte) (s : State) : (setHeader h s).pm = s.pm := rfl
@[simp] theorem setHeader_sh (h : Byte) (s : State) : (setHeader h s).sh = s.sh := rfl
@[simp] theorem setHeader_bank (h : Byte) (s : State) : (setHeader h s).bank = s.bank := rfl
@[simp] theorem setHeader_dec (h : Byte) (s : State) : (setHeader h s).dec = { s.dec with hd := h } := rfl
@[simp] theorem setHeader_enc (h : Byte) (s : State) : (setHeader h s).enc = s.enc := rfl
@[simp] theorem setHeader_flip (h : Byte) (s : State) : (setHeader h s).flip = s.flip := rfl
@[simp] theorem setHeader_scl (h : Byte) (s : State) : (setHeader h s).scl = s.scl := rfl
@[simp] theorem setHeader_inS (h : Byte) (s : State) : (setHeader h s).inS = s.inS := rfl
@[simp] theorem setHeader_outS (h : Byte) (s : State) : (setHeader h s).outS = s.outS := rfl
@[simp] theorem setHeader_host (h : Byte) (s : State) : (setHeader h s).host = s.host := rfl
@[simp] theorem setHeader_reads (h : Byte) (s : State) : (setHeader h s).reads = s.reads := rfl
@[simp] theorem setHeader_draws (h : Byte) (s : State) : (setHeader h s).draws = s.draws := rfl
@[simp] theorem setHeader_width (h : Byte) (s : State) : (setHeader h s).width = s.width := rfl
@[simp] theorem setHeader_height (h : Byte) (s : State) : (setHeader h s).height = s.height := rfl
@[simp] theorem setHeader_bpp (h : Byte) (s : State) : (setHeader h s).bpp = s.bpp := rfl
@[simp] theorem setHeader_pixelCount (h : Byte) (s : State) : (setHeader h s).pixelCount = s.pixelCount := rfl
@[simp] theorem setHeader_dataSize (h : Byte) (s : State) : (setHeader h s).dataSize = s.dataSize := rfl
@[simp] theorem setHeader_lineSize (h : Byte) (s : State) : (setHeader h s).lineSize = s.lineSize := rfl
@[simp] theorem setHeader_isEmpty (h : Byte) (s : State) : (setHeader h s).isEmpty = s.isEmpty := rfl

/-! ### `decodeStart` -/

@[simp] theorem decodeStart_arg0 (s : State) : (decodeStart s).arg0 = s.arg0 := rfl
@[simp] theorem decodeStart_arg1 (s : State) : (decodeStart s).arg1 = s.arg1 := rfl
@[simp] theorem decodeStart_arg2 (s : State) : (decodeStart s).arg2 = s.arg2 := rfl
@[simp] theorem decodeStart_pix (s : State) : (decodeStart s).pix = s.pix := rfl
@[simp] theorem decodeStart_pbW (s : State) : (decodeStart s).pbW = s.arg0 := rfl
@[simp] theorem decodeStart_pbH (s : State) : (decodeStart s).pbH = s.arg1 := rfl
@[simp] theorem decodeStart_pbBpp (s : State) : (decodeStart s).pbBpp = s.arg2 := rfl
@[simp] theorem decodeStart_capr (s : State) : (decodeStart s).capr = s.capr := rfl
@[simp] theorem decodeStart_result (s : State) : (decodeStart s).result = s.result := rfl
@[simp] theorem decodeStart_sticky (s : State) : (decodeStart s).sticky = s.sticky := rfl
@[simp] theorem decodeStart_busy (s : State) : (decodeStart s).busy = true := rfl
@[simp] theorem decodeStart_pm (s : State) : (decodeStart s).pm = s.pm := rfl
@[simp] theorem decodeStart_sh (s : State) : (decodeStart s).sh = s.sh := rfl
@[simp] theorem decodeStart_bank (s : State) : (decodeStart s).bank = s.bank := rfl
@[simp] theorem decodeStart_enc (s : State) : (decodeStart s).enc = s.enc := rfl
@[simp] theorem decodeStart_flip (s : State) : (decodeStart s).flip = s.flip := rfl
@[simp] theorem decodeStart_scl (s : State) : (decodeStart s).scl = s.scl := rfl
@[simp] theorem decodeStart_inS (s : State) : (decodeStart s).inS = s.inS := rfl
@[simp] theorem decodeStart_outS (s : State) : (decodeStart s).outS = s.outS := rfl
@[simp] theorem decodeStart_host (s : State) : (decodeStart s).host = s.host := rfl
@[simp] theorem decodeStart_reads (s : State) : (decodeStart s).reads = s.reads := rfl
@[simp] theorem decodeStart_draws (s : State) : (decodeStart s).draws = s.draws := rfl
@[simp] theorem decodeStart_dec_n (s : State) : (decodeStart s).dec.n = (decodeStart s).pixelCount := rfl
@[simp] theorem decodeStart_dec_cnt (s : State) : (decodeStart s).dec.cnt = 0 := rfl
@[simp] theorem decodeStart_dec_wp (s : State) : (decodeStart s).dec.wp = 0 := rfl
@[simp] theorem decodeStart_dec_hd (s : State) : (decodeStart s).dec.hd = s.dec.hd := rfl
@[simp] theorem decodeStart_dec_px (s : State) : (decodeStart s).dec.px = s.dec.px := rfl
@[simp] theorem decodeStart_dec_pos0 (s : State) : (decodeStart s).dec.pos0 = s.inS.pos := rfl

/-! ### `encodeStart` -/

@[simp] theorem encodeStart_arg0 (s : State) : (encodeStart s).arg0 = s.arg0 := rfl
@[simp] theorem encodeStart_arg1 (s : State) : (encodeStart s).arg1 = s.arg1 := rfl
@[simp] theorem encodeStart_arg2 (s : State) : (encodeStart s).arg2 = s.arg2 := rfl
@[simp] theorem encodeStart_pix (s : State) : (encodeStart s).pix = s.pix := rfl
@[simp] theorem encodeStart_pbW (s : State) : (encodeStart s).pbW = s.pbW := rfl
@[simp] theorem encodeStart_pbH (s : State) : (encodeStart s).pbH = s.pbH := rfl
@[simp] theorem encodeStart_pbBpp (s : State) : (encodeStart s).pbBpp = s.pbBpp := rfl
@[simp] theorem encodeStart_capr (s : State) : (encodeStart s).capr = s.capr := rfl
@[simp] theorem encodeStart_result (s : State) : (encodeStart s).result = s.result := rfl
@[simp] theorem encodeStart_sticky (s : State) : (encodeStart s).sticky = s.sticky := rfl
@[simp] theorem encodeStart_busy (s : State) : (encodeStart s).busy = s.busy := rfl
@[simp] theorem encodeStart_pm (s : State) : (encodeStart s).pm = s.pm := rfl
@[simp] theorem encodeStart_sh (s : State) : (encodeStart s).sh = s.sh := rfl
@[simp] theorem encodeStart_bank (s : State) : (encodeStart s).bank = s.bank := rfl
@[simp] theorem encodeStart_dec (s : State) : (encodeStart s).dec = s.dec := rfl
@[simp] theorem encodeStart_enc (s : State) : (encodeStart s).enc = { s.enc with n := s.pixelCount, cur := 0 } := rfl
@[simp] theorem encodeStart_flip (s : State) : (encodeStart s).flip = s.flip := rfl
@[simp] theorem encodeStart_scl (s : State) : (encodeStart s).scl = s.scl := rfl
@[simp] theorem encodeStart_inS (s : State) : (encodeStart s).inS = s.inS := rfl
@[simp] theorem encodeStart_outS (s : State) : (encodeStart s).outS = s.outS := rfl
@[simp] theorem encodeStart_host (s : State) : (encodeStart s).host = s.host := rfl
@[simp] theorem encodeStart_reads (s : State) : (encodeStart s).reads = s.reads := rfl
@[simp] theorem encodeStart_draws (s : State) : (encodeStart s).draws = s.draws := rfl
@[simp] theorem encodeStart_width (s : State) : (encodeStart s).width = s.width := rfl
@[simp] theorem encodeStart_height (s : State) : (encodeStart s).height = s.height := rfl
@[simp] theorem encodeStart_bpp (s : State) : (encodeStart s).bpp = s.bpp := rfl
@[simp] theorem encodeStart_pixelCount (s : State) : (encodeStart s).pixelCount = s.pixelCount := rfl
@[simp] theorem encodeStart_dataSize (s : State) : (encodeStart s).dataSize = s.dataSize := rfl
@[simp] theorem encodeStart_lineSize (s : State) : (encodeStart s).lineSize = s.lineSize := rfl
@[simp] theorem encodeStart_isEmpty (s : State) : (encodeStart s).isEmpty = s.isEmpty := rfl

/-! ### `scaleStart` -/

@[simp] theorem scaleStart_arg0 (s : State) : (scaleStart s).arg0 = s.arg0 := rfl
@[simp] theorem scaleStart_arg1 (s : State) : (scaleStart s).arg1 = s.arg1 := rfl
@[simp] theorem scaleStart_arg2 (s : State) : (scaleStart s).arg2 = s.arg2 := rfl
@[simp] theorem scaleStart_pix (s : State) : (scaleStart s).pix = s.pix := rfl
@[simp] theorem scaleStart_pbW (s : State) : (scaleStart s).pbW = s.pbW := rfl
@[simp] theorem scaleStart_pbH (s : State) : (scaleStart s).pbH = s.pbH := rfl
@[simp] theorem scaleStart_pbBpp (s : State) : (scaleStart s).pbBpp = s.pbBpp := rfl
@[simp] theorem scaleStart_capr (s : State) : (scaleStart s).capr = s.capr := rfl
@[simp] theorem scaleStart_result (s : State) : (scaleStart s).result = s.result := rfl
@[simp] theorem scaleStart_sticky (s : State) : (scaleStart s).sticky = s.sticky := rfl
@[simp] theorem scaleStart_busy (s : State) : (scaleStart s).busy = s.busy := rfl
@[simp] theorem scaleStart_pm (s : State) : (scaleStart s).pm = s.pm := rfl
@[simp] theorem scaleStart_sh (s : State) : (scaleStart s).sh = s.sh := rfl
@[simp] theorem scaleStart_bank (s : State) : (scaleStart s).bank = s.bank := rfl
@[simp] theorem scaleStart_dec (s : State) : (scaleStart s).dec = s.dec := rfl
@[simp] theorem scaleStart_enc (s : State) : (scaleStart s).enc = s.enc := rfl
@[simp] theorem scaleStart_flip (s : State) : (scaleStart s).flip = s.flip := rfl
@[simp] theorem scaleStart_scl (s : State) : (scaleStart s).scl = { s.scl with oscan := 0, nscan := 0, verr := 0 } := rfl
@[simp] theorem scaleStart_inS (s : State) : (scaleStart s).inS = s.inS := rfl
@[simp] theorem scaleStart_outS (s : State) : (scaleStart s).outS = s.outS := rfl
@[simp] theorem scaleStart_host (s : State) : (scaleStart s).host = s.host := rfl
@[simp] theorem scaleStart_reads (s : State) : (scaleStart s).reads = s.reads := rfl
@[simp] theorem scaleStart_draws (s : State) : (scaleStart s).draws = s.draws := rfl
@[simp] theorem scaleStart_width (s : State) : (scaleStart s).width = s.width := rfl
@[simp] theorem scaleStart_height (s : State) : (scaleStart s).height = s.height := rfl
@[simp] theorem scaleStart_bpp (s : State) : (scaleStart s).bpp = s.bpp := rfl
@[simp] theorem scaleStart_pixelCount (s : State) : (scaleStart s).pixelCount = s.pixelCount := rfl
@[simp] theorem scaleStart_dataSize (s : State) : (scaleStart s).dataSize = s.dataSize := rfl
@[simp] theorem scaleStart_lineSize (s : State) : (scaleStart s).lineSize = s.lineSize := rfl
@[simp] theorem scaleStart_isEmpty (s : State) : (scaleStart s).isEmpty = s.isEmpty := rfl

/-! ### `finishDecode` -/

@[simp] theorem finishDecode_arg0 (s : State) : (finishDecode s).arg0 = s.arg0 := by simp [finishDecode]
@[simp] theorem finishDecode_arg1 (s : State) : (finishDecode s).arg1 = s.arg1 := by simp [finishDecode]
@[simp] theorem finishDecode_arg2 (s : State) : (finishDecode s).arg2 = s.arg2 := by simp [finishDecode]
@[simp] theorem finishDecode_pix (s : State) : (finishDecode s).pix = s.pix := by simp [finishDecode]
@[simp] theorem finishDecode_pbW (s : State) : (finishDecode s).pbW = s.pbW := by simp [finishDecode]
@[simp] theorem finishDecode_pbH (s : State) : (finishDecode s).pbH = s.pbH := by simp [finishDecode]
@[simp] theorem finishDecode_pbBpp (s : State) : (finishDecode s).pbBpp = s.pbBpp := by simp [finishDecode]
@[simp] theorem finishDecode_capr (s : State) : (finishDecode s).capr = s.capr := by simp [finishDecode]
@[simp] theorem finishDecode_result (s : State) : (finishDecode s).result = .ok := by simp [finishDecode]
@[simp] theorem finishDecode_sticky (s : State) : (finishDecode s).sticky = s.sticky := by simp [finishDecode]
@[simp] theorem finishDecode_busy (s : State) : (finishDecode s).busy = false := by simp [finishDecode]
@[simp] theorem finishDecode_pm (s : State) : (finishDecode s).pm = s.pm := by simp [finishDecode]
@[simp] theorem finishDecode_sh (s : State) : (finishDecode s).sh = s.sh := by simp [finishDecode]
@[simp] theorem finishDecode_bank (s : State) : (finishDecode s).bank = s.bank := by simp [finishDecode]
@[simp] theorem finishDecode_inS (s : State) : (finishDecode s).inS = s.inS := by simp [finishDecode]
@[simp] theorem finishDecode_outS (s : State) : (finishDecode s).outS = s.outS := by simp [finishDecode]
@[simp] theorem finishDecode_host (s : State) : (finishDecode s).host = s.host := by simp [finishDecode]
@[simp] theorem finishDecode_reads (s : State) : (finishDecode s).reads = s.reads := by simp [finishDecode]
@[simp] theorem finishDecode_width (s : State) : (finishDecode s).width = s.width := by simp [finishDecode]
@[simp] theorem finishDecode_height (s : State) : (finishDecode s).height = s.height := by simp [finishDecode]
@[simp] theorem finishDecode_bpp (s : State) : (finishDecode s).bpp = s.bpp := by simp [finishDecode]
@[simp] theorem finishDecode_pixelCount (s : State) : (finishDecode s).pixelCount = s.pixelCount := by simp [finishDecode]
@[simp] theorem finishDecode_dataSize (s : State) : (finishDecode s).dataSize = s.dataSize := by simp [finishDecode]
@[simp] theorem finishDecode_lineSize (s : State) : (finishDecode s).lineSize = s.lineSize := by simp [finishDecode]
@[simp] theorem finishDecode_isEmpty (s : State) : (finishDecode s).isEmpty = s.isEmpty := by simp [finishDecode]

/-! ### `abortDecode` -/

@[simp] theorem abortDecode_arg0 (e : Result) (s : State) : (abortDecode e s).arg0 = s.arg0 := by simp [abortDecode]
@[simp] theorem abortDecode_arg1 (e : Result) (s : State) : (abortDecode e s).arg1 = s.arg1 := by simp [abortDecode]
@[simp] theorem abortDecode_arg2 (e : Result) (s : State) : (abortDecode e s).arg2 = s.arg2 := by simp [abortDecode]
@[simp] theorem abortDecode_pix (e : Result) (s : State) : (abortDecode e s).pix = s.pix := by simp [abortDecode]
@[simp] theorem abortDecode_pbW (e : Result) (s : State) : (abortDecode e s).pbW = s.pbW := by simp [abortDecode]
@[simp] theorem abortDecode_pbH (e : Result) (s : State) : (abortDecode e s).pbH = s.pbH := by simp [abortDecode]
@[simp] theorem abortDecode_pbBpp (e : Result) (s : State) : (abortDecode e s).pbBpp = s.pbBpp := by simp [abortDecode]
@[simp] theorem abortDecode_capr (e : Result) (s : State) : (abortDecode e s).capr = s.capr := by simp [abortDecode]
@[simp] theorem abortDecode_result (e : Result) (s : State) : (abortDecode e s).result = e := by simp [abortDecode]
@[simp] theorem abortDecode_sticky (e : Result) (s : State) : (abortDecode e s).sticky = true := by simp [abortDecode]
@[simp] theorem abortDecode_busy (e : Result) (s : State) : (abortDecode e s).busy = false := by simp [abortDecode]
@[simp] theorem abortDecode_pm (e : Result) (s : State) : (abortDecode e s).pm = s.pm.putAll 0 (freeData s.draws s.dataSize) := by simp [abortDecode]
@[simp] theorem abortDecode_sh (e : Result) (s : State) : (abortDecode e s).sh = s.sh := by simp [abortDecode]
@[simp] theorem abortDecode_bank (e : Result) (s : State) : (abortDecode e s).bank = s.bank := by simp [abortDecode]
@[simp] theorem abortDecode_outS (e : Result) (s : State) : (abortDecode e s).outS = s.outS := by simp [abortDecode]
@[simp] theorem abortDecode_host (e : Result) (s : State) : (abortDecode e s).host = s.host := by simp [abortDecode]
@[simp] theorem abortDecode_reads (e : Result) (s : State) : (abortDecode e s).reads = s.reads := by simp [abortDecode]
@[simp] theorem abortDecode_width (e : Result) (s : State) : (abortDecode e s).width = s.width := by simp [abortDecode]
@[simp] theorem abortDecode_height (e : Result) (s : State) : (abortDecode e s).height = s.height := by simp [abortDecode]
@[simp] theorem abortDecode_bpp (e : Result) (s : State) : (abortDecode e s).bpp = s.bpp := by simp [abortDecode]
@[simp] theorem abortDecode_pixelCount (e : Result) (s : State) : (abortDecode e s).pixelCount = s.pixelCount := by simp [abortDecode]
@[simp] theorem abortDecode_dataSize (e : Result) (s : State) : (abortDecode e s).dataSize = s.dataSize := by simp [abortDecode]
@[simp] theorem abortDecode_lineSize (e : Result) (s : State) : (abortDecode e s).lineSize = s.lineSize := by simp [abortDecode]
@[simp] theorem abortDecode_isEmpty (e : Result) (s : State) : (abortDecode e s).isEmpty = s.isEmpty := by simp [abortDecode]
theorem abortDecode_inS (e : Result) (s : State) : (abortDecode e s).inS = (drawPos (drawData s)).inS := by simp [abortDecode]

/-! ### `State.onlyStatus` -/

@[simp] theorem State.onlyStatus_arg0 (s : State) (e : Result) : (s.onlyStatus e).arg0 = s.arg0 := rfl
@[simp] theorem State.onlyStatus_arg1 (s : State) (e : Result) : (s.onlyStatus e).arg1 = s.arg1 := rfl
@[simp] theorem State.onlyStatus_arg2 (s : State) (e : Result) : (s.onlyStatus e).arg2 = s.arg2 := rfl
@[simp] theorem State.onlyStatus_pix (s : State) (e : Result) : (s.onlyStatus e).pix = s.pix := rfl
@[simp] theorem State.onlyStatus_pbW (s : State) (e : Result) : (s.onlyStatus e).pbW = s.pbW := rfl
@[simp] theorem State.onlyStatus_pbH (s : State) (e : Result) : (s.onlyStatus e).pbH = s.pbH := rfl
@[simp] theorem State.onlyStatus_pbBpp (s : State) (e : Result) : (s.onlyStatus e).pbBpp = s.pbBpp := rfl
@[simp] theorem State.onlyStatus_capr (s : State) (e : Result) : (s.onlyStatus e).capr = s.capr := rfl
@[simp] theorem State.onlyStatus_result (s : State) (e : Result) : (s.onlyStatus e).result = e := rfl
@[simp] theorem State.onlyStatus_sticky (s : State) (e : Result) : (s.onlyStatus e).sticky = true := rfl
@[simp] theorem State.onlyStatus_busy (s : State) (e : Result) : (s.onlyStatus e).busy = false := rfl
@[simp] theorem State.onlyStatus_pm (s : State) (e : Result) : (s.onlyStatus e).pm = s.pm := rfl
@[simp] theorem State.onlyStatus_sh (s : State) (e : Result) : (s.onlyStatus e).sh = s.sh := rfl
@[simp] theorem State.onlyStatus_bank (s : State) (e : Result) : (s.onlyStatus e).bank = s.bank := rfl
@[simp] theorem State.onlyStatus_dec (s : State) (e : Result) : (s.onlyStatus e).dec = s.dec := rfl
@[simp] theorem State.onlyStatus_enc (s : State) (e : Result) : (s.onlyStatus e).enc = s.enc := rfl
@[simp] theorem State.onlyStatus_flip (s : State) (e : Result) : (s.onlyStatus e).flip = s.flip := rfl
@[simp] theorem State.onlyStatus_scl (s : State) (e : Result) : (s.onlyStatus e).scl = s.scl := rfl
@[simp] theorem State.onlyStatus_inS (s : State) (e : Result) : (s.onlyStatus e).inS = s.inS := rfl
@[simp] theorem State.onlyStatus_outS (s : State) (e : Result) : (s.onlyStatus e).outS = s.outS := rfl
@[simp] theorem State.onlyStatus_host (s : State) (e : Result) : (s.onlyStatus e).host = s.host := rfl
@[simp] theorem State.onlyStatus_reads (s : State) (e : Result) : (s.onlyStatus e).reads = s.reads := rfl
@[simp] theorem State.onlyStatus_draws (s : State) (e : Result) : (s.onlyStatus e).draws = s.draws := rfl
@[simp] theorem State.onlyStatus_width (s : State) (e : Result) : (s.onlyStatus e).width = s.width := rfl
@[simp] theorem State.onlyStatus_height (s : State) (e : Result) : (s.onlyStatus e).height = s.height := rfl
@[simp] theorem State.onlyStatus_bpp (s : State) (e : Result) : (s.onlyStatus e).bpp = s.bpp := rfl
@[simp] theorem State.onlyStatus_pixelCount (s : State) (e : Result) : (s.onlyStatus e).pixelCount = s.pixelCount := rfl
@[simp] theorem State.onlyStatus_dataSize (s : State) (e : Result) : (s.onlyStatus e).dataSize = s.dataSize := rfl
@[simp] theorem State.onlyStatus_lineSize (s : State) (e : Result) : (s.onlyStatus e).lineSize = s.lineSize := rfl
@[simp] theorem State.onlyStatus_isEmpty (s : State) (e : Result) : (s.onlyStatus e).isEmpty = s.isEmpty := rfl

/-! ### `resetBlock` -/

@[simp] theorem resetBlock_arg0 (s : State) : (resetBlock s).arg0 = 0 := rfl
@[simp] theorem resetBlock_arg1 (s : State) : (resetBlock s).arg1 = 0 := rfl
@[simp] theorem resetBlock_arg2 (s : State) : (resetBlock s).arg2 = 0 := rfl
@[simp] theorem resetBlock_pix (s : State) : (resetBlock s).pix = 0 := rfl
@[simp] theorem resetBlock_pbW (s : State) : (resetBlock s).pbW = 0 := rfl
@[simp] theorem resetBlock_pbH (s : State) : (resetBlock s).pbH = 0 := rfl
@[simp] theorem resetBlock_pbBpp (s : State) : (resetBlock s).pbBpp = 0 := rfl
@[simp] theorem resetBlock_capr (s : State) : (resetBlock s).capr = s.capr := rfl
@[simp] theorem resetBlock_result (s : State) : (resetBlock s).result = .ok := rfl
@[simp] theorem resetBlock_sticky (s : State) : (resetBlock s).sticky = false := rfl
@[simp] theorem resetBlock_busy (s : State) : (resetBlock s).busy = false := rfl
@[simp] theorem resetBlock_pm (s : State) : (resetBlock s).pm = [] := rfl
@[simp] theorem resetBlock_sh (s : State) : (resetBlock s).sh = [] := rfl
@[simp] theorem resetBlock_bank (s : State) : (resetBlock s).bank = Config.freeBool s.draws := rfl
@[simp] theorem resetBlock_inS (s : State) : (resetBlock s).inS = s.inS := rfl
@[simp] theorem resetBlock_outS (s : State) : (resetBlock s).outS = s.outS := rfl
@[simp] theorem resetBlock_host (s : State) : (resetBlock s).host = s.host := rfl
@[simp] theorem resetBlock_reads (s : State) : (resetBlock s).reads = s.reads := rfl

/-! ### `exchangeBanks` -/

@[simp] theorem exchangeBanks_arg0 (s : State) : (exchangeBanks s).arg0 = s.arg0 := rfl
@[simp] theorem exchangeBanks_arg1 (s : State) : (exchangeBanks s).arg1 = s.arg1 := rfl
@[simp] theorem exchangeBanks_arg2 (s : State) : (exchangeBanks s).arg2 = s.arg2 := rfl
@[simp] theorem exchangeBanks_pix (s : State) : (exchangeBanks s).pix = s.pix := rfl
@[simp] theorem exchangeBanks_pbW (s : State) : (exchangeBanks s).pbW = s.arg0 := rfl
@[simp] theorem exchangeBanks_pbH (s : State) : (exchangeBanks s).pbH = s.arg1 := rfl
@[simp] theorem exchangeBanks_pbBpp (s : State) : (exchangeBanks s).pbBpp = s.pbBpp := rfl
@[simp] theorem exchangeBanks_capr (s : State) : (exchangeBanks s).capr = s.capr := rfl
@[simp] theorem exchangeBanks_result (s : State) : (exchangeBanks s).result = s.result := rfl
@[simp] theorem exchangeBanks_sticky (s : State) : (exchangeBanks s).sticky = s.sticky := rfl
@[simp] theorem exchangeBanks_busy (s : State) : (exchangeBanks s).busy = s.busy := rfl
@[simp] theorem exchangeBanks_pm (s : State) : (exchangeBanks s).pm = s.sh := rfl
@[simp] theorem exchangeBanks_sh (s : State) : (exchangeBanks s).sh = [] := rfl
@[simp] theorem exchangeBanks_bank (s : State) : (exchangeBanks s).bank = (!s.bank) := rfl
@[simp] theorem exchangeBanks_dec (s : State) : (exchangeBanks s).dec = s.dec := rfl
@[simp] theorem exchangeBanks_enc (s : State) : (exchangeBanks s).enc = s.enc := rfl
@[simp] theorem exchangeBanks_flip (s : State) : (exchangeBanks s).flip = s.flip := rfl
@[simp] theorem exchangeBanks_scl (s : State) : (exchangeBanks s).scl = s.scl := rfl
@[simp] theorem exchangeBanks_inS (s : State) : (exchangeBanks s).inS = s.inS := rfl
@[simp] theorem exchangeBanks_outS (s : State) : (exchangeBanks s).outS = s.outS := rfl
@[simp] theorem exchangeBanks_host (s : State) : (exchangeBanks s).host = s.host := rfl
@[simp] theorem exchangeBanks_reads (s : State) : (exchangeBanks s).reads = s.reads := rfl
@[simp] theorem exchangeBanks_draws (s : State) : (exchangeBanks s).draws = s.draws := rfl
@[simp] theorem exchangeBanks_bpp (s : State) : (exchangeBanks s).bpp = s.bpp := rfl

end Sys2Proof.Machine
end

