-- ==== Sys2Proof/Laws/Ops.lean ====
section
/-! SUPPORT. What each shared operation can do, said once, and the rules of the loops. -/

namespace Sys2Proof.Machine

/-! ### How a piece of pseudocode ends, as a predicate -/

/-- `r` ends well with `Q`, or raises with `R`, or stops, which `F` allows or not: `F := False` is total correctness,
`F := True` partial. -/
def Eng.Sat {α : Type} (F : Prop) (Q : α → Prop) (R : Result → State → Prop) : Eng α → Prop
  | .ok a => Q a
  | .error (.raised e s) => R e s
  | .error (.fault _) => F

section Sat
variable {α β : Type} {F : Prop} {Q Q' : α → Prop} {R R' : Result → State → Prop}

@[simp] theorem Eng.sat_ok (a : α) : Eng.Sat F Q R (.ok a) ↔ Q a := Iff.rfl
@[simp] theorem Eng.sat_pure (a : α) : Eng.Sat F Q R (pure a) ↔ Q a := Iff.rfl
@[simp] theorem Eng.sat_raising (e : Result) (s : State) : Eng.Sat F Q R (raising e s) ↔ R e s := Iff.rfl
@[simp] theorem Eng.sat_fault (f : Fault) : Eng.Sat F Q R (.error (.fault f)) ↔ F := Iff.rfl

theorem Eng.Sat.mono {r : Eng α} (h : Eng.Sat F Q R r) (hq : ∀ a, Q a → Q' a) (hr : ∀ e s, R e s → R' e s) :
    Eng.Sat F Q' R' r := by
  rcases r with (⟨e, s⟩ | f) | a
  · exact hr e s h
  · exact h
  · exact hq a h

theorem Eng.Sat.bind {r : Eng α} {f : α → Eng β} {Q : β → Prop} {P : α → Prop} (h : Eng.Sat F P R r)
    (hf : ∀ a, P a → Eng.Sat F Q R (f a)) : Eng.Sat F Q R (r >>= f) := by
  rcases r with (⟨e, s⟩ | f) | a
  · exact h
  · exact h
  · exact hf a h

/-- A piece that ends well under `Sat` with no other end possible. -/
theorem Eng.Sat.exists_ok {r : Eng α} (h : Eng.Sat False Q (fun _ _ => False) r) : ∃ a, r = .ok a ∧ Q a := by
  rcases r with (⟨e, s⟩ | f) | a
  · exact h.elim
  · exact h.elim
  · exact ⟨a, rfl, h⟩

theorem Eng.sat_of_eq {r : Eng α} {a : α} (h : r = .ok a) (hq : Q a) : Eng.Sat F Q R r := by rw [h]; exact hq

end Sat

theorem Eng.bind_eq_ok {α β : Type} {r : Eng α} {f : α → Eng β} {b : β} (h : r >>= f = .ok b) :
    ∃ a, r = .ok a ∧ f a = .ok b := by
  rcases r with e | a
  · cases h
  · exact ⟨a, rfl, h⟩

@[simp] theorem Eng.ok_bind {α β : Type} (a : α) (f : α → Eng β) : ((Except.ok a : Eng α) >>= f) = f a := rfl

/-! ### The loops -/

/-- The rule of `for`: an invariant indexed by the counter. -/
theorem forLoop_sat {F : Prop} {R : Result → State → Prop} {body : Nat → State → Eng State} (P : Nat → State → Prop)
    {n i : Nat} {s : State}
    (hstep : ∀ k s, i ≤ k → k < i + n → P k s → Eng.Sat F (P (k + 1)) R (body k s)) (h : P i s) :
    Eng.Sat F (P (i + n)) R (forLoop body i n s) := by
  induction n generalizing i s with
  | zero => exact h
  | succ n ih =>
    simp only [forLoop]
    refine (hstep i s (Nat.le_refl _) (by omega) h).bind fun t ht => ?_
    have := ih (i := i + 1) (s := t) (fun k s h1 h2 hp => hstep k s (by omega) (by omega) hp) ht
    rwa [show i + 1 + n = i + (n + 1) by omega] at this

/-- The rule of `while` for total correctness: an invariant and a measure below the bound that every pass lowers. -/
theorem whileLoop_sat {F : Prop} {R : Result → State → Prop} {cond : State → Bool} {body : State → Eng State}
    (P : State → Prop) (μ : State → Nat) {n : Nat} {s : State}
    (hstep : ∀ s, P s → cond s = true → Eng.Sat F (fun t => P t ∧ μ t < μ s) R (body s)) (h : P s) (hμ : μ s ≤ n)
    (hpos : ∀ s, P s → cond s = true → 0 < μ s) :
    Eng.Sat F (fun t => P t ∧ cond t = false) R (whileLoop cond body n s) := by
  induction n generalizing s with
  | zero =>
    simp only [whileLoop]
    cases hc : cond s with
    | true => have := hpos s h hc; omega
    | false => exact ⟨h, hc⟩
  | succ n ih =>
    simp only [whileLoop]
    cases hc : cond s with
    | true =>
      rw [if_pos rfl]
      exact (hstep s h hc).bind fun t ht => ih ht.1 (by omega)
    | false => rw [if_neg (by simp)]; exact ⟨h, hc⟩

/-- The rule of `while` for partial correctness: an invariant. -/
theorem whileLoop_sat_partial {R : Result → State → Prop} {cond : State → Bool} {body : State → Eng State}
    (P : State → Prop) {n : Nat} {s : State}
    (hstep : ∀ s, P s → cond s = true → Eng.Sat True P R (body s)) (h : P s) :
    Eng.Sat True (fun t => P t ∧ cond t = false) R (whileLoop cond body n s) := by
  induction n generalizing s with
  | zero =>
    simp only [whileLoop]
    cases hc : cond s with
    | true => rw [if_pos rfl]; trivial
    | false => rw [if_neg (by simp)]; exact ⟨h, hc⟩
  | succ n ih =>
    simp only [whileLoop]
    cases hc : cond s with
    | true => rw [if_pos rfl]; exact (hstep s h hc).bind fun t ht => ih ht
    | false => rw [if_neg (by simp)]; exact ⟨h, hc⟩

/-- A `while` whose condition does not hold. -/
theorem whileLoop_done {cond : State → Bool} {body : State → Eng State} {n : Nat} {s : State} (h : cond s = false) :
    whileLoop cond body n s = .ok s := by
  cases n <;> simp [whileLoop, h]

/-! ### The banks -/

theorem bankRead_eq {cap : Nat} {m : Memory} {a n : Nat} {bs : List Byte} (h : a + n ≤ cap)
    (hb : m.bytes a n = some bs) : bankRead cap m a n = .ok bs := by
  simp [bankRead, h, hb]

theorem bankWrite_eq {cap : Nat} {m : Memory} {a : Nat} {bs : List Byte} (h : a + bs.length ≤ cap) :
    bankWrite cap m a bs = .ok (m.putAll a bs) := by simp [bankWrite, h]

/-- `MemRead` of a region inside the bank whose bytes have values. -/
theorem memRead_eq {s : State} {a n : Nat} {bs : List Byte} (h : a + n ≤ s.capr) (hb : s.pm.bytes a n = some bs) :
    memRead s a n = .ok bs := bankRead_eq h hb

/-- `MemWrite` inside the bank. -/
theorem memWrite_eq {s : State} {a : Nat} {bs : List Byte} (h : a + bs.length ≤ s.capr) :
    memWrite s a bs = .ok { s with pm := s.pm.putAll a bs } := by simp only [memWrite, bankWrite_eq h]; rfl

/-- `ShRead` of a region inside the bank whose bytes have values. -/
theorem shRead_eq {s : State} {a n : Nat} {bs : List Byte} (h : a + n ≤ s.capr) (hb : s.sh.bytes a n = some bs) :
    shRead s a n = .ok bs := bankRead_eq h hb

/-- `ShWrite` inside the bank. -/
theorem shWrite_eq {s : State} {a : Nat} {bs : List Byte} (h : a + bs.length ≤ s.capr) :
    shWrite s a bs = .ok { s with sh := s.sh.putAll a bs } := by simp only [shWrite, bankWrite_eq h]; rfl

/-- All that `MemRead` can do: give the bytes of the region, or stop. -/
theorem memRead_sat {R : Result → State → Prop} (s : State) (a n : Nat) :
    Eng.Sat True (fun bs => a + n ≤ s.capr ∧ s.pm.bytes a n = some bs) R (memRead s a n) := by
  simp only [memRead, bankRead]
  split
  · split
    · exact ⟨‹_›, ‹_›⟩
    · trivial
  · trivial

/-- All that `MemWrite` can do: write the region and nothing else, or stop. -/
theorem memWrite_sat {R : Result → State → Prop} (s : State) (a : Nat) (bs : List Byte) :
    Eng.Sat True (fun t => a + bs.length ≤ s.capr ∧ t = { s with pm := s.pm.putAll a bs }) R (memWrite s a bs) := by
  by_cases h : a + bs.length ≤ s.capr
  · rw [memWrite_eq h]; exact ⟨h, rfl⟩
  · simp only [memWrite, bankWrite, if_neg h]; trivial

/-- All that `ShRead` can do. -/
theorem shRead_sat {R : Result → State → Prop} (s : State) (a n : Nat) :
    Eng.Sat True (fun bs => a + n ≤ s.capr ∧ s.sh.bytes a n = some bs) R (shRead s a n) := by
  simp only [shRead, bankRead]
  split
  · split
    · exact ⟨‹_›, ‹_›⟩
    · trivial
  · trivial

/-- All that `ShWrite` can do. -/
theorem shWrite_sat {R : Result → State → Prop} (s : State) (a : Nat) (bs : List Byte) :
    Eng.Sat True (fun t => a + bs.length ≤ s.capr ∧ t = { s with sh := s.sh.putAll a bs }) R (shWrite s a bs) := by
  by_cases h : a + bs.length ≤ s.capr
  · rw [shWrite_eq h]; exact ⟨h, rfl⟩
  · simp only [shWrite, bankWrite, if_neg h]; trivial

/-! ### The streams -/

/-- `IN` with its cursor moved on by `k`. -/
def State.taken (s : State) (k : Nat) : State := { s with inS := { s.inS with pos := s.inS.pos + k } }

@[simp] theorem State.taken_zero (s : State) : s.taken 0 = s := rfl

theorem State.taken_taken (s : State) (j k : Nat) : (s.taken j).taken k = s.taken (j + k) := by
  simp [State.taken, Nat.add_assoc]

/-- The next byte to come, from the stream's data. -/
theorem State.incoming_head (s : State) :
    s.incoming.head? = if s.inS.failAt = some s.inS.pos then none else s.inS.data[s.inS.pos]? := by
  rcases hi : s.inS with ⟨data, pos, failAt⟩
  simp only [State.incoming, hi]
  cases failAt with
  | none => simp [List.head?_drop]
  | some f =>
    rcases Nat.lt_trichotomy f pos with hf | hf | hf
    · simp only [Option.some.injEq]; rw [if_neg (by omega), if_neg (by omega), List.head?_drop]
    · subst hf; simp
    · simp only [Option.some.injEq]
      rw [if_pos (by omega), if_neg (by omega), List.head?_take, if_neg (by omega), List.head?_drop]

/-- All that `InGet` can do: give the next byte to come and move the cursor past it, or give none when there is
none. -/
theorem inGet_eq (s : State) : inGet s = s.incoming.head?.map fun b => (b, s.taken 1) := by
  rw [State.incoming_head, inGet]
  split
  · rfl
  · cases s.inS.data[s.inS.pos]? <;> rfl

/-- What is still to come after `k` bytes were taken. -/
theorem State.incoming_taken {s : State} {k : Nat} (h : k ≤ s.incoming.length) :
    (s.taken k).incoming = s.incoming.drop k := by
  rcases hi : s.inS with ⟨data, pos, failAt⟩
  simp only [State.incoming, State.taken, hi] at h ⊢
  cases failAt with
  | none => simp [List.drop_drop]
  | some f =>
    simp only at h ⊢
    by_cases hf : pos ≤ f
    · simp only [if_pos hf] at h ⊢
      simp only [List.length_take, List.length_drop] at h
      rw [if_pos (by omega), List.drop_take, List.drop_drop, show f - (pos + k) = f - pos - k by omega]
    · simp only [if_neg hf] at h ⊢
      rw [if_neg (by omega), List.drop_drop]

theorem needByte_nil {s : State} (h : s.incoming = []) : needByte s = raising .truncatedStream s := by
  simp [needByte, inGet_eq, h]

theorem needByte_cons {s : State} {b : Byte} {bs : List Byte} (h : s.incoming = b :: bs) :
    needByte s = .ok (b, s.taken 1) := by
  simp [needByte, inGet_eq, h]

/-- All that the reading of `k` payload bytes can do: take them all, or raise `TruncatedStream` where they end. -/
theorem needBytes_eq (k : Nat) (s : State) :
    needBytes k s =
      if k ≤ s.incoming.length then .ok (s.incoming.take k, s.taken k)
      else raising .truncatedStream (s.taken s.incoming.length) := by
  induction k generalizing s with
  | zero => simp [needBytes]
  | succ k ih =>
    simp only [needBytes]
    cases hs : s.incoming with
    | nil => rw [needByte_nil hs]; rfl
    | cons b bs =>
      have h1 : (s.taken 1).incoming = bs := by
        rw [State.incoming_taken (by simp [hs])]; simp [hs]
      rw [needByte_cons hs]
      simp only [Eng.ok_bind, ih, h1, List.length_cons, Nat.add_le_add_iff_right, State.taken_taken]
      split
      · simp only [Eng.ok_bind, List.take_succ_cons, Nat.add_comm 1 k]; rfl
      · rw [Nat.add_comm 1 bs.length]; rfl

end Sys2Proof.Machine
end

