-- ==== Sys2Proof/Laws/Decoder.lean ====
section
/-! SUPPORT. The decoder: what `ReadPixel`, `Append` and the two chunk types do to a DECODE in progress. -/

namespace Sys2Proof.Machine

/-- `u` can be reached from `s` by the decoder's own work: only the active bank, the decoder's values and the cursor
differ, the bank only inside the valid region and below `CAP`, the cursor only forward inside the stream. -/
structure DecRel (s u : State) : Prop where
  frame : u = { s with pm := u.pm, dec := u.dec, inS := { s.inS with pos := u.inS.pos } }
  target : u.dec.n = s.dec.n
  start : u.dec.pos0 = s.dec.pos0
  offset : u.dec.wp = u.dec.cnt * s.bpp
  count_le : s.dec.cnt ≤ s.dec.n → u.dec.cnt ≤ u.dec.n
  outside : s.sameOutside u 0 s.dataSize
  pos_ge : s.inS.pos ≤ u.inS.pos
  pos_le : u.inS.pos ≤ max s.inS.pos s.inS.data.length
  wf : s.pm.wf → u.pm.wf
  below : s.dataSize ≤ s.capr → s.pm.below s.capr → u.pm.below s.capr
  held : s.holds s.dec.wp → u.holds u.dec.wp

namespace DecRel
variable {s u : State}

theorem refl (h : s.dec.wp = s.dec.cnt * s.bpp) : DecRel s s where
  frame := rfl
  target := rfl
  start := rfl
  offset := h
  count_le := id
  outside := fun _ _ => rfl
  pos_ge := Nat.le_refl _
  pos_le := Nat.le_max_left _ _
  wf := id
  below := fun _ => id
  held := id

theorem bpp_eq (h : DecRel s u) : u.bpp = s.bpp := by rw [h.frame]; rfl
theorem width_eq (h : DecRel s u) : u.width = s.width := by rw [h.frame]; rfl
theorem height_eq (h : DecRel s u) : u.height = s.height := by rw [h.frame]; rfl
theorem dataSize_eq (h : DecRel s u) : u.dataSize = s.dataSize := by rw [h.frame]; rfl
theorem capr_eq (h : DecRel s u) : u.capr = s.capr := by rw [h.frame]
theorem data_eq (h : DecRel s u) : u.inS.data = s.inS.data := by rw [h.frame]
theorem failAt_eq (h : DecRel s u) : u.inS.failAt = s.inS.failAt := by rw [h.frame]

end DecRel

theorem State.incoming_length_le (s : State) : s.incoming.length ≤ s.inS.data.length - s.inS.pos := by
  rcases hi : s.inS with ⟨data, pos, failAt⟩
  simp only [State.incoming, hi]
  cases failAt with
  | none => simp
  | some f => simp only; split <;> simp

/-- Taking bytes that are there keeps the relation. -/
theorem DecRel.taken {s u : State} (h : DecRel s u) {k : Nat} (hk : k ≤ u.incoming.length) : DecRel s (u.taken k) where
  frame := congrArg (State.taken · k) h.frame
  target := h.target
  start := h.start
  offset := h.offset
  count_le := h.count_le
  outside := h.outside
  pos_ge := Nat.le_trans h.pos_ge (Nat.le_add_right _ _)
  pos_le := by
    have h1 := u.incoming_length_le
    have h2 := h.pos_le
    rw [h.data_eq] at h1
    show u.inS.pos + k ≤ _
    omega
  wf := h.wf
  below := h.below
  held := h.held

/-- A change of the header or of the pixel read keeps the relation. -/
theorem DecRel.withDec {s u : State} (h : DecRel s u) (d : Decoder) (hn : d.n = u.dec.n) (hc : d.cnt = u.dec.cnt)
    (hw : d.wp = u.dec.wp) (hp : d.pos0 = u.dec.pos0) : DecRel s { u with dec := d } where
  frame := congrArg (fun v : State => { v with dec := d }) h.frame
  target := hn.trans h.target
  start := hp.trans h.start
  offset := by show d.wp = d.cnt * s.bpp; rw [hw, hc]; exact h.offset
  count_le := fun hs => by show d.cnt ≤ d.n; rw [hc, hn]; exact h.count_le hs
  outside := h.outside
  pos_ge := h.pos_ge
  pos_le := h.pos_le
  wf := h.wf
  below := h.below
  held := fun hs => by
    show ∀ a, a < d.wp → _
    rw [hw]; exact h.held hs

/-- All that `ReadPixel` can do. -/
theorem readPixel_eq (s : State) :
    readPixel s =
      if s.bpp ≤ s.incoming.length then
        .ok { s.taken s.bpp with dec := { s.dec with px := s.incoming.take s.bpp } }
      else raising .truncatedStream (s.taken s.incoming.length) := by
  simp only [readPixel, needBytes_eq]
  split
  · rfl
  · rfl

/-- `Append` with room for a pixel. -/
theorem append_eq {s : State} (hc : s.dec.cnt < s.dec.n) (hw : s.dec.wp + s.dec.px.length ≤ s.capr) :
    append s = .ok { s with
      pm := s.pm.putAll s.dec.wp s.dec.px
      dec := { s.dec with wp := s.dec.wp + s.bpp, cnt := s.dec.cnt + 1 } } := by
  simp only [append]
  rw [if_neg (by omega), memWrite_eq hw]
  rfl

/-- `Append` with the buffer full. -/
theorem append_full {s : State} (hc : s.dec.n ≤ s.dec.cnt) : append s = raising .pixelCountOverflow s := by
  simp only [append]
  rw [if_pos (by omega)]

theorem mul_add_le_of_lt {a b c : Nat} (h : a < b) : a * c + c ≤ b * c := by
  rw [← Nat.succ_mul]; exact Nat.mul_le_mul_right c h

/-- An appended pixel lies inside the valid region. -/
theorem DecRel.append {s u : State} (h : DecRel s u) (hn : s.dec.n ≤ s.pixelCount) (hc : u.dec.cnt < u.dec.n)
    (hp : u.dec.px.length = s.bpp) :
    DecRel s { u with
      pm := u.pm.putAll u.dec.wp u.dec.px
      dec := { u.dec with wp := u.dec.wp + u.bpp, cnt := u.dec.cnt + 1 } } ∧
    u.dec.wp + u.dec.px.length ≤ s.dataSize := by
  have hfit : u.dec.wp + u.dec.px.length ≤ s.dataSize := by
    rw [h.offset, hp]
    refine Nat.le_trans (mul_add_le_of_lt (c := s.bpp) (a := u.dec.cnt) (b := s.pixelCount) ?_) (Nat.le_refl _)
    have := h.target; omega
  refine ⟨?_, hfit⟩
  have hb := h.bpp_eq
  exact {
    frame := congrArg (fun v : State => { v with
      pm := u.pm.putAll u.dec.wp u.dec.px
      dec := { u.dec with wp := u.dec.wp + u.bpp, cnt := u.dec.cnt + 1 } }) h.frame
    target := h.target
    start := h.start
    offset := by
      show u.dec.wp + u.bpp = (u.dec.cnt + 1) * s.bpp
      rw [Nat.succ_mul, hb, h.offset]
    count_le := fun _ => hc
    outside := fun k hk => by
      show (u.pm.putAll u.dec.wp u.dec.px).byte k = _
      rw [Memory.byte_putAll, if_neg (by omega)]
      exact h.outside k hk
    pos_ge := h.pos_ge
    pos_le := h.pos_le
    wf := fun hs => Memory.wf_putAll (h.wf hs) _ _
    below := fun hd hs => Memory.below_putAll (h.below hd hs) (Nat.le_trans hfit hd)
    held := fun hs a ha => by
      show ((u.pm.putAll u.dec.wp u.dec.px).byte a).isSome = true
      have ha : a < u.dec.wp + u.bpp := ha
      rw [Memory.byte_putAll]
      split
      · have : a - u.dec.wp < u.dec.px.length := by omega
        simp [this]
      · exact h.held hs a (by omega) }

/-! ### The chunk types and the loop, whatever the stream -/

/-- The errors a DECODE can raise once it has begun (R95, R96). -/
def streamError (e : Result) : Prop := e = .truncatedStream ∨ e = .pixelCountOverflow

section
variable {F : Prop} {s u : State}

theorem readPixel_sat (h : DecRel s u) :
    Eng.Sat F (fun v => DecRel s v ∧ v.dec.px.length = s.bpp ∧ v.dec.cnt = u.dec.cnt)
      (fun e v => streamError e ∧ DecRel s v) (readPixel u) := by
  rw [readPixel_eq]
  split
  · rename_i hk
    refine ⟨(h.taken hk).withDec _ rfl rfl rfl rfl, ?_, rfl⟩
    show (u.incoming.take u.bpp).length = s.bpp
    rw [List.length_take, ← h.bpp_eq]; omega
  · exact ⟨Or.inl rfl, h.taken (Nat.le_refl _)⟩

theorem append_sat (h : DecRel s u) (hn : s.dec.n ≤ s.pixelCount) (hF : s.dataSize ≤ s.capr ∨ F)
    (hp : u.dec.px.length = s.bpp) :
    Eng.Sat F (fun v => DecRel s v ∧ v.dec.px.length = s.bpp ∧ v.dec.cnt = u.dec.cnt + 1)
      (fun e v => streamError e ∧ DecRel s v) (append u) := by
  rcases Nat.lt_or_ge u.dec.cnt u.dec.n with hc | hc
  · obtain ⟨h1, h2⟩ := h.append hn hc hp
    by_cases hfit : u.dec.wp + u.dec.px.length ≤ u.capr
    · rw [append_eq hc hfit]
      exact ⟨h1, hp, rfl⟩
    · have hf : F := hF.resolve_left fun hd => hfit (by rw [h.capr_eq]; exact Nat.le_trans h2 hd)
      simp only [append]
      rw [if_neg (by omega)]
      simp only [memWrite, bankWrite, if_neg hfit]
      exact hf
  · rw [append_full hc]
    exact ⟨Or.inr rfl, h⟩

theorem rawBody_sat (h : DecRel s u) (hn : s.dec.n ≤ s.pixelCount) (hF : s.dataSize ≤ s.capr ∨ F) (n : Nat) :
    Eng.Sat F (fun v => DecRel s v ∧ v.dec.cnt = u.dec.cnt + n) (fun e v => streamError e ∧ DecRel s v)
      (rawBody n u) := by
  have := forLoop_sat (F := F) (R := fun e v => streamError e ∧ DecRel s v) (i := 0) (n := n) (s := u)
    (body := fun _ s => do append (← readPixel s))
    (fun k v => DecRel s v ∧ v.dec.cnt = u.dec.cnt + k)
    (fun k v _ _ hv => (readPixel_sat hv.1).bind fun w hw =>
      (append_sat hw.1 hn hF hw.2.1).mono (fun x hx => ⟨hx.1, by rw [hx.2.2, hw.2.2, hv.2]; omega⟩) fun _ _ => id)
    ⟨h, rfl⟩
  simpa [rawBody] using this

theorem runBody_sat (h : DecRel s u) (hn : s.dec.n ≤ s.pixelCount) (hF : s.dataSize ≤ s.capr ∨ F) (n : Nat) :
    Eng.Sat F (fun v => DecRel s v ∧ v.dec.cnt = u.dec.cnt + n) (fun e v => streamError e ∧ DecRel s v)
      (runBody n u) := by
  refine (readPixel_sat h).bind fun v hv => ?_
  have := forLoop_sat (F := F) (R := fun e v => streamError e ∧ DecRel s v) (i := 0) (n := n) (s := v)
    (body := fun _ s => append s)
    (fun k w => (DecRel s w ∧ w.dec.px.length = s.bpp) ∧ w.dec.cnt = u.dec.cnt + k)
    (fun k w _ _ hw => (append_sat hw.1.1 hn hF hw.1.2).mono
      (fun x hx => ⟨⟨hx.1, hx.2.1⟩, by rw [hx.2.2, hw.2]; omega⟩) fun _ _ => id)
    ⟨⟨hv.1, hv.2.1⟩, hv.2.2⟩
  exact this.mono (fun x hx => ⟨hx.1.1, by simpa using hx.2⟩) fun _ _ => id

theorem decodeChunk_sat (h : DecRel s u) (hn : s.dec.n ≤ s.pixelCount) (hF : s.dataSize ≤ s.capr ∨ F) :
    Eng.Sat F (fun v => DecRel s v ∧ u.dec.cnt < v.dec.cnt) (fun e v => streamError e ∧ DecRel s v)
      (decodeChunk u) := by
  unfold decodeChunk
  cases hi : u.incoming with
  | nil => rw [needByte_nil hi]; exact ⟨Or.inl rfl, h⟩
  | cons b bs =>
    rw [needByte_cons hi, Eng.ok_bind]
    have h1 : DecRel s (setHeader b (u.taken 1)) := (h.taken (by simp [hi])).withDec _ rfl rfl rfl rfl
    dsimp only
    split
    · exact (rawBody_sat h1 hn hF _).mono (fun v hv => ⟨hv.1, by rw [hv.2]; show u.dec.cnt < u.dec.cnt + _; omega⟩)
        fun _ _ => id
    · exact (runBody_sat h1 hn hF _).mono (fun v hv => ⟨hv.1, by rw [hv.2]; show u.dec.cnt < u.dec.cnt + _; omega⟩)
        fun _ _ => id

/-- The loop of a DECODE ends, with the buffer full or in a stream error (R98). -/
theorem decodeLoop_sat (h : DecRel s u) (hn : s.dec.n ≤ s.pixelCount) (hF : s.dataSize ≤ s.capr ∨ F) :
    Eng.Sat F (fun v => DecRel s v ∧ v.dec.n ≤ v.dec.cnt) (fun e v => streamError e ∧ DecRel s v) (decodeLoop u) := by
  refine (whileLoop_sat (DecRel s) (fun v => v.dec.n - v.dec.cnt) ?_ h (by omega) ?_).mono ?_ fun _ _ => id
  · intro v hv hc
    refine (decodeChunk_sat hv hn hF).mono (fun w hw => ⟨hw.1, ?_⟩) fun _ _ => id
    simp only [decide_eq_true_eq] at hc
    have h1 := hw.1.target
    have h2 := hv.target
    have := hw.2
    show w.dec.n - w.dec.cnt < v.dec.n - v.dec.cnt
    omega
  · intro v _ hc
    simp only [decide_eq_true_eq] at hc
    omega
  · intro v hv
    exact ⟨hv.1, by simpa using hv.2⟩

end

/-! ### The chunk types on a given stream -/

/-- A DECODE in progress whose valid region fits the bank: what the exact lemmas below ask of a state. -/
structure Filling (s : State) : Prop where
  offset : s.dec.wp = s.dec.cnt * s.bpp
  target : s.dec.n ≤ s.pixelCount
  fit : s.dataSize ≤ s.capr

/-- `s` after `k` bytes were taken and `m` pixels with the bytes `bs` appended. -/
def State.filled (s : State) (k m : Nat) (bs px : List Byte) : State :=
  { s.taken k with
    pm := s.pm.putAll s.dec.wp bs
    dec := { s.dec with px := px, wp := s.dec.wp + m * s.bpp, cnt := s.dec.cnt + m } }

section
variable {s : State}

/-- Two fillings one after the other are one. -/
theorem State.filled_filled {k m k' m' : Nat} {bs px bs' px' : List Byte} (h : bs.length = m * s.bpp) :
    (s.filled k m bs px).filled k' m' bs' px' = s.filled (k + k') (m + m') (bs ++ bs') px' := by
  have hb : (s.filled k m bs px).bpp = s.bpp := rfl
  rw [State.filled, hb]
  simp only [State.filled, State.taken, Memory.putAll_append, h, Nat.add_mul, Nat.add_assoc]

theorem Filling.room (h : Filling s) (hc : s.dec.cnt < s.dec.n) : s.dec.wp + s.bpp ≤ s.capr := by
  rw [h.offset]
  refine Nat.le_trans (mul_add_le_of_lt (Nat.lt_of_lt_of_le hc h.target)) h.fit

theorem Filling.filled (h : Filling s) (k m : Nat) (bs px : List Byte) : Filling (s.filled k m bs px) where
  offset := by
    show s.dec.wp + m * s.bpp = (s.dec.cnt + m) * s.bpp
    rw [Nat.add_mul, h.offset]
  target := h.target
  fit := h.fit

/-- One pixel read and appended. -/
theorem readAppend_eq (h : Filling s) (hc : s.dec.cnt < s.dec.n) (hb : s.bpp ≤ s.incoming.length) :
    (do append (← readPixel s) : Eng State) =
      .ok (s.filled s.bpp 1 (s.incoming.take s.bpp) (s.incoming.take s.bpp)) := by
  rw [readPixel_eq, if_pos hb, Eng.ok_bind, append_eq]
  · simp [State.filled, State.taken]; rfl
  · exact hc
  · show s.dec.wp + (s.incoming.take s.bpp).length ≤ s.capr
    rw [List.length_take, Nat.min_eq_left hb]; exact h.room hc

theorem State.filled_incoming {k m : Nat} {bs px : List Byte} (h : k ≤ s.incoming.length) :
    (s.filled k m bs px).incoming = s.incoming.drop k := State.incoming_taken h

/-- `ExecRAW` when its pixels are all present and all fit. -/
theorem rawLoop_ok (n i : Nat) (h : Filling s) (hc : s.dec.cnt + n ≤ s.dec.n) (hb : n * s.bpp ≤ s.incoming.length) :
    ∃ px, forLoop (fun _ s => do append (← readPixel s)) i n s =
      .ok (s.filled (n * s.bpp) n (s.incoming.take (n * s.bpp)) px) := by
  induction n generalizing s i with
  | zero => exact ⟨s.dec.px, by simp [forLoop, State.filled, Memory.putAll]⟩
  | succ n ih =>
    have hb' : s.bpp + n * s.bpp ≤ s.incoming.length := by rw [Nat.succ_mul] at hb; omega
    have h1 : s.bpp ≤ s.incoming.length := by omega
    have hi := s.filled_incoming (m := 1) (bs := s.incoming.take s.bpp) (px := s.incoming.take s.bpp) h1
    obtain ⟨px, hpx⟩ := ih (s := s.filled s.bpp 1 (s.incoming.take s.bpp) (s.incoming.take s.bpp)) (i := i + 1)
      (h.filled _ _ _ _) (by show s.dec.cnt + 1 + n ≤ s.dec.n; omega) (by
        rw [hi, List.length_drop]; show n * s.bpp ≤ _; omega)
    refine ⟨px, ?_⟩
    have ht : s.incoming.take ((n + 1) * s.bpp) =
        s.incoming.take s.bpp ++ (s.incoming.drop s.bpp).take (n * s.bpp) := by
      rw [Nat.succ_mul, Nat.add_comm, List.take_add]
    have hbpp : (s.filled s.bpp 1 (s.incoming.take s.bpp) (s.incoming.take s.bpp)).bpp = s.bpp := rfl
    simp only [forLoop]
    rw [readAppend_eq h (by omega) h1, Eng.ok_bind, hpx, hi, hbpp, State.filled_filled (by simp [h1]), ht,
      Nat.add_comm 1 n, Nat.succ_mul, Nat.add_comm s.bpp]

/-- `ExecRUN`'s repeats when they all fit. -/
theorem runLoop_ok (n i : Nat) (h : Filling s) (hc : s.dec.cnt + n ≤ s.dec.n) (hp : s.dec.px.length = s.bpp) :
    forLoop (fun _ s => append s) i n s = .ok (s.filled 0 n (List.replicate n s.dec.px).flatten s.dec.px) := by
  induction n generalizing s i with
  | zero => simp [forLoop, State.filled, Memory.putAll]
  | succ n ih =>
    have h1 : append s = .ok (s.filled 0 1 s.dec.px s.dec.px) := by
      rw [append_eq (by omega) (by rw [hp]; exact h.room (by omega))]
      simp [State.filled]
    simp only [forLoop]
    rw [h1, Eng.ok_bind, ih (i + 1) (h.filled _ _ _ _) (by show s.dec.cnt + 1 + n ≤ s.dec.n; omega) hp]
    rw [State.filled_filled (by simp [hp]), List.replicate_succ, List.flatten_cons, Nat.add_comm 1 n]
    rfl

/-- `ExecRAW` when a byte is missing among the pixels it wants. -/
theorem rawLoop_truncated (n i : Nat) (h : Filling s) (hc : s.dec.cnt ≤ s.dec.n)
    (hb : s.incoming.length < min n (s.dec.n - s.dec.cnt + 1) * s.bpp) :
    ∃ t, forLoop (fun _ s => do append (← readPixel s)) i n s = raising .truncatedStream t := by
  induction n generalizing s i with
  | zero => simp at hb
  | succ n ih =>
    simp only [forLoop]
    by_cases h1 : s.bpp ≤ s.incoming.length
    · have hlt : s.dec.cnt < s.dec.n := by
        rcases Nat.lt_or_ge s.dec.cnt s.dec.n with hlt | hge
        · exact hlt
        · rw [show s.dec.n - s.dec.cnt = 0 by omega, show min (n + 1) (0 + 1) = 1 by omega] at hb; omega
      rw [readAppend_eq h hlt h1, Eng.ok_bind]
      refine ih (i + 1) (h.filled _ _ _ _) hlt ?_
      rw [s.filled_incoming h1, List.length_drop]
      show _ < min n (s.dec.n - (s.dec.cnt + 1) + 1) * s.bpp
      rw [show min (n + 1) (s.dec.n - s.dec.cnt + 1) = min n (s.dec.n - (s.dec.cnt + 1) + 1) + 1 by omega,
        Nat.succ_mul] at hb
      omega
    · rw [readPixel_eq, if_neg h1]
      exact ⟨_, rfl⟩

/-- `ExecRAW` when it holds more pixels than are to fill and none that it wants is missing. -/
theorem rawLoop_overflow (n i : Nat) (h : Filling s) (hc : s.dec.cnt ≤ s.dec.n) (hn : s.dec.n - s.dec.cnt < n)
    (hb : (s.dec.n - s.dec.cnt + 1) * s.bpp ≤ s.incoming.length) :
    ∃ t, forLoop (fun _ s => do append (← readPixel s)) i n s = raising .pixelCountOverflow t := by
  induction n generalizing s i with
  | zero => omega
  | succ n ih =>
    simp only [forLoop]
    rw [Nat.succ_mul] at hb
    have h1 : s.bpp ≤ s.incoming.length := by omega
    rcases Nat.lt_or_ge s.dec.cnt s.dec.n with hlt | hge
    · rw [readAppend_eq h hlt h1, Eng.ok_bind]
      refine ih (i + 1) (h.filled _ _ _ _) hlt ?_ ?_
      · show s.dec.n - (s.dec.cnt + 1) < n; omega
      · rw [s.filled_incoming h1, List.length_drop]
        show (s.dec.n - (s.dec.cnt + 1) + 1) * s.bpp ≤ _
        rw [show s.dec.n - (s.dec.cnt + 1) + 1 = s.dec.n - s.dec.cnt by omega]
        omega
    · rw [readPixel_eq, if_pos h1, Eng.ok_bind,
        append_full (s := { s.taken s.bpp with dec := { s.dec with px := s.incoming.take s.bpp } }) hge]
      exact ⟨_, rfl⟩

/-- `ExecRUN`'s repeats when there are more than fit. -/
theorem runLoop_overflow (n i : Nat) (h : Filling s) (hc : s.dec.cnt ≤ s.dec.n) (hn : s.dec.n - s.dec.cnt < n)
    (hp : s.dec.px.length = s.bpp) :
    ∃ t, forLoop (fun _ s => append s) i n s = raising .pixelCountOverflow t := by
  induction n generalizing s i with
  | zero => omega
  | succ n ih =>
    simp only [forLoop]
    rcases Nat.lt_or_ge s.dec.cnt s.dec.n with hlt | hge
    · have h1 : append s = .ok (s.filled 0 1 s.dec.px s.dec.px) := by
        rw [append_eq hlt (by rw [hp]; exact h.room hlt)]
        simp [State.filled]
      rw [h1, Eng.ok_bind]
      exact ih (i + 1) (h.filled _ _ _ _) hlt (by show s.dec.n - (s.dec.cnt + 1) < n; omega) hp
    · rw [append_full hge]
      exact ⟨_, rfl⟩

end

end Sys2Proof.Machine
end

