-- ==== Sys2Proof/Laws/Chunks.lean ====
section
/-! SUPPORT. The decoder on a stream of whole chunks, and how the loop of a DECODE can end. -/

namespace Sys2Proof.Machine

/-- `ExecRUN` when its pixel is present and its repeats all fit. -/
theorem runBody_ok {n : Nat} {s : State} (hF : Filling s) (hc : s.dec.cnt + n ≤ s.dec.n)
    (hl : s.bpp ≤ s.incoming.length) :
    runBody n s = .ok (s.filled s.bpp n (List.replicate n (s.incoming.take s.bpp)).flatten (s.incoming.take s.bpp)) := by
  rw [runBody, readPixel_eq, if_pos hl, Eng.ok_bind]
  rw [runLoop_ok (s := { s.taken s.bpp with dec := { s.dec with px := s.incoming.take s.bpp } }) n 0
    ⟨hF.1, hF.2, hF.3⟩ hc (by show (s.incoming.take s.bpp).length = s.bpp; simp [hl])]
  rfl

theorem flatten_length_of_fits {b : Nat} {ps : List (List Byte)} (h : ∀ p ∈ ps, p.length = b) :
    ps.flatten.length = ps.length * b := by
  induction ps with
  | nil => simp
  | cons p ps ih =>
    simp only [List.flatten_cons, List.length_append, List.length_cons, Nat.succ_mul]
    rw [ih fun q hq => h q (by simp [hq]), h p (by simp)]; omega

/-- The data of a chunk is its count of pixels. -/
theorem Chunk.data_length {b} {c : Chunk} (h : c.Fits b) : c.data.length = c.count * b := by
  cases c with
  | raw ps => exact flatten_length_of_fits h.2.2
  | run n p => simp [Chunk.data, Chunk.count, h.2.2]

/-- One whole chunk whose pixels all fit. -/
theorem decodeChunk_ok {s : State} {c : Chunk} (hF : Filling s) (hf : c.Fits s.bpp)
    (hc : s.dec.cnt + c.count ≤ s.dec.n) (hi : c.bytes <+: s.incoming) :
    ∃ px, decodeChunk s = .ok ((setHeader c.header s).filled c.bytes.length c.count c.data px) := by
  obtain ⟨rest, hr⟩ := hi
  have h1 : s.incoming = c.header :: (c.payload ++ rest) := by rw [← hr]; rfl
  have h2 : (setHeader c.header (s.taken 1)).incoming = c.payload ++ rest := by
    show (s.taken 1).incoming = _
    rw [State.incoming_taken (by simp [h1]), h1]; rfl
  unfold decodeChunk
  rw [needByte_cons h1, Eng.ok_bind]
  dsimp only
  have hF' : Filling (setHeader c.header (s.taken 1)) := ⟨hF.1, hF.2, hF.3⟩
  cases c with
  | raw ps =>
    obtain ⟨hf1, hf2, hf3⟩ := hf
    have hh : (Chunk.raw ps).header.toNat = ps.length - 1 := by simp [Chunk.header]; omega
    have hl := flatten_length_of_fits hf3
    rw [if_pos (by omega), hh, show ps.length - 1 + 1 = ps.length by omega]
    obtain ⟨px, hpx⟩ := rawLoop_ok ps.length 0 hF' hc (by
      rw [h2]; show ps.length * s.bpp ≤ _; simp [Chunk.payload, ← hl])
    refine ⟨px, ?_⟩
    rw [rawBody, hpx, h2]
    have hb : (setHeader (Chunk.raw ps).header (s.taken 1)).bpp = s.bpp := rfl
    rw [hb, ← hl]
    simp only [Chunk.payload, List.take_left]
    simp only [State.filled, State.taken, setHeader, Chunk.bytes, Chunk.payload, List.length_cons, Chunk.data, Chunk.count]
    simp only [Nat.add_assoc, Nat.add_comm 1]
    rfl
  | run n p =>
    obtain ⟨hf1, hf2, hf3⟩ := hf
    have hh : (Chunk.run n p).header.toNat = n + 127 := by simp [Chunk.header]; omega
    rw [if_neg (by omega), hh, show n + 127 - 127 = n by omega]
    refine ⟨p, ?_⟩
    rw [runBody_ok (n := n) hF' hc (by rw [h2]; show s.bpp ≤ _; simp [Chunk.payload, hf3]), h2]
    have hb : (setHeader (Chunk.run n p).header (s.taken 1)).bpp = s.bpp := rfl
    rw [hb, ← hf3]
    simp only [Chunk.payload, List.take_left]
    simp only [State.filled, State.taken, setHeader, Chunk.bytes, Chunk.payload, List.length_cons, Chunk.data, Chunk.count]
    simp only [Nat.add_assoc, Nat.add_comm 1]
    rfl

theorem streamData_length {b} {cs : List Chunk} (h : ∀ c ∈ cs, c.Fits b) :
    (streamData cs).length = streamCount cs * b := by
  induction cs with
  | nil => simp [streamData, streamCount]
  | cons c cs ih =>
    have := ih fun d hd => h d (by simp [hd])
    simp only [streamData, streamCount, List.map_cons, List.flatten_cons, List.length_append,
      List.sum_cons, Nat.add_mul] at *
    rw [Chunk.data_length (h c (by simp)), this]

/-- Whole chunks at the head of the stream: the loop goes on from the state after them. -/
theorem whileLoop_chunks (cs : List Chunk) (s : State) (fuel : Nat) (hF : Filling s) (hf : ∀ c ∈ cs, c.Fits s.bpp)
   (hc : s.dec.cnt + streamCount cs ≤ s.dec.n) (hi : streamBytes cs <+: s.incoming) (hfu : cs.length ≤ fuel) :
   ∃ hd px, whileLoop (fun s => decide (s.dec.cnt < s.dec.n)) decodeChunk fuel s =
     whileLoop (fun s => decide (s.dec.cnt < s.dec.n)) decodeChunk (fuel - cs.length)
       ((setHeader hd s).filled (streamBytes cs).length (streamCount cs) (streamData cs) px) := by
  induction cs generalizing s fuel with
  | nil =>
    refine ⟨s.dec.hd, s.dec.px, ?_⟩
    simp [streamBytes, streamCount, streamData, State.filled, Memory.putAll, setHeader]
  | cons c cs ih =>
    obtain ⟨f, rfl⟩ : ∃ f, fuel = f + 1 := ⟨fuel - 1, by simp at hfu; omega⟩
    have hcnt : 1 ≤ c.count := by have := hf c (by simp); cases c <;> exact this.1
    simp only [streamCount, List.map_cons, List.sum_cons] at hc
    have hi1 : c.bytes <+: s.incoming := (List.prefix_append _ _).trans hi
    obtain ⟨px, hpx⟩ := decodeChunk_ok hF (hf c (by simp)) (by omega) hi1
    have hlen := hi1.length_le
    have hinc : ((setHeader c.header s).filled c.bytes.length c.count c.data px).incoming =
        s.incoming.drop c.bytes.length :=
      State.filled_incoming (s := setHeader c.header s) hlen
    obtain ⟨hd, px', h⟩ := ih ((setHeader c.header s).filled c.bytes.length c.count c.data px) f
      (Filling.filled (s := setHeader c.header s) ⟨hF.1, hF.2, hF.3⟩ _ _ _ _)
      (fun d hd => hf d (by simp [hd]))
      (by show s.dec.cnt + c.count + _ ≤ s.dec.n; simp only [streamCount]; omega)
      (by
        rw [hinc]
        obtain ⟨r, hr⟩ := hi
        rw [← hr]; simp [streamBytes]) (by simpa using hfu)
    refine ⟨hd, px', ?_⟩
    rw [whileLoop, if_pos (by simp; omega), hpx, Eng.ok_bind, h]
    have hdl := Chunk.data_length (hf c (by simp))
    rw [show f + 1 - (c :: cs).length = f - cs.length by simp]
    have e : setHeader hd ((setHeader c.header s).filled c.bytes.length c.count c.data px) =
       (setHeader hd s).filled c.bytes.length c.count c.data px := rfl
    rw [e, State.filled_filled (s := setHeader hd s) hdl]
    simp [streamBytes, streamCount, streamData]

/-- Every chunk stands for at least one pixel. -/
theorem length_le_streamCount {b} {cs : List Chunk} (hf : ∀ c ∈ cs, c.Fits b) : cs.length ≤ streamCount cs := by
  induction cs with
  | nil => simp [streamCount]
  | cons c cs ih =>
    have := ih fun d hd => hf d (by simp [hd])
    have hcnt : 1 ≤ c.count := by have := hf c (by simp); cases c <;> exact this.1
    simp only [streamCount, List.map_cons, List.sum_cons, List.length_cons] at *; omega

/-- A DECODE whose geometry passes the check fits the bank. -/
theorem decodeStart_filling {s : State} (h : s.argsOK) : Filling (decodeStart s) where
  offset := by simp
  target := by simp
  fit := by
    obtain ⟨h1, h2, h3, h4⟩ := h
    have e : ((decodeStart s).dataSize : Int) = int32 s.arg0 * int32 s.arg1 * int32 s.arg2 := by
      show (((int32 s.arg0).toNat * (int32 s.arg1).toNat * (int32 s.arg2).toNat : Nat) : Int) = _
      push_cast
      rw [Int.toNat_of_nonneg (by omega), Int.toNat_of_nonneg (by omega), Int.toNat_of_nonneg (by omega)]
    show (decodeStart s).dataSize ≤ s.capr
    omega

theorem decodeStart_rel {s : State} : DecRel (decodeStart s) (decodeStart s) := .refl (by simp)

/-- The loop of a DECODE whose geometry passes the check ends with the buffer full, or in a stream error. -/
theorem decodeLoop_cases {s : State} (hg : s.argsOK) :
    (∃ v, decodeLoop (decodeStart s) = .ok v ∧ DecRel (decodeStart s) v ∧ v.dec.n ≤ v.dec.cnt) ∨
    (∃ e v, decodeLoop (decodeStart s) = raising e v ∧ streamError e ∧ DecRel (decodeStart s) v) := by
  have hF := decodeStart_filling hg
  have := decodeLoop_sat (F := False) decodeStart_rel hF.2 (.inl hF.3)
  rcases h : decodeLoop (decodeStart s) with (⟨e, v⟩ | f) | v
  · rw [h] at this; exact .inr ⟨e, v, rfl, this⟩
  · rw [h] at this; exact this.elim
  · rw [h] at this; exact .inl ⟨v, rfl, this⟩

end Sys2Proof.Machine
end

