-- ==== Sys2Proof/Laws/Encoder.lean ====
section
/-! SUPPORT. What the run detection of ENCODE finds: the run's mode, its pixels, and why it ends where it does. -/

namespace Sys2Proof.Machine

/-- A run in the making, over the pixels `px`: at least one pixel and at most 128, inside the buffer; in a raw run no
two neighbours are equal, in a repeat run all are. -/
structure Encoder.RunOver (px : Nat → List Byte) (e : Encoder) : Prop where
  cursor : e.p + 1 = e.cur + e.rl
  one_le : 1 ≤ e.rl
  le_max : e.rl ≤ 128
  inside : e.cur + e.rl ≤ e.n
  differ : e.raw = true → ∀ k, k + 1 < e.rl → px (e.cur + k) ≠ px (e.cur + k + 1)
  repeats : e.raw = false → 2 ≤ e.rl ∧ ∀ k, k + 1 < e.rl → px (e.cur + k) = px (e.cur + k + 1)

/-- A finished run: the mode is true of its pixels, and it ends where the greedy rule says (R107 to R110). -/
structure Encoder.Cut (px : Nat → List Byte) (e : Encoder) : Prop where
  one_le : 1 ≤ e.rl
  le_max : e.rl ≤ 128
  inside : e.cur + e.rl ≤ e.n
  differ : e.raw = true → ∀ k, k + 1 < e.rl → px (e.cur + k) ≠ px (e.cur + k + 1)
  repeats : e.raw = false → 2 ≤ e.rl ∧ ∀ k, k + 1 < e.rl → px (e.cur + k) = px (e.cur + k + 1)
  cutRaw : e.raw = true → e.rl = 128 ∨ e.cur + e.rl = e.n ∨
    e.cur + e.rl + 1 < e.n ∧ px (e.cur + e.rl - 1) ≠ px (e.cur + e.rl) ∧ px (e.cur + e.rl) = px (e.cur + e.rl + 1)
  cutRun : e.raw = false → e.rl = 128 ∨ e.cur + e.rl = e.n ∨ px (e.cur + e.rl - 1) ≠ px (e.cur + e.rl)

/-- The inner loop of ENCODE on readable pixels: it ends in a finished run that starts where it was told to. -/
theorem extendRun_cut {s : State} {px : Nat → List Byte} (room : Nat) (e : Encoder)
    (hpx : ∀ i, i < e.n → readPixelAt s i = .ok (px i)) (h : e.RunOver px) (hroom : 128 ≤ e.rl + room) :
    ∃ f : Encoder, extendRun s room e = .ok f ∧ f.n = e.n ∧ f.cur = e.cur ∧ f.start = e.start ∧ f.Cut px := by
  induction room generalizing e with
  | zero =>
    refine ⟨e, rfl, rfl, rfl, rfl, h.one_le, h.le_max, h.inside, h.differ, h.repeats, fun _ => .inl ?_, fun _ => .inl ?_⟩
    all_goals have := h.le_max; omega
  | succ room ih =>
    have hc := h.cursor
    have h1 := h.one_le
    have hm := h.le_max
    have hin := h.inside
    unfold extendRun
    by_cases hgo : e.cur + e.rl < e.n ∧ e.rl < 128
    · rw [if_pos hgo, hpx e.p (by omega), Eng.ok_bind, hpx (e.p + 1) (by omega), Eng.ok_bind]
      dsimp only
      by_cases hq : px e.p = px (e.p + 1)
      · have hb : (px e.p == px (e.p + 1)) = true := by simpa using hq
        rw [hb]
        by_cases h2 : e.rl = 1
        · -- the first comparison makes it a repeat run
          have hr : (e.compared true).raw = false := by simp [Encoder.compared, h2]
          rw [if_neg (by rw [hr]; simp), if_neg (by simp [Encoder.compared])]
          have hk : ({ e.compared true with rl := (e.compared true).rl + 1 } : Encoder).RunOver px := by
            refine ⟨by show e.p + 1 + 1 = e.cur + (e.rl + 1); omega, by show 1 ≤ e.rl + 1; omega,
              by show e.rl + 1 ≤ 128; omega, by show e.cur + (e.rl + 1) ≤ e.n; omega,
              fun h => (by rw [show _ = (e.compared true).raw from rfl, hr] at h; cases h),
              fun _ => ⟨by show 2 ≤ e.rl + 1; omega, fun k hk => ?_⟩⟩
            have hk : k + 1 < e.rl + 1 := hk
            show px (e.cur + k) = px (e.cur + k + 1)
            rw [show e.cur + k = e.p by omega]; exact hq
          exact ih _ hpx hk (by show 128 ≤ e.rl + 1 + room; omega)
        · have hraw : (e.compared true).raw = e.raw := by simp [Encoder.compared, h2]
          cases hr : e.raw with
          | true =>
            -- an equal pair ends a raw run, which gives its last pixel back
            rw [if_pos (by rw [hraw, hr]; rfl)]
            refine ⟨_, rfl, rfl, rfl, rfl, ?_⟩
            exact {
              one_le := by show 1 ≤ e.rl - 1; omega
              le_max := by show e.rl - 1 ≤ 128; omega
              inside := by show e.cur + (e.rl - 1) ≤ e.n; omega
              differ := fun _ k hk => h.differ hr k (by have : k + 1 < e.rl - 1 := hk; omega)
              repeats := fun h => by rw [show _ = (e.compared true).raw from rfl, hraw, hr] at h; cases h
              cutRaw := fun _ => .inr (.inr ⟨by show e.cur + (e.rl - 1) + 1 < e.n; omega, by
                show px (e.cur + (e.rl - 1) - 1) ≠ px (e.cur + (e.rl - 1))
                have := h.differ hr (e.rl - 2) (by omega)
                rwa [show e.cur + (e.rl - 2) = e.cur + (e.rl - 1) - 1 by omega,
                  show e.cur + (e.rl - 1) - 1 + 1 = e.cur + (e.rl - 1) by omega] at this, by
                show px (e.cur + (e.rl - 1)) = px (e.cur + (e.rl - 1) + 1)
                rwa [show e.cur + (e.rl - 1) = e.p by omega]⟩)
              cutRun := fun h => by rw [show _ = (e.compared true).raw from rfl, hraw, hr] at h; cases h }
          | false =>
            rw [if_neg (by rw [hraw, hr]; simp), if_neg (by simp [Encoder.compared])]
            have hk : ({ e.compared true with rl := (e.compared true).rl + 1 } : Encoder).RunOver px := by
              refine ⟨by show e.p + 1 + 1 = e.cur + (e.rl + 1); omega, by show 1 ≤ e.rl + 1; omega,
                by show e.rl + 1 ≤ 128; omega, by show e.cur + (e.rl + 1) ≤ e.n; omega,
                fun h => (by rw [show _ = (e.compared true).raw from rfl, hraw, hr] at h; cases h),
                fun _ => ⟨by show 2 ≤ e.rl + 1; omega, fun k hk => ?_⟩⟩
              have hk : k + 1 < e.rl + 1 := hk
              show px (e.cur + k) = px (e.cur + k + 1)
              by_cases hl : k + 1 < e.rl
              · exact (h.repeats hr).2 k hl
              · rw [show e.cur + k = e.p by omega]; exact hq
            exact ih _ hpx hk (by show 128 ≤ e.rl + 1 + room; omega)
      · have hb : (px e.p == px (e.p + 1)) = false := by simpa using hq
        rw [hb]
        by_cases hr : (e.compared false).raw = true
        · -- a raw run goes on
          rw [if_neg (by simp [Encoder.compared]), if_neg (by rw [hr]; simp)]
          have hk : ({ e.compared false with rl := (e.compared false).rl + 1 } : Encoder).RunOver px := by
            refine ⟨by show e.p + 1 + 1 = e.cur + (e.rl + 1); omega, by show 1 ≤ e.rl + 1; omega,
              by show e.rl + 1 ≤ 128; omega, by show e.cur + (e.rl + 1) ≤ e.n; omega,
              fun _ k hk => ?_, fun h => by rw [show _ = (e.compared false).raw from rfl, hr] at h; cases h⟩
            have hk : k + 1 < e.rl + 1 := hk
            show px (e.cur + k) ≠ px (e.cur + k + 1)
            by_cases hl : k + 1 < e.rl
            · refine h.differ ?_ k hl
              have h2 : e.rl ≠ 1 := by omega
              simpa [Encoder.compared, h2] using hr
            · rw [show e.cur + k = e.p by omega]; exact hq
          exact ih _ hpx hk (by show 128 ≤ e.rl + 1 + room; omega)
        · -- a repeat run ends before a pixel that differs
          have h2 : e.rl ≠ 1 := fun h2 => hr (by simp [Encoder.compared, h2])
          have hraw : e.raw = false := by simpa [Encoder.compared, h2] using hr
          have hf : (e.compared false).raw = false := by simpa using hr
          rw [if_neg (by simp [Encoder.compared]), if_pos (by rw [hf]; simp [Encoder.compared])]
          refine ⟨_, rfl, rfl, rfl, rfl, ?_⟩
          exact {
            one_le := h1
            le_max := hm
            inside := hin
            differ := fun h => by rw [hf] at h; cases h
            repeats := fun _ => h.repeats hraw
            cutRaw := fun h => by rw [hf] at h; cases h
            cutRun := fun _ => .inr (.inr (by
              show px (e.cur + e.rl - 1) ≠ px (e.cur + e.rl)
              rwa [show e.cur + e.rl - 1 = e.p by omega, show e.cur + e.rl = e.p + 1 by omega])) }
    · rw [if_neg hgo]
      refine ⟨e, rfl, rfl, rfl, rfl, h1, hm, hin, h.differ, h.repeats, fun _ => ?_, fun _ => ?_⟩
      all_goals by_cases h3 : e.rl < 128
      · exact .inr (.inl (by omega))
      · exact .inl (by omega)
      · exact .inr (.inl (by omega))
      · exact .inl (by omega)

/-- A chunk starts as a raw run of one pixel. -/
theorem Encoder.startRun_runOver {px : Nat → List Byte} {e : Encoder} (h : e.cur < e.n) : e.startRun.RunOver px where
  cursor := rfl
  one_le := Nat.le_refl 1
  le_max := by show 1 ≤ 128; omega
  inside := h
  differ := fun _ k hk => by have : k + 1 < 1 := hk; omega
  repeats := fun h => by cases h

end Sys2Proof.Machine
end

