-- ==== Sys2Proof/Laws/Ending.lean ====
section
/-! SUPPORT. How a command can end, what `OutPut` can do, and what a draw of the valid region leaves. -/

namespace Sys2Proof.Machine

/-! ### The ends of a command -/

/-- A command without hidden values ends with `OK` or in the error it raised. -/
theorem settle_eq_next {r : Eng State} {t : State} (h : settle r = .next t) :
    (∃ s, r = .ok s ∧ t = complete s) ∨ ∃ e s, r = raising e s ∧ t = raise e s := by
  rcases r with (⟨e, s⟩ | f) | s
  · cases h; exact .inr ⟨e, s, rfl, rfl⟩
  · cases h
  · cases h; exact .inl ⟨s, rfl, rfl⟩

/-- A command with hidden values ends with `OK` or in the error it raised, and the values are drawn. -/
theorem settleScrub_eq_next {r : Eng State} {t : State} (h : settleScrub r = .next t) :
    (∃ s, r = .ok s ∧ t = complete (scrub s)) ∨ ∃ e s, r = raising e s ∧ t = raise e (scrub s) := by
  rcases r with (⟨e, s⟩ | f) | s
  · cases h; exact .inr ⟨e, s, rfl, rfl⟩
  · cases h
  · cases h; exact .inl ⟨s, rfl, rfl⟩

/-- A DECODE ends full or in the stream error it raised. -/
theorem settleDecode_eq_next {r : Eng State} {t : State} (h : settleDecode r = .next t) :
    (∃ s, r = .ok s ∧ t = finishDecode s) ∨ ∃ e s, r = raising e s ∧ t = abortDecode e s := by
  rcases r with (⟨e, s⟩ | f) | s
  · cases h; exact .inr ⟨e, s, rfl, rfl⟩
  · cases h
  · cases h; exact .inl ⟨s, rfl, rfl⟩

/-- A chunk leaves its DECODE in progress or ends it in the error it raised. -/
theorem settleChunk_eq_next {r : Eng State} {t : State} (h : settleChunk r = .next t) :
    r = .ok t ∨ ∃ e s, r = raising e s ∧ t = abortDecode e s := by
  rcases r with (⟨e, s⟩ | f) | s
  · cases h; exact .inr ⟨e, s, rfl, rfl⟩
  · cases h
  · cases h; exact .inl rfl

@[simp] theorem settle_ok (s : State) : settle (.ok s) = .next (complete s) := rfl
@[simp] theorem settle_raising (e : Result) (s : State) : settle (raising e s) = .next (raise e s) := rfl
@[simp] theorem settleScrub_ok (s : State) : settleScrub (.ok s) = .next (complete (scrub s)) := rfl
@[simp] theorem settleScrub_raising (e : Result) (s : State) :
    settleScrub (raising e s) = .next (raise e (scrub s)) := rfl
@[simp] theorem settleDecode_ok (s : State) : settleDecode (.ok s) = .next (finishDecode s) := rfl
@[simp] theorem settleDecode_raising (e : Result) (s : State) :
    settleDecode (raising e s) = .next (abortDecode e s) := rfl
@[simp] theorem settleChunk_ok (s : State) : settleChunk (.ok s) = .next s := rfl
@[simp] theorem settleChunk_raising (e : Result) (s : State) :
    settleChunk (raising e s) = .next (abortDecode e s) := rfl

/-- The checks of R154 and R155. -/
theorem requireBuffer_eq (s : State) :
    requireBuffer s = if s.isEmpty then raising .invalidDimensions s else .ok () := rfl

theorem requireInBounds_eq (s : State) :
    requireInBounds s = if s.inBounds s.argX s.argY then .ok () else raising .outOfBounds s := rfl

/-! ### `OutPut` -/

/-- All that `OutPut` can do: append the byte, or raise `WriteFailure` with nothing appended. -/
theorem outPut_sat {F : Prop} (s : State) (b : Byte) :
    Eng.Sat F (fun t => t = { s with outS := ⟨s.outS.data ++ [b], s.outS.answers.tail⟩ })
      (fun e t => e = .writeFailure ∧ t = { s with outS := ⟨s.outS.data, s.outS.answers.tail⟩ }) (outPut s b) := by
  unfold outPut
  split <;> simp_all

/-- Every byte accepted: all of them are appended. -/
theorem outPutAll_accepted {s : State} {bs : List Byte} (h : ∀ a ∈ s.outS.answers.take bs.length, a = true) :
    outPutAll s bs = .ok { s with outS := ⟨s.outS.data ++ bs, s.outS.answers.drop bs.length⟩ } := by
  induction bs generalizing s with
  | nil => simp [outPutAll]
  | cons b bs ih =>
    have h1 : outPut s b = .ok { s with outS := ⟨s.outS.data ++ [b], s.outS.answers.tail⟩ } := by
      unfold outPut
      split <;> simp_all
    rw [outPutAll, h1, Eng.ok_bind, ih]
    · simp
    · intro a ha
      refine h a ?_
      cases hs : s.outS.answers with
      | nil => simp [hs] at ha
      | cons c cs => simp only [hs, List.tail_cons] at ha; simp [ha]

/-- The `k`-th byte refused: the bytes before it are appended, and no later one is offered. -/
theorem outPutAll_refused {s : State} {bs : List Byte} {k : Nat} {as : List Bool} (hk : k < bs.length)
    (h : s.outS.answers = List.replicate k true ++ false :: as) :
    outPutAll s bs = raising .writeFailure { s with outS := ⟨s.outS.data ++ bs.take k, as⟩ } := by
  induction bs generalizing s k with
  | nil => simp at hk
  | cons b bs ih =>
    cases k with
    | zero =>
      have h1 : outPut s b = raising .writeFailure { s with outS := { s.outS with answers := as } } := by
        simp [outPut, show s.outS.answers = false :: as by simpa using h]
      rw [outPutAll, h1]
      simp [raising]; rfl
    | succ k =>
      have h1 : outPut s b =
          .ok { s with outS := ⟨s.outS.data ++ [b], List.replicate k true ++ false :: as⟩ } := by
        simp [outPut, h, List.replicate_succ]
      rw [outPutAll, h1, Eng.ok_bind, ih (by simpa using hk) rfl]
      simp

/-! ### Draws -/

@[simp] theorem freeData_length (k n : Nat) : (freeData k n).length = n := by simp [freeData]

/-- A byte after a draw of the valid region: free inside it, as before outside. -/
theorem drawData_byte (s : State) (a : Nat) :
    (drawData s).pm.byte a = if a < s.dataSize then some (Config.freeByte (s.draws + a)) else s.pm.byte a := by
  rw [drawData_pm, Memory.byte_putAll]
  simp only [freeData_length, Nat.zero_le, true_and, Nat.zero_add]
  split
  · rename_i h; simp [freeData, h]
  · rfl

end Sys2Proof.Machine
end

