-- ==== Sys2Proof/Laws/PerInstr.lean ====
section
/-! SUPPORT. A fact about the encoding of every instruction, one lemma per constructor. -/

namespace Sys2Proof.Laws.EncodingShape

/-- A well-formed chunk is coded as a header whose bit 7 tells its type (R61); a command is coded as a word whose
bits 31:4 are zero and whose number is 1 to 8 (R67, R68). -/
def Statement (i : Instr) : Prop :=
  i.WellFormed →
    match encode i with
    | .header h => i.isCommand = false ∧ (h.getLsbD 7 = true ↔ ∃ n, i = .run n)
    | .command c => i.isCommand = true ∧ c.extractLsb' 4 28 = 0 ∧
        1 ≤ (c.extractLsb' 0 4).toNat ∧ (c.extractLsb' 0 4).toNat ≤ 8

theorem raw (n : Nat) : Statement (.raw n) := by
  intro h
  simp only [Instr.WellFormed, Instr.check, Bool.and_eq_true, decide_eq_true_eq] at h
  refine ⟨rfl, ?_⟩
  rw [show (rawHeader n).getLsbD 7 = false by
    rw [rawHeader, BitVec.getLsbD_ofNat, Nat.testBit_lt_two_pow (by omega)]; rfl]
  simp

theorem run (n : Nat) : Statement (.run n) := by
  intro h
  simp only [Instr.WellFormed, Instr.check, Bool.and_eq_true, decide_eq_true_eq] at h
  refine ⟨rfl, ?_⟩
  rw [show (runHeader n).getLsbD 7 = true by
    rw [runHeader, BitVec.getLsbD_ofNat, Nat.testBit_eq_decide_div_mod_eq]
    simp; omega]
  simp

theorem alloc : Statement .alloc := fun _ => ⟨rfl, by decide, by decide, by decide⟩
theorem getpix : Statement .getpix := fun _ => ⟨rfl, by decide, by decide, by decide⟩
theorem setpix : Statement .setpix := fun _ => ⟨rfl, by decide, by decide, by decide⟩
theorem decode : Statement .decode := fun _ => ⟨rfl, by decide, by decide, by decide⟩
theorem encode : Statement .encode := fun _ => ⟨rfl, by decide, by decide, by decide⟩
theorem flipv : Statement .flipv := fun _ => ⟨rfl, by decide, by decide, by decide⟩
theorem fliph : Statement .fliph := fun _ => ⟨rfl, by decide, by decide, by decide⟩
theorem scale : Statement .scale := fun _ => ⟨rfl, by decide, by decide, by decide⟩

end Sys2Proof.Laws.EncodingShape
end

