-- ==== Sys2Proof/Laws/Pixels.lean ====
section
/-! SUPPORT. One pass of each inner loop of the flips and the scaler, and the addresses of rows and pixels. -/

namespace Sys2Proof.Machine

/-! ### Addresses -/

/-- A row lies inside the valid region (R44). -/
theorem row_le_dataSize {s : State} {y : Nat} (h : y < s.height) : y * s.lineSize + s.lineSize ≤ s.dataSize := by
  have h1 : (y + 1) * s.lineSize ≤ s.height * s.lineSize := Nat.mul_le_mul_right _ h
  rw [Nat.succ_mul] at h1
  refine Nat.le_trans h1 (Nat.le_of_eq ?_)
  simp only [State.lineSize, State.dataSize]
  rw [Nat.mul_comm s.width s.height, Nat.mul_assoc]

/-- A pixel lies inside its row (R42, R44). -/
theorem pixel_le_row {s : State} {x : Nat} (y : Nat) (h : x < s.width) :
    s.addr x y + s.bpp ≤ y * s.lineSize + s.lineSize := by
  have h1 : (x + 1) * s.bpp ≤ s.width * s.bpp := Nat.mul_le_mul_right _ h
  rw [Nat.succ_mul] at h1
  simp only [State.addr, State.lineSize, Nat.add_mul, Nat.mul_assoc]
  omega

/-- A pixel lies inside the valid region (R42, R85). -/
theorem pixel_le_dataSize {s : State} {x y : Nat} (hx : x < s.width) (hy : y < s.height) :
    s.addr x y + s.bpp ≤ s.dataSize := Nat.le_trans (pixel_le_row y hx) (row_le_dataSize hy)

/-- The pixels of a row stand one after another (R43, R44). -/
theorem addr_eq (s : State) (x y : Nat) : s.addr x y = y * s.lineSize + x * s.bpp := by
  simp [State.addr, State.lineSize, Nat.add_mul, Nat.mul_assoc]

/-! ### The flips -/

/-- One pass of FLIPV: the two rows have changed places. -/
theorem swapRows_eq {i : Nat} {s : State} {upper lower : List Byte}
    (ha : s.pm.bytes (i * s.lineSize) s.lineSize = some upper)
    (hb : s.pm.bytes ((s.height - 1 - i) * s.lineSize) s.lineSize = some lower)
    (hi : i * s.lineSize + s.lineSize ≤ s.capr) (hj : (s.height - 1 - i) * s.lineSize + s.lineSize ≤ s.capr) :
    swapRows i s = .ok { s with
      flip := { s.flip with lineBuf := upper }
      pm := (s.pm.putAll (i * s.lineSize) lower).putAll ((s.height - 1 - i) * s.lineSize) upper } := by
  have h1 := Memory.bytes_length ha
  have h2 := Memory.bytes_length hb
  simp only [swapRows]
  rw [memRead_eq hi ha, Eng.ok_bind, memRead_eq (by exact hj) (by exact hb), Eng.ok_bind, memWrite_eq (by rw [h2]; exact hi),
    Eng.ok_bind, memWrite_eq (by rw [h1]; exact hj)]

/-- One pass of FLIPH's inner loop: the two pixels have changed places. -/
theorem swapPixels_eq {y j : Nat} {s : State} {left right : List Byte}
    (ha : s.pm.bytes (s.addr j y) s.bpp = some left)
    (hb : s.pm.bytes (s.addr (s.width - 1 - j) y) s.bpp = some right)
    (hi : s.addr j y + s.bpp ≤ s.capr) (hj : s.addr (s.width - 1 - j) y + s.bpp ≤ s.capr) :
    swapPixels y j s = .ok { s with
      flip := { s.flip with pa := left, pb := right }
      pm := (s.pm.putAll (s.addr j y) right).putAll (s.addr (s.width - 1 - j) y) left } := by
  have h1 := Memory.bytes_length ha
  have h2 := Memory.bytes_length hb
  simp only [swapPixels]
  rw [memRead_eq hi ha, Eng.ok_bind, memRead_eq hj hb, Eng.ok_bind, memWrite_eq (by rw [h2]; exact hi),
    Eng.ok_bind, memWrite_eq (by rw [h1]; exact hj)]

/-! ### The scaler -/

/-- One destination pixel: the source pixel is copied to the shadow bank (R133). -/
theorem emitPixel_eq {s : State} {px : List Byte}
    (hr : s.pm.bytes (s.scl.oscan + s.scl.i * s.bpp) s.bpp = some px)
    (hi : s.scl.oscan + s.scl.i * s.bpp + s.bpp ≤ s.capr) (hw : s.scl.nscan + s.scl.nx + s.bpp ≤ s.capr) :
    emitPixel s = .ok { s with
      sh := s.sh.putAll (s.scl.nscan + s.scl.nx) px
      scl := { s.scl with herr := s.scl.herr - s.width, nx := s.scl.nx + s.bpp } } := by
  have h1 := Memory.bytes_length hr
  simp only [emitPixel]
  rw [memRead_eq hi hr, Eng.ok_bind, shWrite_eq (by rw [h1]; exact hw)]
  rfl

/-- The last row committed from a source row: nothing is copied (R134). -/
theorem commitRow_last {s : State} (h : s.scl.verr < 2 * s.height) :
    commitRow s = .ok { s with scl := { s.scl with
      verr := s.scl.verr - s.height, nscan := s.scl.nscan + s.newLineSize } } := by
  simp only [commitRow]
  rw [if_neg (by omega)]
  rfl

/-- A row committed before the last one: it is copied into the next (R134, R135). -/
theorem commitRow_copy {s : State} {row : List Byte} (h : 2 * s.height ≤ s.scl.verr)
    (hr : s.sh.bytes s.scl.nscan s.newLineSize = some row)
    (hw : s.scl.nscan + s.newLineSize + s.newLineSize ≤ s.capr) :
    commitRow s = .ok { s with
      sh := s.sh.putAll (s.scl.nscan + s.newLineSize) row
      scl := { s.scl with verr := s.scl.verr - s.height, nscan := s.scl.nscan + s.newLineSize } } := by
  have h1 := Memory.bytes_length hr
  simp only [commitRow]
  rw [if_pos h, shRead_eq (by omega) hr, Eng.ok_bind, shWrite_eq (by rw [h1]; exact hw)]
  rfl

end Sys2Proof.Machine
end

