-- ==== Sys2Proof/Tests/Slice0.lean ====
section
/-! SUPPORT. Small tests, with expected values from the spec's tables and vectors (95_test_vectors.md), and for each
statement with hypotheses a state and operands that meet them. -/

namespace Sys2Proof.Tests

open Sys2Proof Sys2Proof.Machine

set_option maxRecDepth 10000

/-! ### Well-formedness refuses each ill-formed term -/

theorem test_raw_0_illFormed : ¬(Instr.raw 0).WellFormed := by decide
theorem test_raw_129_illFormed : ¬(Instr.raw 129).WellFormed := by decide
theorem test_run_0_illFormed : ¬(Instr.run 0).WellFormed := by decide
theorem test_run_129_illFormed : ¬(Instr.run 129).WellFormed := by decide

/-! ### Decoding, bit by bit from the encodings of 30_encoding.md -/

/-- `0LLLLLLL`, `L = 3`: four literal pixels (R62, vector V-D9). -/
theorem test_decode_raw : decode (.header 0b00000011) = .ok (.raw 4) := by decide
/-- `1LLLLLLL`, `L = 4`: one pixel five times (R63, vector V-D10). -/
theorem test_decode_run : decode (.header 0b10000100) = .ok (.run 5) := by decide
theorem test_decode_alloc : decode (.command 0b00000000000000000000000000000001) = .ok .alloc := by decide
theorem test_decode_getpix : decode (.command 0b00000000000000000000000000000010) = .ok .getpix := by decide
theorem test_decode_setpix : decode (.command 0b00000000000000000000000000000011) = .ok .setpix := by decide
theorem test_decode_decode : decode (.command 0b00000000000000000000000000000100) = .ok .decode := by decide
theorem test_decode_encode : decode (.command 0b00000000000000000000000000000101) = .ok .encode := by decide
theorem test_decode_flipv : decode (.command 0b00000000000000000000000000000110) = .ok .flipv := by decide
theorem test_decode_fliph : decode (.command 0b00000000000000000000000000000111) = .ok .fliph := by decide
theorem test_decode_scale : decode (.command 0b00000000000000000000000000001000) = .ok .scale := by decide
/-- `OP` 8 with bit 4 set is no SCALE (V-X3). -/
theorem test_decode_bit4 : decode (.command 0b00000000000000000000000000011000) = .error .illegalCommand := by decide
/-- `OP` 9 is reserved (V-X2). -/
theorem test_decode_op9 : decode (.command 0b00000000000000000000000000001001) = .error .illegalCommand := by decide
/-- The opcode table's match words (30_encoding.md). -/
theorem test_tableWords : decodeTableWord 8 0x00 = some (.raw 1) ∧ decodeTableWord 8 0x80 = some (.run 1) ∧
    decodeTableWord 32 0x00000008 = some .scale ∧ decodeTableWord 32 0 = none := by decide

/-! ### States to test on -/

/-- A buffer of the given geometry and data in banks of 64 bytes. -/
def buffer (w h bpp : Word) (data : List Byte) : State :=
  { State.reset with capr := 64, pbW := w, pbH := h, pbBpp := bpp, pm := Memory.putAll [] 0 data }

/-- The state with operands. -/
def ops (a0 a1 a2 : Word) (s : State) : State := { s with arg0 := a0, arg1 := a1, arg2 := a2 }

/-- The reset state of a block with banks of 64 bytes. -/
def fresh : State := { State.reset with capr := 64 }

/-- The state with an input stream. -/
def feed (data : List Byte) (s : State) : State := { s with inS := ⟨data, 0, none⟩ }

/-- A DECODE that has just begun on a stream. -/
def begun (w h bpp : Word) (data : List Byte) : State := decodeStart (ops w h bpp (feed data fresh))

/-- The state with one action of the host. -/
def script (op : HostOp) (s : State) : State := { s with host := [op] }

/-- The next state passes a test. -/
def ends (r : Host.Outcome State Fault Refusal) (p : State → Bool) : Bool :=
  match r with
  | .next t => p t
  | .fault _ => false
  | .refused _ => false

/-! ### One command each, from the vectors -/

/-- V-PB1: all of a 64-byte bank. -/
theorem test_alloc_fits : ends (exec .alloc (ops 4 4 4 fresh)) (fun t =>
    t.statusWord == 0 && t.pbW == 4 && t.pbH == 4 && t.pbBpp == 4) = true := by decide
/-- V-PB9a: the product 2^32 must not wrap. -/
theorem test_alloc_wraps : ends (exec .alloc (ops 65536 65536 1 fresh)) (fun t => t.statusWord == 0x34) = true := by
  decide
/-- V-PB11: the lowest offset in the lowest byte. -/
theorem test_getpix : ends (exec .getpix (ops 1 0 0 (buffer 2 1 3 [1, 2, 3, 4, 5, 6]))) (fun t =>
    t.pix == 0x00060504) = true := by decide
/-- V-PB14: a coordinate of -1. -/
theorem test_getpix_outOfBounds : ends (exec .getpix (ops 0xFFFFFFFF 0 0 (buffer 2 1 3 [1, 2, 3, 4, 5, 6]))) (fun t =>
    t.result == .outOfBounds && t.pix == 0) = true := by decide
/-- V-PB15. -/
theorem test_setpix : ends (exec .setpix { buffer 2 1 3 [1, 2, 3, 4, 5, 6] with pix := 0xAABBCCDD }) (fun t =>
    t.data == some [0xDD, 0xCC, 0xBB, 4, 5, 6]) = true := by decide
/-- V-PB20: `addr(1, 1) = 3`. -/
theorem test_setpix_corner : ends (exec .setpix { ops 1 1 0 (buffer 2 2 1 [1, 2, 3, 4]) with pix := 0xEE }) (fun t =>
    t.data == some [1, 2, 3, 0xEE]) = true := by decide
/-- V-D7: a run across the row boundary. -/
theorem test_decode_chunks : ends (exec .decode (ops 2 2 1 (feed [0x00, 1, 0x81, 2, 0x00, 3] fresh))) (fun t =>
    t.data == some [1, 2, 2, 3] && t.inS.pos == 6 && t.statusWord == 0) = true := by decide
/-- V-D13: the fifth pixel is missing, so the read fails before the count check. -/
theorem test_decode_truncated : ends (exec .decode (ops 2 2 1 (feed [0x04, 1, 2, 3, 4] fresh))) (fun t =>
    t.result == .truncatedStream && t.sticky && t.pbW == 2) = true := by decide
/-- V-D12 as a chunk of a DECODE in progress: the fifth pixel is read, then refused. -/
theorem test_raw_overflow : ends (exec (.raw 5) (begun 2 2 1 [1, 2, 3, 4, 5])) (fun t =>
    t.result == .pixelCountOverflow && !t.busy) = true := by decide
/-- V-D2's chunk. -/
theorem test_raw : ends (exec (.raw 2) (begun 2 1 3 [1, 2, 3, 4, 5, 6])) (fun t =>
    t.pm.bytes 0 6 == some [1, 2, 3, 4, 5, 6] && t.dec.cnt == 2 && t.inS.pos == 6) = true := by decide
/-- V-D1's chunk. -/
theorem test_run : ends (exec (.run 2) (begun 2 1 3 [10, 20, 30])) (fun t =>
    t.pm.bytes 0 6 == some [10, 20, 30, 10, 20, 30] && t.dec.cnt == 2 && t.inS.pos == 3) = true := by decide
/-- V-D21: an overshooting run whose pixel is missing. -/
theorem test_run_truncated : ends (exec (.run 3) (begun 2 1 1 [])) (fun t => t.result == .truncatedStream) = true := by
  decide
/-- V-E11: a raw run gives its last pixel back. -/
theorem test_encode : ends (exec .encode (buffer 4 1 1 [0xAA, 0xBB, 0xAA, 0xAA])) (fun t =>
    t.outS.data == [0x01, 0xAA, 0xBB, 0x81, 0xAA]) = true := by decide
/-- V-E44: the fourth byte is refused. -/
theorem test_encode_writeFailure : ends (exec .encode
    { buffer 4 1 1 [0xAA, 0xBB, 0xBB, 0xAA] with outS := ⟨[], [true, true, true, false]⟩ }) (fun t =>
    t.outS.data == [0x00, 0xAA, 0x81] && t.statusWord == 0x12) = true := by decide
/-- V-F3. -/
theorem test_flipv : ends (exec .flipv (buffer 2 3 1 [1, 2, 3, 4, 5, 6])) (fun t =>
    t.data == some [5, 6, 3, 4, 1, 2]) = true := by decide
/-- V-F7: the bytes inside a pixel keep their order. -/
theorem test_fliph : ends (exec .fliph (buffer 2 1 3 [1, 2, 3, 4, 5, 6])) (fun t =>
    t.data == some [4, 5, 6, 1, 2, 3]) = true := by decide
/-- V-F9: every row. -/
theorem test_fliph_rows : ends (exec .fliph (buffer 3 2 1 [1, 2, 3, 4, 5, 6])) (fun t =>
    t.data == some [3, 2, 1, 6, 5, 4]) = true := by decide
/-- V-SC2: columns 0, 1, 1 and rows 0, 1, 1. -/
theorem test_scale : ends (exec .scale (ops 3 3 0 (buffer 2 2 1 [1, 2, 3, 4]))) (fun t =>
    t.data == some [1, 2, 2, 3, 4, 4, 3, 4, 4] && t.pbW == 3 && t.pbH == 3) = true := by decide
/-- V-SC22: 72 bytes do not fit 64. -/
theorem test_scale_tooLarge : ends (exec .scale (ops 9 8 0 (buffer 3 3 1 [1, 2, 3, 4, 5, 6, 7, 8, 9]))) (fun t =>
    t.result == .invalidDimensions && t.pbW == 3) = true := by decide

/-! ### Steps -/

/-- V-X3. -/
theorem test_step_illegal : ends (step (script (.write 0x00 0x18) (buffer 2 2 1 [1, 2, 3, 4]))) (fun t =>
    t.statusWord == 0x16 && t.host == []) = true := by decide
/-- V-X5: a 1 in bit 4 clears `STICKY`. -/
theorem test_step_clearSticky : ends (step (script (.write 0x04 0x10) { buffer 1 1 1 [7] with sticky := true }))
    (fun t => t.statusWord == 0) = true := by decide
/-- A step runs the instruction that `withFetchWord` places after reset, a command or a chunk. -/
theorem test_withFetchWord_command : ends (step (State.reset.withFetchWord 32 0x00000006)) (fun t =>
    t.statusWord == 0x34) = true := by decide
theorem test_withFetchWord_raw : ends (step (State.reset.withFetchWord 8 0x01)) (fun t =>
    t.busy && t.dec.cnt == 2 && t.dec.hd == 0x01) = true := by decide
theorem test_withFetchWord_run : ends (step (State.reset.withFetchWord 8 0x82)) (fun t =>
    t.busy && t.dec.cnt == 3 && t.dec.hd == 0x82) = true := by decide

/-! ### Witnesses: what the statements' hypotheses ask for -/

/-- The invariant of a state between commands, from its decidable parts. -/
theorem inv_of_idle {s : State} (hb : s.busy = false)
    (h : 4 ≤ s.capr ∧ s.capr < 2 ^ 31 ∧ s.pm.wf ∧ s.sh.wf ∧ s.pm.below s.capr ∧ s.sh.below s.capr ∧
      (s.geometryZero ∨ s.geometryOK) ∧ s.holds s.dataSize) : s.Inv :=
  ⟨h.1, h.2.1, h.2.2.1, h.2.2.2.1, h.2.2.2.2.1, h.2.2.2.2.2.1, h.2.2.2.2.2.2.1, fun _ => h.2.2.2.2.2.2.2,
    fun h => absurd h (by simp [hb])⟩

/-- The invariant of a DECODE in progress, from its decidable parts. -/
theorem inv_of_busy {s : State} (hb : s.busy = true)
    (h : 4 ≤ s.capr ∧ s.capr < 2 ^ 31 ∧ s.pm.wf ∧ s.sh.wf ∧ s.pm.below s.capr ∧ s.sh.below s.capr ∧
      s.geometryOK ∧ s.dec.n = s.pixelCount ∧ s.dec.cnt ≤ s.dec.n ∧ s.dec.wp = s.dec.cnt * s.bpp ∧
      s.dec.pos0 ≤ s.inS.pos ∧ s.holds s.dec.wp) : s.Inv :=
  ⟨h.1, h.2.1, h.2.2.1, h.2.2.2.1, h.2.2.2.2.1, h.2.2.2.2.2.1, .inr h.2.2.2.2.2.2.1,
    fun h => absurd h (by simp [hb]), fun _ => ⟨h.2.2.2.2.2.2.1, h.2.2.2.2.2.2.2.1, h.2.2.2.2.2.2.2.2.1,
      h.2.2.2.2.2.2.2.2.2.1, h.2.2.2.2.2.2.2.2.2.2.1, h.2.2.2.2.2.2.2.2.2.2.2⟩⟩

/-- A test that the next state passes says there is one. -/
theorem next_of_ends {r : Host.Outcome State Fault Refusal} {p : State → Bool} (h : ends r p = true) :
    ∃ t, r = .next t ∧ p t = true := by
  cases r with
  | next t => exact ⟨t, rfl, h⟩
  | fault _ => cases h
  | refused _ => cases h

/-- The buffers the witnesses use. -/
def rows : State := buffer 2 3 1 [1, 2, 3, 4, 5, 6]
def line : State := buffer 6 1 1 [1, 2, 3, 4, 5, 6]
def abba : State := buffer 4 1 1 [0xAA, 0xBB, 0xBB, 0xAA]

theorem witness_ready : rows.Ready := ⟨inv_of_idle rfl (by decide), rfl, rfl⟩
theorem witness_ready_line : line.Ready := ⟨inv_of_idle rfl (by decide), rfl, rfl⟩
theorem witness_ready_abba : abba.Ready := ⟨inv_of_idle rfl (by decide), rfl, rfl⟩
theorem witness_inv_empty : fresh.Inv ∧ fresh.busy = false ∧ fresh.isEmpty = true :=
  ⟨inv_of_idle rfl (by decide), rfl, rfl⟩

theorem witness_DecodeInvertsEncode : (Instr.raw 1).WellFormed ∧ (Instr.raw 128).WellFormed ∧
    (Instr.run 1).WellFormed ∧ (Instr.run 128).WellFormed ∧ Instr.scale.WellFormed := by decide

theorem witness_EncodeInvertsDecode : decode (.header 0x80) = .ok (.run 1) ∧ decode (.header 0x7F) = .ok (.raw 128) ∧
    decode (.command 8) = .ok .scale := by decide

theorem witness_EveryHeaderIsOneChunk : (0x7F : Byte).getLsbD 7 = false ∧ (0x80 : Byte).getLsbD 7 = true := by decide

theorem witness_IllegalWordsChangeOnlyStatus : rows.busy = false ∧
    (∀ c, (script (.write 0x00 c) rows).host = .write 0x00 c :: []) ∧
    (0 : Word).extractLsb' 0 4 = 0 ∧ 9 ≤ ((9 : Word).extractLsb' 0 4).toNat ∧ (0x18 : Word).extractLsb' 4 28 ≠ 0 :=
  ⟨rfl, fun _ => rfl, by decide, by decide, by decide⟩

theorem witness_CommandWriteRunsItsInstruction : rows.busy = false ∧
    (script (.write 0x00 1) rows).host = .write 0x00 1 :: [] ∧ decode (.command 1) = .ok .alloc :=
  ⟨rfl, rfl, by decide⟩

theorem witness_ChunkStepRunsItsInstruction :
    (begun 2 1 1 [0x00, 9]).busy = true ∧ (begun 2 1 1 [0x00, 9]).dec.cnt < (begun 2 1 1 [0x00, 9]).dec.n ∧
    (begun 2 1 1 [0x00, 9]).incoming = 0x00 :: [9] ∧ decode (.header 0x00) = .ok (.raw 1) := by decide

/-- Both clauses: nothing left to fill, and nothing left to take. -/
theorem witness_ChunkStepEndsTheDecode :
    (∃ s : State, s.busy = true ∧ s.dec.n ≤ s.dec.cnt) ∧
    ∃ s : State, s.busy = true ∧ s.dec.cnt < s.dec.n ∧ s.incoming = [] :=
  ⟨⟨{ begun 2 1 1 [] with dec := { (begun 2 1 1 []).dec with cnt := 2 } }, by decide⟩, begun 2 1 1 [], by decide⟩

theorem witness_IdleHoldsEverything : State.reset.busy = false ∧ State.reset.host = [] := ⟨rfl, rfl⟩

/-- One script for each clause on host accesses. -/
theorem witness_HostWritesReachTheirRegister : rows.busy = false ∧
    ∀ o v, (script (.write o v) rows).host = .write o v :: [] := ⟨rfl, fun _ _ => rfl⟩

theorem witness_HostReadsReturnTheirRegister : rows.busy = false ∧
    ∀ o, (script (.read o) rows).host = .read o :: [] := ⟨rfl, fun _ => rfl⟩

theorem witness_CapacityIsReadOnly : rows.busy = false ∧ (∃ t, step rows = .next t) ∧
    (script (.read 0x24) rows).host = .read 0x24 :: [] ∧ (script (.write 0x24 9) rows).host = .write 0x24 9 :: [] :=
  ⟨rfl, (next_of_ends (p := fun _ => true) (by decide)).imp fun _ h => h.1, rfl, rfl⟩

theorem witness_OtherOffsetsAreRefused :
    0x28 ∉ [0x00, 0x04, 0x08, 0x0C, 0x10, 0x14, 0x18, 0x1C, 0x20, 0x24] ∧
    0x01 ∉ [0x00, 0x04, 0x08, 0x0C, 0x10, 0x14, 0x18, 0x1C, 0x20, 0x24] ∧
    (script (.read 0x28) rows).host = .read 0x28 :: [] ∧ rows.busy = false := by decide

theorem witness_ResetInputResetsTheBlock : rows.busy = false ∧ (script .reset rows).host = .reset :: [] := ⟨rfl, rfl⟩

/-- A next state of every instruction, for the frames. -/
theorem witness_frames :
    (∃ t, exec (.raw 1) (begun 2 1 1 [9]) = .next t) ∧ (∃ t, exec (.run 1) (begun 2 1 1 [9]) = .next t) ∧
    (∃ t, exec .alloc (ops 2 2 1 fresh) = .next t) ∧ (∃ t, exec .getpix rows = .next t) ∧
    (∃ t, exec .setpix rows = .next t) ∧ (∃ t, exec .decode (ops 1 1 1 (feed [0x80, 9] fresh)) = .next t) ∧
    (∃ t, exec .encode rows = .next t) ∧ (∃ t, exec .flipv rows = .next t) ∧ (∃ t, exec .fliph rows = .next t) ∧
    ∃ t, exec .scale (ops 1 1 0 rows) = .next t := by
  refine ⟨?_, ?_, ?_, ?_, ?_, ?_, ?_, ?_, ?_, ?_⟩ <;>
    exact (next_of_ends (p := fun _ => true) (by decide)).imp fun _ h => h.1

theorem witness_CommandsNeverEmptyTheBuffer : ∃ t, exec .fliph rows = .next t ∧ rows.isEmpty = false :=
  (next_of_ends (p := fun _ => true) (by decide)).imp fun _ h => ⟨h.1, rfl⟩

/-- A state for each cause. -/
theorem witness_InvalidDimensionsCauses :
    int32 (ops 0 1 0 rows).arg0 ≤ 0 ∧ int32 (ops 1 0xFFFFFFFF 0 rows).arg1 ≤ 0 ∧ fresh.pbBpp = 0 ∧
    int32 (ops 1 1 2 rows).arg2 ∉ [1, 3, 4] ∧ int32 65 * int32 1 * int32 1 > rows.capr ∧
    int32 (ops 9 8 0 rows).arg0 * int32 (ops 9 8 0 rows).arg1 * int32 rows.pbBpp > rows.capr := by decide

/-- One column too far, and one row too early. -/
theorem witness_OutOfBoundsCause : rows.isEmpty = false ∧
    ¬((0 : Int) ≤ int32 (ops 2 0 0 rows).arg0 ∧ int32 (ops 2 0 0 rows).arg0 < rows.width ∧
      0 ≤ int32 (ops 2 0 0 rows).arg1 ∧ int32 (ops 2 0 0 rows).arg1 < rows.height) ∧
    ¬((0 : Int) ≤ int32 (ops 0 0xFFFFFFFF 0 rows).arg0 ∧ int32 (ops 0 0xFFFFFFFF 0 rows).arg0 < rows.width ∧
      0 ≤ int32 (ops 0 0xFFFFFFFF 0 rows).arg1 ∧ int32 (ops 0 0xFFFFFFFF 0 rows).arg1 < rows.height) := by decide

/-- Each error from some command. -/
theorem witness_EarlyErrorsLeaveNoTrace :
    (∃ t, exec .encode fresh = .next t ∧ (t.result == .invalidDimensions) = true) ∧
    (∃ t, exec .getpix (ops 2 0 0 rows) = .next t ∧ (t.result == .outOfBounds) = true) ∧
    (∃ t, exec .decode (ops 1 1 1 fresh) = .next t ∧ (t.result == .truncatedStream) = true) ∧
    (∃ t, exec .decode (ops 1 1 1 (feed [0x81, 9] fresh)) = .next t ∧ (t.result == .pixelCountOverflow) = true) ∧
    ∃ t, exec .encode { rows with outS := ⟨[], [false]⟩ } = .next t ∧ (t.result == .writeFailure) = true :=
  ⟨next_of_ends (by decide), next_of_ends (by decide), next_of_ends (by decide), next_of_ends (by decide),
    next_of_ends (by decide)⟩

/-- Exactly the capacity. -/
theorem witness_AllocEstablishesABuffer : (ops 16 1 4 fresh).argsOK := by decide

/-- Both corners of the buffer, for GETPIX and SETPIX. -/
theorem witness_pixelOperands : (ops 1 2 0 rows).Ready ∧ (ops 1 2 0 rows).inBounds (int32 1) (int32 2) ∧
    rows.Ready ∧ rows.inBounds (int32 rows.arg0) (int32 rows.arg1) :=
  ⟨⟨inv_of_idle rfl (by decide), rfl, rfl⟩, by decide, witness_ready, by decide⟩

/-- The last pixels of the buffer, from the last bytes of the stream. -/
theorem witness_RawChunkAppendsItsPixels : (begun 2 1 3 [1, 2, 3, 4, 5, 6]).Inv ∧
    (begun 2 1 3 [1, 2, 3, 4, 5, 6]).busy = true ∧
    (begun 2 1 3 [1, 2, 3, 4, 5, 6]).dec.cnt + 2 ≤ (begun 2 1 3 [1, 2, 3, 4, 5, 6]).dec.n ∧
    2 * (begun 2 1 3 [1, 2, 3, 4, 5, 6]).bpp ≤ (begun 2 1 3 [1, 2, 3, 4, 5, 6]).incoming.length :=
  ⟨inv_of_busy rfl (by decide), by decide⟩

theorem witness_RunChunkRepeatsItsPixel : (begun 2 1 3 [1, 2, 3]).Inv ∧ (begun 2 1 3 [1, 2, 3]).busy = true ∧
    (begun 2 1 3 [1, 2, 3]).dec.cnt + 2 ≤ (begun 2 1 3 [1, 2, 3]).dec.n ∧
    (begun 2 1 3 [1, 2, 3]).bpp ≤ (begun 2 1 3 [1, 2, 3]).incoming.length :=
  ⟨inv_of_busy rfl (by decide), by decide⟩

/-- One short and just enough, for a RAW of five and a RUN of five into four (V-D12, V-D13, V-D10, V-D17). -/
theorem witness_ChunkErrors :
    ((begun 2 2 1 [1, 2, 3, 4]).Inv ∧ (begun 2 2 1 [1, 2, 3, 4]).incoming.length <
      min 5 ((begun 2 2 1 [1, 2, 3, 4]).dec.n - (begun 2 2 1 [1, 2, 3, 4]).dec.cnt + 1) *
        (begun 2 2 1 [1, 2, 3, 4]).bpp) ∧
    ((begun 2 2 1 [1, 2, 3, 4, 5]).Inv ∧
      (begun 2 2 1 [1, 2, 3, 4, 5]).dec.n - (begun 2 2 1 [1, 2, 3, 4, 5]).dec.cnt < 5 ∧
      ((begun 2 2 1 [1, 2, 3, 4, 5]).dec.n - (begun 2 2 1 [1, 2, 3, 4, 5]).dec.cnt + 1) *
        (begun 2 2 1 [1, 2, 3, 4, 5]).bpp ≤ (begun 2 2 1 [1, 2, 3, 4, 5]).incoming.length) ∧
    ((begun 2 2 1 []).Inv ∧ (begun 2 2 1 []).incoming.length < (begun 2 2 1 []).bpp) ∧
    ((begun 2 2 1 [7]).Inv ∧ (begun 2 2 1 [7]).dec.n - (begun 2 2 1 [7]).dec.cnt < 5 ∧
      (begun 2 2 1 [7]).bpp ≤ (begun 2 2 1 [7]).incoming.length) :=
  ⟨⟨inv_of_busy rfl (by decide), by decide⟩, ⟨inv_of_busy rfl (by decide), by decide⟩,
    ⟨inv_of_busy rfl (by decide), by decide⟩, inv_of_busy rfl (by decide), by decide⟩

theorem witness_ChunksStayInTheValidRegion : (begun 2 1 1 [9]).Inv ∧ (begun 2 1 1 [9]).busy = true ∧
    (∃ t, exec (.raw 1) (begun 2 1 1 [9]) = .next t) ∧ ∃ t, exec (.run 1) (begun 2 1 1 [9]) = .next t :=
  ⟨inv_of_busy rfl (by decide), rfl, witness_frames.1, witness_frames.2.1⟩

/-- A stream of two chunks and a trailing byte (V-D29). -/
def twoChunks : List Chunk := [.raw [[1, 2, 3, 4]], .run 1 [5, 6, 7, 8]]
def twoChunksState : State := ops 2 1 4 (feed [0x00, 1, 2, 3, 4, 0x80, 5, 6, 7, 8, 0x99] fresh)

theorem witness_DecodeFillsTheBuffer : twoChunksState.argsOK ∧ (∀ c ∈ twoChunks, c.Fits twoChunksState.wantedBpp) ∧
    streamCount twoChunks = twoChunksState.wantedCount ∧ streamBytes twoChunks <+: twoChunksState.incoming := by
  refine ⟨by decide, ?_, by decide, by decide⟩
  intro c hc
  simp only [twoChunks, List.mem_cons, List.not_mem_nil, or_false] at hc
  rcases hc with rfl | rfl
  · exact ⟨by decide, by decide, by decide⟩
  · exact ⟨by decide, by decide, by decide⟩

theorem witness_DecodeSucceedsOnlyOnExactStreams :
    ∃ t, exec .decode twoChunksState = .next t ∧ (t.result == .ok) = true := next_of_ends (by decide)

/-- The stream ends before a header (V-D16), and inside a run's pixel (V-D21). -/
theorem witness_DecodeReportsATruncatedStream :
    (ops 2 2 1 (feed [0x81, 5] fresh)).argsOK ∧ (Chunk.run 2 [5]).Fits 1 ∧ (Chunk.run 3 [6]).Fits 1 ∧
    streamCount [.run 2 [5]] < (ops 2 2 1 fresh).wantedCount ∧
    ([] : List Byte) <+: (Chunk.run 3 [6]).wanted 2 ∧ ([] : List Byte) ≠ (Chunk.run 3 [6]).wanted 2 ∧
    (ops 2 2 1 (feed [0x81, 5] fresh)).incoming = streamBytes [.run 2 [5]] ++ [] ∧
    ([0x82] : List Byte) <+: (Chunk.run 3 [6]).wanted 2 ∧ ([0x82] : List Byte) ≠ (Chunk.run 3 [6]).wanted 2 ∧
    (ops 2 2 1 (feed [0x81, 5, 0x82] fresh)).incoming = streamBytes [.run 2 [5]] ++ [0x82] :=
  ⟨by decide, ⟨by decide, by decide, by decide⟩, ⟨by decide, by decide, by decide⟩, by decide⟩

/-- V-D24: a RAW of four into two, its first surplus pixel present and a later one missing. -/
theorem witness_DecodeReportsAnOverlongChunk :
    (ops 2 2 1 (feed [0x81, 5, 0x03, 6, 7, 8] fresh)).argsOK ∧ (Chunk.run 2 [5]).Fits 1 ∧
    (Chunk.raw [[6], [7], [8], [9]]).Fits 1 ∧ streamCount [.run 2 [5]] < (ops 2 2 1 fresh).wantedCount ∧
    (ops 2 2 1 fresh).wantedCount < streamCount [.run 2 [5]] + (Chunk.raw [[6], [7], [8], [9]]).count ∧
    streamBytes [.run 2 [5]] ++ (Chunk.raw [[6], [7], [8], [9]]).wanted 2 <+:
      (ops 2 2 1 (feed [0x81, 5, 0x03, 6, 7, 8] fresh)).incoming :=
  ⟨by decide, ⟨by decide, by decide, by decide⟩, ⟨by decide, by decide, by decide⟩, by decide⟩

theorem witness_DecodeAlwaysEndsOneOfThreeWays : twoChunksState.argsOK ∧
    twoChunksState.inS.pos ≤ twoChunksState.inS.data.length := by decide

/-- Two states that differ in the old buffer, `PIX` and `STATUS`. -/
theorem witness_DecodeIgnoresTheOldBuffer : twoChunksState.argsOK ∧
    twoChunksState.sameOperands { twoChunksState with pm := [(0, 7)], pix := 9, sticky := true } ∧
    twoChunksState.pm ≠ [(0, 7)] := by decide

theorem witness_DecodeIsItsChunkSteps : twoChunksState.argsOK := by decide

/-- An empty buffer, an environment that accepts the six bytes, and one that refuses the last. -/
theorem witness_EncodeAppendsItsEncoding : fresh.isEmpty = true ∧ abba.Ready ∧ abba.encoding = some [0x00, 0xAA, 0x81, 0xBB, 0x00, 0xAA] ∧
    (∀ a ∈ abba.outS.answers.take 6, a = true) ∧
    [true, true, true, true, true, false] = List.replicate 5 true ++ false :: [] :=
  ⟨rfl, witness_ready_abba, by decide, by decide, by decide⟩

theorem witness_DecodeRestoresWhatEncodeEmitted : abba.Ready ∧
    (∃ t, exec .encode abba = .next t ∧
      (t.result == .ok && t.outS.data == abba.outS.data ++ [0x00, 0xAA, 0x81, 0xBB, 0x00, 0xAA]) = true) ∧
    (ops 4 1 1 fresh).capr = abba.capr ∧ (ops 4 1 1 fresh).arg0 = abba.pbW ∧ (ops 4 1 1 fresh).arg1 = abba.pbH ∧
    (ops 4 1 1 fresh).arg2 = abba.pbBpp ∧
    [0x00, 0xAA, 0x81, 0xBB, 0x00, 0xAA] <+: (feed [0x00, 0xAA, 0x81, 0xBB, 0x00, 0xAA, 7] (ops 4 1 1 fresh)).incoming :=
  ⟨witness_ready_abba, next_of_ends (by decide), by decide⟩

theorem witness_EncodingIgnoresTheShape : rows.Ready ∧ line.Ready ∧ line.pixelCount = rows.pixelCount ∧
    line.bpp = rows.bpp ∧ line.data = rows.data ∧ line.pbW ≠ rows.pbW :=
  ⟨witness_ready, witness_ready_line, by decide⟩

/-- Up to exactly the capacity. -/
theorem witness_ScaleSelectsNearestPixels : (ops 8 8 0 rows).Ready ∧ int32 (ops 8 8 0 rows).arg0 = (8 : Nat) ∧
    int32 (ops 8 8 0 rows).arg1 = (8 : Nat) ∧ 8 * 8 * (ops 8 8 0 rows).bpp ≤ (ops 8 8 0 rows).capr :=
  ⟨⟨inv_of_idle rfl (by decide), rfl, rfl⟩, by decide⟩

theorem witness_ScaleToOwnSizeIsIdentity : (ops 2 3 0 rows).Ready ∧ (ops 2 3 0 rows).arg0 = (ops 2 3 0 rows).pbW ∧
    (ops 2 3 0 rows).arg1 = (ops 2 3 0 rows).pbH :=
  ⟨⟨inv_of_idle rfl (by decide), rfl, rfl⟩, by decide⟩

/-- Each of the checks, and none of them. -/
theorem witness_ScaleRefusesExactly : (ops 9 8 0 rows).Inv ∧ (ops 9 8 0 rows).busy = false ∧
    ¬(ops 9 8 0 rows).scaleOK ∧ ¬(ops 0 1 0 rows).scaleOK ∧ ¬(ops 1 1 0 fresh).scaleOK ∧ (ops 8 8 0 rows).scaleOK :=
  ⟨inv_of_idle rfl (by decide), by decide⟩

/-- A step between commands and a step inside a DECODE, both from states that meet the invariant. -/
theorem witness_StepKeepsTheInvariant : (script (.write 0x00 6) rows).Inv ∧
    (∃ t, step (script (.write 0x00 6) rows) = .next t) ∧ (begun 2 1 1 [0x00, 9]).Inv ∧
    ∃ t, step (begun 2 1 1 [0x00, 9]) = .next t :=
  ⟨inv_of_idle rfl (by decide), (next_of_ends (p := fun _ => true) (by decide)).imp fun _ h => h.1,
    inv_of_busy rfl (by decide), (next_of_ends (p := fun _ => true) (by decide)).imp fun _ h => h.1⟩

end Sys2Proof.Tests
end

-- The proofs about the capacity (R20), and the frames of the engine's pieces they rest on.
section
/-! SUPPORT. What each piece of the engine leaves alone, whatever the state it starts in. A frame says that `t` with
a few named fields of `s` put back is `s`: every field it does not name is as before. -/

namespace Sys2Proof.Machine

/-! ### The frames -/

/-- The flips write the active bank and their own working values (R120, R122). -/
def FlipFrame (s t : State) : Prop := { t with pm := s.pm, flip := s.flip } = s

/-- A chunk writes the active bank, the decoder's working values and the cursor of `IN` (R91). -/
def ChunkFrame (s t : State) : Prop :=
  { t with pm := s.pm, dec := s.dec, inS := { t.inS with pos := s.inS.pos } } = s

/-- ENCODE writes its own working values and `OUT` (R106). -/
def EncodeFrame (s t : State) : Prop := { t with enc := s.enc, outS := s.outS } = s

/-- SCALE, until it exchanges the banks, writes the shadow bank and its own working values (R132). -/
def ScaleFrame (s t : State) : Prop := { t with sh := s.sh, scl := s.scl } = s

section
variable {s t : State}

theorem FlipFrame.capr_eq (h : FlipFrame s t) : t.capr = s.capr := (congrArg State.capr h :)
theorem ChunkFrame.capr_eq (h : ChunkFrame s t) : t.capr = s.capr := (congrArg State.capr h :)
theorem EncodeFrame.capr_eq (h : EncodeFrame s t) : t.capr = s.capr := (congrArg State.capr h :)
theorem ScaleFrame.capr_eq (h : ScaleFrame s t) : t.capr = s.capr := (congrArg State.capr h :)

end

theorem FlipFrame.refl (s : State) : FlipFrame s s := rfl
theorem ChunkFrame.refl (s : State) : ChunkFrame s s := rfl
theorem EncodeFrame.encodeStart (s : State) : EncodeFrame s (encodeStart s) := rfl
theorem ScaleFrame.scaleStart (s : State) : ScaleFrame s (scaleStart s) := rfl

/-! ### The pieces of the engine keep their frames -/

section
variable {R : Result → State → Prop} {s u : State} {P : State → Prop}

/-- A `for` keeps what its body keeps. -/
theorem forLoop_keeps {body : Nat → State → Eng State} {i n : Nat}
    (hstep : ∀ k v, P v → Eng.Sat True P R (body k v)) (h : P u) : Eng.Sat True P R (forLoop body i n u) :=
  forLoop_sat (fun _ => P) (fun k v _ _ => hstep k v) h

/-- A `while` keeps what its body keeps. -/
theorem whileLoop_keeps {cond : State → Bool} {body : State → Eng State} {n : Nat}
    (hstep : ∀ v, P v → Eng.Sat True P R (body v)) (h : P u) : Eng.Sat True P R (whileLoop cond body n u) :=
  (whileLoop_sat_partial P (fun v hv _ => hstep v hv) h).mono (fun _ => And.left) fun _ _ => id

theorem memWrite_flipFrame (h : FlipFrame s u) (a : Nat) (bs : List Byte) :
    Eng.Sat True (FlipFrame s) R (memWrite u a bs) :=
  (memWrite_sat ..).mono (fun _ ⟨_, hv⟩ => hv ▸ h) fun _ _ => id

theorem shWrite_scaleFrame (h : ScaleFrame s u) (a : Nat) (bs : List Byte) :
    Eng.Sat True (ScaleFrame s) R (shWrite u a bs) :=
  (shWrite_sat ..).mono (fun _ ⟨_, hv⟩ => hv ▸ h) fun _ _ => id

theorem swapRows_frame (h : FlipFrame s u) (i : Nat) : Eng.Sat True (FlipFrame s) R (swapRows i u) :=
  (memRead_sat ..).bind fun line _ => (memRead_sat ..).bind fun _ _ =>
    (memWrite_flipFrame (u := { u with flip := { u.flip with lineBuf := line } }) h ..).bind fun _ hv =>
      memWrite_flipFrame hv ..

theorem swapPixels_frame (h : FlipFrame s u) (y j : Nat) : Eng.Sat True (FlipFrame s) R (swapPixels y j u) :=
  (memRead_sat ..).bind fun pa _ => (memRead_sat ..).bind fun pb _ =>
    (memWrite_flipFrame (u := { u with flip := { u.flip with pa := pa, pb := pb } }) h ..).bind fun _ hv =>
      memWrite_flipFrame hv ..

theorem mirrorRow_frame (h : FlipFrame s u) (y : Nat) : Eng.Sat True (FlipFrame s) R (mirrorRow y u) :=
  forLoop_keeps (fun j _ hv => swapPixels_frame hv y j) h

theorem readPixel_frame (h : ChunkFrame s u) :
    Eng.Sat True (ChunkFrame s) (fun e v => streamError e ∧ ChunkFrame s v) (readPixel u) := by
  rw [readPixel_eq]
  split
  · exact h
  · exact ⟨.inl rfl, h⟩

theorem append_frame (h : ChunkFrame s u) :
    Eng.Sat True (ChunkFrame s) (fun e v => streamError e ∧ ChunkFrame s v) (append u) := by
  unfold append
  split
  · exact ⟨.inr rfl, h⟩
  · exact (memWrite_sat ..).bind fun v hv => by obtain ⟨-, rfl⟩ := hv; exact h

theorem rawBody_frame (h : ChunkFrame s u) (n : Nat) :
    Eng.Sat True (ChunkFrame s) (fun e v => streamError e ∧ ChunkFrame s v) (rawBody n u) :=
  forLoop_keeps (fun _ _ hv => (readPixel_frame hv).bind fun _ => append_frame) h

theorem runBody_frame (h : ChunkFrame s u) (n : Nat) :
    Eng.Sat True (ChunkFrame s) (fun e v => streamError e ∧ ChunkFrame s v) (runBody n u) :=
  (readPixel_frame h).bind fun _ => forLoop_keeps fun _ _ => append_frame

/-- The search for a run only reads the bank, so it raises nothing. -/
theorem extendRun_sat (s : State) (room : Nat) (e : Encoder) :
    Eng.Sat True (fun _ => True) R (extendRun s room e) := by
  induction room generalizing e with
  | zero => trivial
  | succ room ih =>
    unfold extendRun
    split
    · refine (memRead_sat ..).bind fun a _ => (memRead_sat ..).bind fun b _ => ?_
      dsimp only
      split
      · trivial
      · split
        · trivial
        · exact ih _
    · trivial

theorem outPut_frame (h : EncodeFrame s u) (b : Byte) :
    Eng.Sat True (EncodeFrame s) (fun e v => e = .writeFailure ∧ EncodeFrame s v) (outPut u b) :=
  (outPut_sat u b).mono (fun v hv => by subst hv; exact h) fun e v hv => by
    obtain ⟨he, rfl⟩ := hv; exact ⟨he, h⟩

theorem outPutAll_frame (h : EncodeFrame s u) (bs : List Byte) :
    Eng.Sat True (EncodeFrame s) (fun e v => e = .writeFailure ∧ EncodeFrame s v) (outPutAll u bs) := by
  induction bs generalizing u with
  | nil => exact h
  | cons b bs ih => exact (outPut_frame h b).bind fun _ => ih

theorem encodeChunk_frame (h : EncodeFrame s u) :
    Eng.Sat True (EncodeFrame s) (fun e v => e = .writeFailure ∧ EncodeFrame s v) (encodeChunk u) :=
  (extendRun_sat u 128 _).bind fun e _ =>
    (outPut_frame (u := { u with enc := { e with cur := e.cur + e.rl } }) h _).bind fun _ hv =>
      (memRead_sat ..).bind fun bs _ => outPutAll_frame hv bs

theorem encodeLoop_frame (h : EncodeFrame s u) :
    Eng.Sat True (EncodeFrame s) (fun e v => e = .writeFailure ∧ EncodeFrame s v) (encodeLoop u) :=
  whileLoop_keeps (fun _ => encodeChunk_frame) h

theorem emitPixel_frame (h : ScaleFrame s u) : Eng.Sat True (ScaleFrame s) R (emitPixel u) :=
  (memRead_sat ..).bind fun _ _ => (shWrite_scaleFrame h ..).bind fun _ hv => hv

theorem scaleColumn_frame (h : ScaleFrame s u) (i : Nat) : Eng.Sat True (ScaleFrame s) R (scaleColumn i u) := by
  refine whileLoop_keeps (fun _ => emitPixel_frame) ?_
  exact h

theorem commitRow_frame (h : ScaleFrame s u) : Eng.Sat True (ScaleFrame s) R (commitRow u) := by
  unfold commitRow
  split
  · exact (shRead_sat ..).bind fun _ _ => (shWrite_scaleFrame h ..).bind fun _ hv => hv
  · exact h

theorem scaleRow_frame (h : ScaleFrame s u) (j : Nat) : Eng.Sat True (ScaleFrame s) R (scaleRow j u) := by
  refine (forLoop_keeps (P := ScaleFrame s) (fun i _ hv => scaleColumn_frame hv i) ?_).bind fun v hv => ?_
  · exact h
  · refine whileLoop_keeps (fun _ => commitRow_frame) ?_
    exact hv

theorem scaleBody_frame (s : State) :
    Eng.Sat True (fun t => ∃ u, ScaleFrame s u ∧ t = exchangeBanks u) R (scaleBody s) :=
  (forLoop_keeps (fun j _ hv => scaleRow_frame hv j) (ScaleFrame.scaleStart s)).bind
    fun u hu => ⟨u, hu, rfl⟩

end

/-! ### From what the pseudocode can do to how the command ends -/

section
variable {F : Prop} {Q : State → Prop} {R : Result → State → Prop} {r : Eng State} {t : State}

theorem Eng.Sat.settle_next (hr : Eng.Sat F Q R r) (h : settle r = .next t) :
    (∃ u, Q u ∧ t = complete u) ∨ ∃ e u, R e u ∧ t = raise e u := by
  obtain ⟨u, rfl, rfl⟩ | ⟨e, u, rfl, rfl⟩ := settle_eq_next h
  · exact .inl ⟨u, hr, rfl⟩
  · exact .inr ⟨e, u, hr, rfl⟩

theorem Eng.Sat.settleScrub_next (hr : Eng.Sat F Q R r) (h : settleScrub r = .next t) :
    (∃ u, Q u ∧ t = complete (scrub u)) ∨ ∃ e u, R e u ∧ t = raise e (scrub u) := by
  obtain ⟨u, rfl, rfl⟩ | ⟨e, u, rfl, rfl⟩ := settleScrub_eq_next h
  · exact .inl ⟨u, hr, rfl⟩
  · exact .inr ⟨e, u, hr, rfl⟩

/-- Pseudocode that raises nothing ends its command with `OK`. -/
theorem Eng.Sat.settleScrub_complete (hr : Eng.Sat F Q (fun _ _ => False) r) (h : settleScrub r = .next t) :
    ∃ u, Q u ∧ t = complete (scrub u) :=
  (hr.settleScrub_next h).resolve_right fun ⟨_, _, hf, _⟩ => hf

theorem Eng.Sat.settleDecode_next (hr : Eng.Sat F Q R r) (h : settleDecode r = .next t) :
    (∃ u, Q u ∧ t = finishDecode u) ∨ ∃ e u, R e u ∧ t = abortDecode e u := by
  obtain ⟨u, rfl, rfl⟩ | ⟨e, u, rfl, rfl⟩ := settleDecode_eq_next h
  · exact .inl ⟨u, hr, rfl⟩
  · exact .inr ⟨e, u, hr, rfl⟩

theorem Eng.Sat.settleChunk_next (hr : Eng.Sat F Q R r) (h : settleChunk r = .next t) :
    Q t ∨ ∃ e u, R e u ∧ t = abortDecode e u := by
  obtain rfl | ⟨e, u, rfl, rfl⟩ := settleChunk_eq_next h
  · exact .inl hr
  · exact .inr ⟨e, u, hr, rfl⟩

end

/-! ### What each instruction can do -/

/-- A chunk leaves its DECODE in progress, or ends it in a stream error (R95, R96). -/
def ChunkEnds (s t : State) : Prop :=
  ChunkFrame s t ∨ ∃ e u, (streamError e ∧ ChunkFrame s u) ∧ t = abortDecode e u

/-- A flip refuses an empty buffer, or ends with `OK` (R125). -/
def FlipEnds (s t : State) : Prop :=
  t = raise .invalidDimensions s ∨ ∃ u, FlipFrame s u ∧ t = complete (scrub u)

/-- The errors of GETPIX and SETPIX (R154, R155). -/
def pixelError (e : Result) : Prop := e = .invalidDimensions ∨ e = .outOfBounds

section
variable {s t : State}

theorem execRaw_next {n : Nat} (h : execRaw n s = .next t) : ChunkEnds s t :=
  (rawBody_frame (.refl s) n).settleChunk_next h

theorem execRun_next {n : Nat} (h : execRun n s = .next t) : ChunkEnds s t :=
  (runBody_frame (.refl s) n).settleChunk_next h

theorem execAlloc_next (h : execAlloc s = .next t) :
    t = raise .invalidDimensions s ∨
      (s.argsOK ∧ t = complete (drawData (setGeometry s.arg0 s.arg1 s.arg2 s))) := by
  unfold execAlloc at h
  split at h
  · cases h; exact .inr ⟨‹_›, rfl⟩
  · cases h; exact .inl rfl

/-- The two checks of GETPIX and SETPIX pass, or one raises with the state as it was. -/
theorem requirePixel_sat {F : Prop} {Q : State → Prop} {f : Eng State}
    (hf : s.isEmpty = false → s.inBounds s.argX s.argY → Eng.Sat F Q (fun e u => pixelError e ∧ u = s) f) :
    Eng.Sat F Q (fun e u => pixelError e ∧ u = s) (do requireBuffer s; requireInBounds s; f) := by
  rw [requireBuffer_eq, requireInBounds_eq]
  split
  · exact ⟨.inl rfl, rfl⟩
  · split
    · exact hf (by simpa using ‹¬ s.isEmpty = true›) ‹_›
    · exact ⟨.inr rfl, rfl⟩

theorem execGetpix_next (h : execGetpix s = .next t) :
    (∃ bs, t = complete { s with pix := packPixel bs }) ∨ ∃ e, pixelError e ∧ t = raise e s := by
  have hbody : Eng.Sat True (fun u => ∃ bs, u = { s with pix := packPixel bs }) (fun e u => pixelError e ∧ u = s)
      (getpixBody s) :=
    requirePixel_sat fun _ _ => (memRead_sat ..).bind fun bs _ => (Eng.sat_pure _).2 ⟨bs, rfl⟩
  obtain ⟨_, ⟨bs, rfl⟩, ht⟩ | ⟨e, _, ⟨he, rfl⟩, ht⟩ := hbody.settle_next h
  · exact .inl ⟨bs, ht⟩
  · exact .inr ⟨e, he, ht⟩

theorem execSetpix_next (h : execSetpix s = .next t) :
    t = complete { s with pm := s.pm.putAll s.argAddr (unpackPixel s.pix s.bpp) } ∨
      ∃ e, pixelError e ∧ t = raise e s := by
  have hbody : Eng.Sat True (fun u => u = { s with pm := s.pm.putAll s.argAddr (unpackPixel s.pix s.bpp) })
      (fun e u => pixelError e ∧ u = s) (setpixBody s) :=
    requirePixel_sat fun _ _ => (memWrite_sat ..).mono (fun _ => And.right) fun _ _ => id
  obtain ⟨_, rfl, ht⟩ | ⟨e, _, ⟨he, rfl⟩, ht⟩ := hbody.settle_next h
  · exact .inl ht
  · exact .inr ⟨e, he, ht⟩

theorem execDecode_next (h : execDecode s = .next t) :
    t = raise .invalidDimensions s ∨
      (∃ u, (DecRel (decodeStart s) u ∧ u.dec.n ≤ u.dec.cnt) ∧ t = finishDecode u) ∨
      ∃ e u, (streamError e ∧ DecRel (decodeStart s) u) ∧ t = abortDecode e u := by
  unfold execDecode at h
  split at h
  · exact .inr ((decodeLoop_sat decodeStart_rel (Nat.le_refl _) (.inr trivial)).settleDecode_next h)
  · cases h; exact .inl rfl

theorem execEncode_next (h : execEncode s = .next t) :
    t = raise .invalidDimensions s ∨ (∃ u, EncodeFrame s u ∧ t = complete (scrub u)) ∨
      ∃ e u, (e = .writeFailure ∧ EncodeFrame s u) ∧ t = raise e (scrub u) := by
  unfold execEncode at h
  split at h
  · cases h; exact .inl rfl
  · exact .inr ((encodeLoop_frame (.encodeStart s)).settleScrub_next h)

theorem execFlipv_next (h : execFlipv s = .next t) : FlipEnds s t := by
  unfold execFlipv at h
  split at h
  · cases h; exact .inl rfl
  · exact .inr ((forLoop_keeps (fun i _ hv => swapRows_frame hv i) (.refl s)).settleScrub_complete h)

theorem execFliph_next (h : execFliph s = .next t) : FlipEnds s t := by
  unfold execFliph at h
  split at h
  · cases h; exact .inl rfl
  · exact .inr ((forLoop_keeps (fun y _ hv => mirrorRow_frame hv y) (.refl s)).settleScrub_complete h)

theorem execScale_next (h : execScale s = .next t) :
    t = raise .invalidDimensions s ∨ ∃ u, ScaleFrame s u ∧ t = complete (scrub (exchangeBanks u)) := by
  unfold execScale at h
  split at h
  · obtain ⟨_, ⟨u, hu, rfl⟩, ht⟩ := (scaleBody_frame s).settleScrub_complete h
    exact .inr ⟨u, hu, ht⟩
  · cases h; exact .inl rfl

/-! ### The capacity (R20) -/

/-- However a chunk ends, the capacity is as before. -/
theorem ChunkEnds.capr_eq (h : ChunkEnds s t) : t.capr = s.capr := by
  obtain h | ⟨e, u, ⟨-, hu⟩, rfl⟩ := h
  · exact h.capr_eq
  · rw [abortDecode_capr, hu.capr_eq]

/-- However a flip ends, the capacity is as before. -/
theorem FlipEnds.capr_eq (h : FlipEnds s t) : t.capr = s.capr := by
  obtain rfl | ⟨u, hu, rfl⟩ := h
  · rfl
  · exact hu.capr_eq

theorem exec_capr {i : Instr} (h : exec i s = .next t) : t.capr = s.capr := by
  cases i with
  | raw n => exact (execRaw_next h).capr_eq
  | run n => exact (execRun_next h).capr_eq
  | alloc => obtain rfl | ⟨-, rfl⟩ := execAlloc_next h <;> rfl
  | getpix => obtain ⟨bs, rfl⟩ | ⟨e, -, rfl⟩ := execGetpix_next h <;> rfl
  | setpix => obtain rfl | ⟨e, -, rfl⟩ := execSetpix_next h <;> rfl
  | decode =>
    obtain rfl | ⟨u, ⟨hu, -⟩, rfl⟩ | ⟨e, u, ⟨-, hu⟩, rfl⟩ := execDecode_next h
    · rfl
    · rw [finishDecode_capr, hu.capr_eq, decodeStart_capr]
    · rw [abortDecode_capr, hu.capr_eq, decodeStart_capr]
  | encode =>
    obtain rfl | ⟨u, hu, rfl⟩ | ⟨e, u, ⟨-, hu⟩, rfl⟩ := execEncode_next h
    · rfl
    · exact hu.capr_eq
    · exact hu.capr_eq
  | flipv => exact (execFlipv_next h).capr_eq
  | fliph => exact (execFliph_next h).capr_eq
  | scale =>
    obtain rfl | ⟨u, hu, rfl⟩ := execScale_next h
    · rfl
    · exact hu.capr_eq

/-- An accepted write to a register other than `CMD` keeps the capacity. -/
@[simp] theorem writeReg_capr (s : State) (v : Word) (r : Reg) : (s.writeReg v r).capr = s.capr := by
  cases r <;> rfl

theorem startCommand_capr {c : Word} (h : startCommand c s = .next t) : t.capr = s.capr := by
  unfold startCommand at h
  split at h
  · exact exec_capr h
  · cases h; rfl

theorem hostWrite_capr {offset : Nat} {v : Word} (h : hostWrite offset v s = .next t) : t.capr = s.capr := by
  unfold hostWrite at h
  split at h
  · exact startCommand_capr h
  · cases h; exact writeReg_capr ..
  · cases h

theorem hostRead_capr {offset : Nat} (h : hostRead offset s = .next t) : t.capr = s.capr := by
  unfold hostRead at h
  split at h
  · cases h; rfl
  · cases h

theorem hostStep_capr {op : HostOp} (h : hostStep op s = .next t) : t.capr = s.capr := by
  cases op with
  | write offset v => exact hostWrite_capr h
  | read offset => exact hostRead_capr h
  | reset => cases h; rfl
  | supplyIn data pos failAt => cases h; rfl
  | supplyOut answers => cases h; rfl

theorem idleStep_capr (h : idleStep s = .next t) : t.capr = s.capr := by
  unfold idleStep at h
  split at h
  · cases h; rfl
  · exact (hostStep_capr h).trans rfl

theorem chunkStep_capr (h : chunkStep s = .next t) : t.capr = s.capr := by
  rw [chunkStep, inGet_eq] at h
  split at h
  · cases hs : s.incoming.head? with
    | none => rw [hs] at h; cases h; exact abortDecode_capr ..
    | some b => rw [hs] at h; exact (exec_capr h).trans rfl
  · cases h; exact finishDecode_capr s

theorem step_capr (h : step s = .next t) : t.capr = s.capr := by
  unfold step at h
  split at h
  · exact chunkStep_capr h
  · exact idleStep_capr h

end

/-- An idle block takes the host's next action. -/
theorem step_of_host {s : State} {op : HostOp} {ops : List HostOp} (hb : s.busy = false) (hh : s.host = op :: ops) :
    step s = hostStep op { s with host := ops } := by
  simp [step, idleStep, hb, hh]

/-- Settles O52: `step_capr` for every step, and the two host accesses read off the register map. -/
theorem capacityIsReadOnly : Obligations.CapacityIsReadOnly := by
  intro s
  refine ⟨fun t => step_capr, fun ops hb hh => ?_, fun v ops hb hh => ?_⟩
  · rw [step_of_host hb hh]; rfl
  · rw [step_of_host hb hh]; rfl

end Sys2Proof.Machine
end

-- The proofs about the encodings: chunk headers (R61, R69) and the words that are no command (R71).
section
/-! SUPPORT. What the two decoders answer, by the fields of the header or of the word. -/

namespace Sys2Proof

/-- Bit 7 of a header, its type, as a comparison (R61). -/
theorem header_bit7 (h : Byte) : h.getLsbD 7 = decide (128 ≤ h.toNat) :=
  (BitVec.msb_eq_getLsbD_last h).symm.trans (BitVec.msb_eq_decide h)

/-- Bits 6:0 of a header, the field `L` (R61). -/
theorem header_low7_toNat (h : Byte) : (h.extractLsb' 0 7).toNat = h.toNat % 128 := by
  simp [BitVec.extractLsb'_toNat]

theorem decodeHeader_of_lt {h : Byte} (hh : h.toNat < 128) :
    decodeHeader h = .raw ((h.extractLsb' 0 7).toNat + 1) := by
  rw [decodeHeader, if_pos hh, header_low7_toNat, Nat.mod_eq_of_lt hh]

theorem decodeHeader_of_ge {h : Byte} (hh : 128 ≤ h.toNat) :
    decodeHeader h = .run ((h.extractLsb' 0 7).toNat + 1) := by
  have hcount : h.toNat - 127 = h.toNat % 128 + 1 := by have := h.isLt; omega
  rw [decodeHeader, if_neg (Nat.not_lt.2 hh), header_low7_toNat, hcount]

/-- A word with an `OP` of no command, or with a bit of 31:4 set, is rejected (R71). -/
theorem decodeCommand_illegal {c : Word}
    (hc : c.extractLsb' 0 4 = 0 ∨ 9 ≤ (c.extractLsb' 0 4).toNat ∨ c.extractLsb' 4 28 ≠ 0) :
    decodeCommand c = .error .illegalCommand := by
  unfold decodeCommand
  split
  next hhigh =>
    obtain hzero | hnine | hset := hc
    · rw [hzero]; rfl
    · obtain ⟨k, hk⟩ := Nat.exists_eq_add_of_le' hnine
      rw [hk]; rfl
    · exact absurd hhigh hset
  next => rfl

/-- Settles O3: bit 7 says on which side of 128 the header lies, and each side is one chunk type. -/
theorem everyHeaderIsOneChunk : Obligations.EveryHeaderIsOneChunk := by
  intro h b
  refine ⟨header_bit7 h, fun hraw => ?_, fun hrun => ?_, Nat.le_add_left .., (h.extractLsb' 0 7).isLt⟩
  · have hh : h.toNat < 128 := by rwa [header_bit7, decide_eq_false_iff_not, Nat.not_le] at hraw
    exact ⟨congrArg Except.ok (decodeHeader_of_lt hh), if_pos hh⟩
  · have hh : 128 ≤ h.toNat := by rwa [header_bit7, decide_eq_true_eq] at hrun
    exact ⟨congrArg Except.ok (decodeHeader_of_ge hh), if_neg (Nat.not_lt.2 hh)⟩

end Sys2Proof

namespace Sys2Proof.Machine

/-- Settles O5: the host's write starts a command, `decodeCommand_illegal` rejects its word, and the rejection is a
`raise`, which sets `STATUS` and nothing else. -/
theorem illegalWordsChangeOnlyStatus : Obligations.IllegalWordsChangeOnlyStatus := by
  intro s c ops hb hh hc
  have hdec : decode (.command c) = .error .illegalCommand := decodeCommand_illegal hc
  calc step s = startCommand c { s with host := ops } := step_of_host hb hh
    _ = .next (raise .illegalCommand { s with host := ops }) := by rw [startCommand, hdec]

end Sys2Proof.Machine
end

-- The proof about a DECODE of exactly the pixels asked for (R98, R99, R101 (iii)).
section
/-! SUPPORT. A DECODE whose stream begins with the chunks it wants: its loop appends their data and stops, and its end
draws hidden values only. -/

namespace Sys2Proof.Machine

/-! ### What a chunk leaves alone, clause by clause -/

section
variable {s t : State} (h : ChunkFrame s t)
include h

theorem ChunkFrame.sameOperands : s.sameOperands t :=
  ⟨(congrArg State.arg0 h :), (congrArg State.arg1 h :), (congrArg State.arg2 h :), h.capr_eq⟩

theorem ChunkFrame.sameGeometry : s.sameGeometry t :=
  ⟨(congrArg State.pbW h :), (congrArg State.pbH h :), (congrArg State.pbBpp h :)⟩

theorem ChunkFrame.sameShadow : s.sameShadow t := ⟨(congrArg State.sh h :), (congrArg State.bank h :)⟩

theorem ChunkFrame.sameScript : s.sameScript t := ⟨(congrArg State.host h :), (congrArg State.reads h :)⟩

theorem ChunkFrame.sticky_eq : t.sticky = s.sticky := (congrArg State.sticky h :)

theorem ChunkFrame.pix_eq : t.pix = s.pix := (congrArg State.pix h :)

theorem ChunkFrame.outS_eq : t.outS = s.outS := (congrArg State.outS h :)

theorem ChunkFrame.dataSize_eq : t.dataSize = s.dataSize := (congrArg State.dataSize h :)

end

/-! ### A DECODE of exactly the pixels asked for -/

section
variable {s : State} {cs : List Chunk}

/-- A DECODE whose geometry passes the check runs its loop (R91). -/
theorem exec_decode_of_argsOK (h : s.argsOK) : exec .decode s = settleDecode (decodeLoop (decodeStart s)) := if_pos h

/-- Chunks that supply exactly the pixels still to fill: the loop takes them all, writes their data where the next
pixel goes, and ends (R98, R101 (iii)). -/
theorem decodeLoop_exact (hF : Filling s) (hf : ∀ c ∈ cs, c.Fits s.bpp) (hc : s.dec.cnt + streamCount cs = s.dec.n)
    (hi : streamBytes cs <+: s.incoming) :
    ∃ u, decodeLoop s = .ok u ∧ ChunkFrame s u ∧ u.pm = s.pm.putAll s.dec.wp (streamData cs) ∧
      u.inS = { s.inS with pos := s.inS.pos + (streamBytes cs).length } := by
  have hfuel : cs.length ≤ s.dec.n := Nat.le_trans (length_le_streamCount hf) (by omega)
  obtain ⟨hd, px, hloop⟩ := whileLoop_chunks cs s s.dec.n hF hf (Nat.le_of_eq hc) hi hfuel
  refine ⟨_, hloop.trans (whileLoop_done ?_), rfl, rfl, rfl⟩
  show decide (s.dec.cnt + streamCount cs < s.dec.n) = false
  simp [hc]

/-- The data of chunks that supply `w*h` pixels is exactly as long as the valid region a DECODE begins with (R99). -/
theorem streamData_length_eq_dataSize (hf : ∀ c ∈ cs, c.Fits s.wantedBpp) (hc : streamCount cs = s.wantedCount) :
    (streamData cs).length = (decodeStart s).dataSize := by
  rw [streamData_length hf, hc]; rfl

end

/-- Settles O32: `decodeLoop_exact` gives the state `u` the loop ends in. Its bank is the old one with the chunks' data
written over the whole valid region, its cursor stands after the chunks, and `ChunkFrame` says the rest is as before. -/
theorem decodeFillsTheBuffer : Obligations.DecodeFillsTheBuffer := by
  intro s cs hg hf hc hi
  have hcount : (decodeStart s).dec.cnt + streamCount cs = (decodeStart s).dec.n := (Nat.zero_add _).trans hc
  obtain ⟨u, hloop, hframe, hpm, hinS⟩ := decodeLoop_exact (decodeStart_filling hg) hf hcount hi
  rw [decodeStart_pm, decodeStart_dec_wp] at hpm
  have hsize : u.dataSize = (streamData cs).length :=
    hframe.dataSize_eq.trans (streamData_length_eq_dataSize hf hc).symm
  obtain ⟨hw, hh, hbpp⟩ := hframe.sameGeometry
  refine ⟨finishDecode u, by rw [exec_decode_of_argsOK hg, hloop, settleDecode_ok], ⟨rfl, ?sticky, rfl⟩, hw, hh, hbpp,
    ?data, hinS, ?outside, hframe.sameOperands, hframe.pix_eq, hframe.outS_eq, hframe.sameShadow, hframe.sameScript⟩
  case sticky => simpa using hframe.sticky_eq
  case data => rw [State.data, finishDecode_pm, finishDecode_dataSize, hpm, hsize, Memory.bytes_putAll]
  case outside =>
    intro k hk
    rw [finishDecode_dataSize, hsize] at hk
    rw [finishDecode_pm, hpm, Memory.byte_putAll, if_neg hk]

end Sys2Proof.Machine
end

-- The proofs about ENCODE (R113) and about DECODE of what it emitted (R116).
section
/-! SUPPORT. ENCODE is the output of one byte string, that of the chunks its greedy cuts make of the buffer's pixels,
whatever the environment answers. -/

namespace Sys2Proof.Machine

/-! ### What the output of bytes can do -/

section
variable (s : State)

/-- The byte is appended, or its output fails; only `OUT` is touched. -/
theorem outPut_cases (b : Byte) :
    (∃ o : OutStream, outPut s b = .ok { s with outS := o } ∧ o.data = s.outS.data ++ [b]) ∨
      ∃ o, outPut s b = raising .writeFailure { s with outS := o } := by
  have hsat := outPut_sat (F := False) s b
  rcases h : outPut s b with (⟨e, t⟩ | f) | t
  all_goals rw [h] at hsat
  · obtain ⟨rfl, rfl⟩ := hsat; exact .inr ⟨_, rfl⟩
  · exact hsat.elim
  · obtain rfl := hsat; exact .inl ⟨_, rfl, rfl⟩

/-- All the bytes are appended, or the output of one fails; only `OUT` is touched. -/
theorem outPutAll_cases (bs : List Byte) :
    (∃ o : OutStream, outPutAll s bs = .ok { s with outS := o } ∧ o.data = s.outS.data ++ bs) ∨
      ∃ o, outPutAll s bs = raising .writeFailure { s with outS := o } := by
  induction bs generalizing s with
  | nil => exact .inl ⟨s.outS, rfl, (List.append_nil _).symm⟩
  | cons b bs ih =>
    rw [outPutAll]
    obtain ⟨o, h, hdata⟩ | ⟨o, h⟩ := outPut_cases s b
    · simpa [h, hdata] using ih { s with outS := o }
    · exact .inr ⟨o, by rw [h]; rfl⟩

/-- Bytes output in two parts. -/
theorem outPutAll_append (bs cs : List Byte) :
    outPutAll s (bs ++ cs) = outPutAll s bs >>= fun t => outPutAll t cs := by
  induction bs generalizing s with
  | nil => rfl
  | cons b bs ih =>
    simp only [List.cons_append, outPutAll]
    obtain ⟨o, h, -⟩ | ⟨o, h⟩ := outPut_cases s b
    · rw [h, Eng.ok_bind, Eng.ok_bind, ih]
    · rw [h]; rfl

/-- The encoder's values play no part in the output, and none is left when the command ends (R29). -/
theorem settleScrub_outPutAll_enc (e : Encoder) (bs : List Byte) :
    settleScrub (outPutAll { s with enc := e } bs) = settleScrub (outPutAll s bs) := by
  induction bs generalizing s with
  | nil => rfl
  | cons b bs ih =>
    simp only [outPutAll, outPut]
    split
    next => rfl
    next as _ => exact ih { s with outS := ⟨s.outS.data ++ [b], as⟩ }
    next => exact ih { s with outS := ⟨s.outS.data ++ [b], []⟩ }

end

/-! ### The chunk of a finished run -/

/-- The chunk a finished run is emitted as: all its pixels, or the one repeated pixel (R111). -/
def Encoder.chunk (px : Nat → List Byte) (e : Encoder) : Chunk :=
  if e.raw then .raw ((List.range' e.cur e.rl).map px) else .run e.rl (px e.cur)

section
variable {px : Nat → List Byte} {e : Encoder}

theorem Encoder.chunk_of_raw (h : e.raw = true) : e.chunk px = .raw ((List.range' e.cur e.rl).map px) := if_pos h

theorem Encoder.chunk_of_run (h : e.raw = false) : e.chunk px = .run e.rl (px e.cur) := by simp [Encoder.chunk, h]

theorem Encoder.chunk_count : (e.chunk px).count = e.rl := by
  cases h : e.raw
  · rw [chunk_of_run h]; rfl
  · rw [chunk_of_raw h]; simp [Chunk.count]

theorem Encoder.chunk_header (h1 : 1 ≤ e.rl) : (e.chunk px).header = e.header := by
  cases h : e.raw
  · rw [chunk_of_run h, Encoder.header, h, Chunk.header, show 128 + (e.rl - 1) = e.rl + 127 by omega]; rfl
  · rw [chunk_of_raw h, Encoder.header, h]; simp [Chunk.header, rawHeader]

/-- All pixels of a finished repeat run are its first one (R108). -/
theorem Encoder.Cut.pixel_eq (hcut : e.Cut px) (h : e.raw = false) {k : Nat} (hk : k < e.rl) :
    px (e.cur + k) = px e.cur := by
  induction k with
  | zero => rfl
  | succ k ih => exact ((hcut.repeats h).2 k hk).symm.trans (ih (by omega))

/-- A finished run's chunk stands for the pixels of the run. -/
theorem Encoder.Cut.chunk_data (hcut : e.Cut px) : (e.chunk px).data = ((List.range' e.cur e.rl).map px).flatten := by
  cases h : e.raw
  · have hrep : (List.range' e.cur e.rl).map px = List.replicate e.rl (px e.cur) := by
      refine List.eq_replicate_iff.2 ⟨by simp, fun p hp => ?_⟩
      obtain ⟨i, hi, rfl⟩ := List.mem_map.1 hp
      obtain ⟨k, hk, rfl⟩ := List.mem_range'.1 hi
      simpa using hcut.pixel_eq h hk
    rw [chunk_of_run h, hrep]; rfl
  · rw [chunk_of_raw h]; rfl

/-- A finished run's chunk is one the format can express (R109). -/
theorem Encoder.Cut.chunk_fits {b : Nat} (hcut : e.Cut px) (hpx : ∀ i, i < e.n → (px i).length = b) :
    (e.chunk px).Fits b := by
  have h1 := hcut.one_le
  have hmax := hcut.le_max
  have hin := hcut.inside
  cases h : e.raw
  · rw [chunk_of_run h]
    exact ⟨h1, hmax, hpx _ (by omega)⟩
  · rw [chunk_of_raw h]
    refine ⟨by simpa using h1, by simpa using hmax, fun p hp => ?_⟩
    obtain ⟨i, hi, rfl⟩ := List.mem_map.1 hp
    exact hpx i (by have := List.mem_range'_1.1 hi; omega)

end

/-! ### The chunks of a whole buffer -/

/-- The chunks of the greedy cuts of the pixels from a given one up to number `n`: each is that of a finished run, and
the next run starts where it ends (R106, R112). -/
inductive GreedyChunks (px : Nat → List Byte) (n : Nat) : Nat → List Chunk → Prop
  | done : GreedyChunks px n n []
  | chunk {e : Encoder} {cs : List Chunk} (hn : e.n = n) (hcut : e.Cut px)
      (hrest : GreedyChunks px n (e.cur + e.rl) cs) : GreedyChunks px n e.cur (e.chunk px :: cs)

section
variable {px : Nat → List Byte} {n i : Nat} {cs : List Chunk}

/-- Greedy chunks stand for all the pixels from the first one on. -/
theorem GreedyChunks.count_eq (h : GreedyChunks px n i cs) : i + streamCount cs = n := by
  induction h with
  | done => rfl
  | chunk hn hcut hrest ih =>
    rw [← ih]; simp [streamCount, Encoder.chunk_count, Nat.add_assoc]

theorem GreedyChunks.data_eq (h : GreedyChunks px n i cs) :
    streamData cs = ((List.range' i (streamCount cs)).map px).flatten := by
  induction h with
  | done => rfl
  | @chunk e cs hn hcut hrest ih =>
    calc streamData (e.chunk px :: cs) = (e.chunk px).data ++ streamData cs := rfl
      _ = ((List.range' e.cur (e.rl + streamCount cs)).map px).flatten := by
        rw [hcut.chunk_data, ih, ← List.range'_append_1, List.map_append, List.flatten_append]
      _ = _ := by rw [← Encoder.chunk_count (px := px) (e := e)]; rfl

theorem GreedyChunks.fits {b : Nat} (h : GreedyChunks px n i cs) (hpx : ∀ i, i < n → (px i).length = b) :
    ∀ c ∈ cs, c.Fits b := by
  induction h with
  | done => simp
  | chunk hn hcut hrest ih => exact List.forall_mem_cons.2 ⟨hcut.chunk_fits (hn ▸ hpx), ih⟩

end

/-! ### The pixels of the bank -/

/-- Pixel number `i` of the buffer, row by row (R43). -/
def State.pixelAt (s : State) (i : Nat) : List Byte := (s.pm.bytes (i * s.bpp) s.bpp).getD []

/-- An ENCODE in progress: its target is the whole buffer, whose data has values and fits the bank. -/
structure Scanning (s : State) : Prop where
  target : s.enc.n = s.pixelCount
  held : s.holds s.dataSize
  fit : s.dataSize ≤ s.capr

section
variable {s : State}

theorem mul_bpp_le_dataSize {i k : Nat} (h : i + k ≤ s.pixelCount) : i * s.bpp + k * s.bpp ≤ s.dataSize := by
  rw [← Nat.add_mul]; exact Nat.mul_le_mul_right _ h

/-- Each pixel of a held buffer reads as its bytes. -/
theorem bytes_pixelAt (hheld : s.holds s.dataSize) {i : Nat} (hi : i < s.pixelCount) :
    s.pm.bytes (i * s.bpp) s.bpp = some (s.pixelAt i) := by
  have hend := mul_bpp_le_dataSize (k := 1) hi
  obtain ⟨p, hp⟩ := Memory.bytes_isSome (n := s.bpp) fun k hk => hheld (i * s.bpp + k) (by omega)
  rw [State.pixelAt, hp]; rfl

/-- The bytes of `k` pixels one after another. -/
theorem bytes_pixels (hheld : s.holds s.dataSize) {i k : Nat} (hik : i + k ≤ s.pixelCount) :
    s.pm.bytes (i * s.bpp) (k * s.bpp) = some ((List.range' i k).map s.pixelAt).flatten := by
  induction k generalizing i with
  | zero => simp [Memory.bytes]
  | succ k ih =>
    rw [Nat.succ_mul, Nat.add_comm (k * s.bpp), Memory.bytes_add, bytes_pixelAt hheld (by omega), ← Nat.succ_mul,
      ih (by omega)]
    rfl

/-- The data of a held buffer is its pixels. -/
theorem data_eq_pixels (hheld : s.holds s.dataSize) :
    s.data = some ((List.range' 0 s.pixelCount).map s.pixelAt).flatten := by
  have h := bytes_pixels hheld (i := 0) (k := s.pixelCount) (Nat.le_of_eq (Nat.zero_add _))
  rwa [Nat.zero_mul] at h

theorem Scanning.pixelAt_length (h : Scanning s) {i : Nat} (hi : i < s.enc.n) : (s.pixelAt i).length = s.bpp :=
  Memory.bytes_length (bytes_pixelAt h.held (h.target ▸ hi))

theorem Scanning.readPixelAt_eq (h : Scanning s) {i : Nat} (hi : i < s.enc.n) : readPixelAt s i = .ok (s.pixelAt i) := by
  have hi : i < s.pixelCount := h.target ▸ hi
  have hend := mul_bpp_le_dataSize (k := 1) hi
  have hfit := h.fit
  exact memRead_eq (by omega) (bytes_pixelAt h.held hi)

/-- The payload of a run's chunk is what the engine reads for it (R111). -/
theorem Scanning.payload_eq (h : Scanning s) {e : Encoder} (hn : e.n = s.enc.n) (hcut : e.Cut s.pixelAt) :
    memRead s (e.cur * s.bpp) (e.payloadLength s.bpp) = .ok (e.chunk s.pixelAt).payload := by
  have h1 := hcut.one_le
  have hin : e.cur + e.rl ≤ s.pixelCount := by rw [← h.target, ← hn]; exact hcut.inside
  have hfit := h.fit
  cases hraw : e.raw
  · have hend := mul_bpp_le_dataSize (s := s) (i := e.cur) (k := 1) (by omega)
    rw [Encoder.chunk_of_run hraw, Encoder.payloadLength, hraw]
    exact memRead_eq (by simp; omega) (bytes_pixelAt h.held (by omega))
  · have hend := mul_bpp_le_dataSize hin
    rw [Encoder.chunk_of_raw hraw, Encoder.payloadLength, hraw]
    exact memRead_eq (by simp; omega) (bytes_pixels h.held hin)

end

/-! ### The loop of ENCODE -/

section
variable {s : State}

/-- The search for a run does not look at `OUT`. -/
theorem extendRun_outS (o : OutStream) (room : Nat) (e : Encoder) :
    extendRun { s with outS := o } room e = extendRun s room e := by
  induction room generalizing e with
  | zero => rfl
  | succ room ih => simp only [extendRun, ih]; rfl

/-- One pass of the loop outputs the header and the payload of the run it finds (R111). -/
theorem encodeChunk_eq {e : Encoder} {bs : List Byte} (hrun : extendRun s 128 s.enc.startRun = .ok e)
    (hread : memRead s (e.start * s.bpp) (e.payloadLength s.bpp) = .ok bs) :
    encodeChunk s = outPutAll { s with enc := { e with cur := e.cur + e.rl } } (e.header :: bs) := by
  rw [encodeChunk, hrun, Eng.ok_bind, outPutAll]
  dsimp only
  obtain ⟨o, h, -⟩ | ⟨o, h⟩ := outPut_cases { s with enc := { e with cur := e.cur + e.rl } } e.header
  · rw [h, Eng.ok_bind, Eng.ok_bind]
    exact congrArg (· >>= outPutAll _) hread
  · rw [h]; rfl

/-- One pass of the loop emits the chunk of a finished run, whatever `OUT` answers. -/
theorem Scanning.encodeChunk_emits (h : Scanning s) (hcur : s.enc.cur < s.enc.n) :
    ∃ e : Encoder, e.n = s.enc.n ∧ e.cur = s.enc.cur ∧ e.Cut s.pixelAt ∧ ∀ o, encodeChunk { s with outS := o } =
      outPutAll { s with enc := { e with cur := e.cur + e.rl }, outS := o } (e.chunk s.pixelAt).bytes := by
  obtain ⟨e, hrun, hn, hecur, hstart, hcut⟩ := extendRun_cut 128 s.enc.startRun (fun i => h.readPixelAt_eq)
    (Encoder.startRun_runOver hcur) (by omega)
  have hstart : e.start = e.cur := hstart.trans hecur.symm
  refine ⟨e, hn, hecur, hcut, fun o => ?_⟩
  rw [Chunk.bytes, Encoder.chunk_header hcut.one_le]
  exact encodeChunk_eq ((extendRun_outS o 128 s.enc.startRun).trans hrun) (hstart ▸ h.payload_eq hn hcut)

/-- The loop emits greedy chunks of the pixels that are left, whatever `OUT` answers. -/
theorem Scanning.loop_emits (fuel : Nat) (h : Scanning s) (hcur : s.enc.cur ≤ s.enc.n)
    (hfuel : s.enc.n ≤ s.enc.cur + fuel) :
    ∃ cs, GreedyChunks s.pixelAt s.enc.n s.enc.cur cs ∧
      ∀ o, settleScrub (whileLoop (fun s => decide (s.enc.cur < s.enc.n)) encodeChunk fuel { s with outS := o }) =
        settleScrub (outPutAll { s with outS := o } (streamBytes cs)) := by
  induction fuel generalizing s with
  | zero =>
    have hfull : s.enc.cur = s.enc.n := by omega
    exact ⟨[], hfull ▸ .done, fun o => congrArg settleScrub (whileLoop_done (by simp [hfull]))⟩
  | succ fuel ih =>
    by_cases hgo : s.enc.cur < s.enc.n
    · obtain ⟨e, hn, hecur, hcut, hchunk⟩ := h.encodeChunk_emits hgo
      have hin := hcut.inside
      have h1 := hcut.one_le
      obtain ⟨cs, hcs, hloop⟩ := ih (s := { s with enc := { e with cur := e.cur + e.rl } })
        ⟨hn.trans h.target, h.held, h.fit⟩ hin (by show e.n ≤ e.cur + e.rl + fuel; omega)
      refine ⟨e.chunk s.pixelAt :: cs, hecur ▸ .chunk hn hcut (hn ▸ hcs), fun o => ?_⟩
      rw [whileLoop, if_pos (by simpa using hgo), hchunk,
        ← settleScrub_outPutAll_enc _ { e with cur := e.cur + e.rl },
        show streamBytes (e.chunk s.pixelAt :: cs) = (e.chunk s.pixelAt).bytes ++ streamBytes cs from rfl,
        outPutAll_append]
      obtain ⟨o', hout, -⟩ | ⟨o', hout⟩ := outPutAll_cases
        { s with enc := { e with cur := e.cur + e.rl }, outS := o } (e.chunk s.pixelAt).bytes
      · rw [hout]; exact hloop o'
      · rw [hout]; rfl
    · have hfull : s.enc.cur = s.enc.n := by omega
      exact ⟨[], hfull ▸ .done, fun o => congrArg settleScrub (whileLoop_done (by simp [hfull]))⟩

end

/-! ### ENCODE as a whole -/

/-- A checked geometry's data fits the bank (R18, R80). -/
theorem dataSize_le_capr {s : State} (h : s.geometryOK) : s.dataSize ≤ s.capr :=
  (decodeStart_filling (s := { s with arg0 := s.pbW, arg1 := s.pbH, arg2 := s.pbBpp }) h).fit

section
variable {s : State} (h : s.Ready)
include h

theorem State.Ready.geometryOK : s.geometryOK := by
  refine h.inv.geometry.resolve_left fun ⟨hw, _, _⟩ => ?_
  simpa [State.isEmpty, hw] using h.buffer

theorem State.Ready.holds : s.holds s.dataSize := h.inv.held h.idle

theorem State.Ready.scanning : Scanning (encodeStart s) := ⟨rfl, h.holds, dataSize_le_capr h.geometryOK⟩

/-- ENCODE of a buffer outputs the bytes of its greedy chunks and ends as that output does. -/
theorem exec_encode_emits :
    ∃ cs, GreedyChunks s.pixelAt s.pixelCount 0 cs ∧
      ∀ o, exec .encode { s with outS := o } = settleScrub (outPutAll { s with outS := o } (streamBytes cs)) := by
  obtain ⟨cs, hcs, hloop⟩ := h.scanning.loop_emits s.pixelCount (Nat.zero_le _) (Nat.le_add_left ..)
  refine ⟨cs, hcs, fun o => ?_⟩
  calc exec .encode { s with outS := o }
      = settleScrub (encodeLoop (encodeStart { s with outS := o })) :=
        if_neg (by simpa [State.isEmpty] using h.buffer)
    _ = settleScrub (outPutAll (encodeStart { s with outS := o }) (streamBytes cs)) := hloop o
    _ = settleScrub (outPutAll { s with outS := o } (streamBytes cs)) :=
        settleScrub_outPutAll_enc { s with outS := o } _ _

end

/-- What ENCODE leaves alone: the buffer, every register but `STATUS`, `IN`, the shadow bank and the script (R113). -/
theorem EncodeFrame.keeps {s t : State} (h : EncodeFrame s t) :
    t.pm = s.pm ∧ s.sameGeometry t ∧ s.sameOperands t ∧ t.pix = s.pix ∧ t.inS = s.inS ∧ s.sameShadow t ∧
      s.sameScript t :=
  ⟨(congrArg State.pm h :),
    ⟨(congrArg State.pbW h :), (congrArg State.pbH h :), (congrArg State.pbBpp h :)⟩,
    ⟨(congrArg State.arg0 h :), (congrArg State.arg1 h :), (congrArg State.arg2 h :), h.capr_eq⟩,
    (congrArg State.pix h :), (congrArg State.inS h :),
    ⟨(congrArg State.sh h :), (congrArg State.bank h :)⟩, ⟨(congrArg State.host h :), (congrArg State.reads h :)⟩⟩

/-- Settles O41: `exec_encode_emits` says that `e` is the bytes of chunks that stand for the buffer's pixels, and
`decodeFillsTheBuffer` what DECODE makes of such chunks. -/
theorem decodeRestoresWhatEncodeEmitted : Obligations.DecodeRestoresWhatEncodeEmitted := by
  intro s t u e h hexec hok hdata hcapr hw hh hbpp hin
  obtain ⟨cs, hcs, hemits⟩ := exec_encode_emits h
  have hcount : streamCount cs = s.pixelCount := (Nat.zero_add _).symm.trans hcs.count_eq
  have he : e = streamBytes cs := by
    have hend := (hemits s.outS).symm.trans hexec
    obtain ⟨o, hout, ho⟩ | ⟨o, hout⟩ := outPutAll_cases s (streamBytes cs)
    · rw [hout, settleScrub_ok] at hend
      cases hend
      exact List.append_cancel_left (hdata.symm.trans ho)
    · rw [hout, settleScrub_raising] at hend
      cases hend
      cases hok
  subst he
  have hargs : u.argsOK := by rw [State.argsOK, hcapr, hw, hh, hbpp]; exact h.geometryOK
  have hwanted : u.wantedBpp = s.bpp := by rw [State.wantedBpp, hbpp]; rfl
  have hfits : ∀ c ∈ cs, c.Fits u.wantedBpp :=
    hwanted ▸ hcs.fits fun i hi => Memory.bytes_length (bytes_pixelAt h.holds hi)
  obtain ⟨v, hv, hends, hvw, hvh, hvbpp, hvdata, hvin, -⟩ := decodeFillsTheBuffer u cs hargs hfits
    (by rw [hcount, State.wantedCount, hw, hh]; rfl) hin
  refine ⟨v, hv, hends, ⟨hvw.trans hw, hvh.trans hh, hvbpp.trans hbpp⟩, ?_, by rw [hvin]⟩
  rw [hvdata, data_eq_pixels h.holds, hcs.data_eq, hcount]

/-- Settles O39: the encoding is the bytes of `exec_encode_emits`; the output of them all, or of the first `k`, is
`outPutAll_accepted` or `outPutAll_refused`. -/
theorem encodeAppendsItsEncoding : Obligations.EncodeAppendsItsEncoding := by
  refine fun s => ⟨fun hempty => if_pos hempty, fun h => ?_⟩
  obtain ⟨cs, -, hemits⟩ := exec_encode_emits h
  have hexec : exec .encode s = settleScrub (outPutAll s (streamBytes cs)) := hemits s.outS
  refine ⟨streamBytes cs, ?encoding, fun haccept => ?accepted, fun k as hk hrefuse => ?refused⟩
  case encoding =>
    rw [State.encoding, hemits, outPutAll_accepted (by simp)]
    rfl
  case accepted =>
    rw [outPutAll_accepted haccept] at hexec
    exact ⟨_, hexec, ⟨rfl, by simp, rfl⟩, rfl, EncodeFrame.keeps (t := { s with outS := _ }) rfl⟩
  case refused =>
    rw [outPutAll_refused hk hrefuse] at hexec
    exact ⟨_, hexec, ⟨rfl, by simp, rfl⟩, rfl, EncodeFrame.keeps (t := { s with outS := _ }) rfl⟩

end Sys2Proof.Machine
end

-- The proofs about the flips: what each rearranges (R121, R123), and how they compose (R124).
section
/-! SUPPORT. A pass of a flip exchanges two blocks of bytes, so a whole flip is a map of block numbers: which block's
bytes stand where. FLIPV moves blocks of one row, FLIPH blocks of one pixel. -/

namespace Sys2Proof.Machine

/-! ### Blocks of a bank -/

/-- Blocks do not overlap: a byte of block `q` lies in block `a` only if that is block `q`. -/
theorem byte_mem_block_iff {n a q r : Nat} (hr : r < n) :
    (a * n ≤ q * n + r ∧ q * n + r < a * n + n) ↔ q = a := by
  obtain h | rfl | h := Nat.lt_trichotomy q a
  · have hend := mul_add_le_of_lt (c := n) h; omega
  · omega
  · have hend := mul_add_le_of_lt (c := n) h; omega

/-- Two blocks written over each other have changed places. -/
theorem Memory.byte_exchange {m : Memory} {n a b : Nat} {as bs : List Byte} (ha : m.bytes (a * n) n = some as)
    (hb : m.bytes (b * n) n = some bs) {q r : Nat} (hr : r < n) :
    ((m.putAll (a * n) bs).putAll (b * n) as).byte (q * n + r) = m.byte (Equiv.swap a b q * n + r) := by
  simp only [Memory.byte_putAll, Memory.bytes_length ha, Memory.bytes_length hb, byte_mem_block_iff hr]
  by_cases hqb : q = b
  · subst hqb
    rw [if_pos rfl, Equiv.swap_apply_right, Nat.add_sub_cancel_left, Memory.byte_of_bytes ha hr]
  · by_cases hqa : q = a
    · subst hqa
      rw [if_neg hqb, if_pos rfl, Equiv.swap_apply_left, Nat.add_sub_cancel_left, Memory.byte_of_bytes hb hr]
    · rw [if_neg hqb, if_neg hqa, Equiv.swap_apply_of_ne_of_ne hqa hqb]

/-! ### States that differ in the active bank -/

section
variable {s t : State}

theorem State.sameGeometry.width_eq (h : s.sameGeometry t) : t.width = s.width := congrArg (Int.toNat ∘ int32) h.1

theorem State.sameGeometry.height_eq (h : s.sameGeometry t) : t.height = s.height :=
  congrArg (Int.toNat ∘ int32) h.2.1

theorem State.sameGeometry.bpp_eq (h : s.sameGeometry t) : t.bpp = s.bpp := congrArg (Int.toNat ∘ int32) h.2.2

theorem State.sameGeometry.lineSize_eq (h : s.sameGeometry t) : t.lineSize = s.lineSize := by
  rw [State.lineSize, h.width_eq, h.bpp_eq]; rfl

theorem State.sameGeometry.addr_eq (h : s.sameGeometry t) (x y : Nat) : t.addr x y = s.addr x y := by
  rw [State.addr, h.width_eq, h.bpp_eq]; rfl

theorem State.sameGeometry.symm (h : s.sameGeometry t) : t.sameGeometry s := ⟨h.1.symm, h.2.1.symm, h.2.2.symm⟩

theorem State.sameGeometry.trans {u : State} (hst : s.sameGeometry t) (htu : t.sameGeometry u) : s.sameGeometry u :=
  ⟨htu.1.trans hst.1, htu.2.1.trans hst.2.1, htu.2.2.trans hst.2.2⟩

theorem FlipFrame.trans {u : State} (hst : FlipFrame s t) (htu : FlipFrame t u) : FlipFrame s u :=
  (congrArg (fun v : State => { v with pm := s.pm, flip := s.flip }) htu :).trans hst

/-- What the flips leave alone: every register but `STATUS`, the streams, the shadow bank and the script. -/
theorem FlipFrame.keeps (h : FlipFrame s t) :
    s.sameGeometry t ∧ s.sameOperands t ∧ t.pix = s.pix ∧ s.sameStreams t ∧ s.sameShadow t ∧ s.sameScript t :=
  ⟨⟨(congrArg State.pbW h :), (congrArg State.pbH h :), (congrArg State.pbBpp h :)⟩,
    ⟨(congrArg State.arg0 h :), (congrArg State.arg1 h :), (congrArg State.arg2 h :), h.capr_eq⟩,
    (congrArg State.pix h :), ⟨(congrArg State.inS h :), (congrArg State.outS h :)⟩,
    ⟨(congrArg State.sh h :), (congrArg State.bank h :)⟩, ⟨(congrArg State.host h :), (congrArg State.reads h :)⟩⟩

theorem FlipFrame.eq (h : FlipFrame s t) : { s with pm := t.pm, flip := t.flip } = t :=
  (congrArg (fun v : State => { v with pm := t.pm, flip := t.flip }) h :).symm

theorem FlipFrame.sameGeometry (h : FlipFrame s t) : s.sameGeometry t := h.keeps.1

end

/-! ### Moving blocks -/

/-- Between `s` and `t` blocks of `n` bytes have moved: block `q` of `t` is block `σ q` of `s`. The bank keeps its form,
and nothing else but the flips' working values has changed. -/
structure Moved (n : Nat) (σ : Nat → Nat) (s t : State) : Prop where
  frame : FlipFrame s t
  wf : s.pm.wf → t.pm.wf
  below : s.pm.below s.capr → t.pm.below s.capr
  byte : ∀ q r, r < n → t.pm.byte (q * n + r) = s.pm.byte (σ q * n + r)

section
variable {n N : Nat} {σ τ ρ : Nat → Nat} {s t u : State}

theorem Moved.refl (hσ : ∀ q, σ q = q) : Moved n σ s s :=
  ⟨.refl s, id, id, fun q r _ => by rw [hσ]⟩

theorem Moved.trans (hst : Moved n σ s t) (htu : Moved n τ t u) (hρ : ∀ q, ρ q = σ (τ q)) : Moved n ρ s u where
  frame := hst.frame.trans htu.frame
  wf h := htu.wf (hst.wf h)
  below h := hst.frame.capr_eq ▸ htu.below (hst.frame.capr_eq.symm ▸ hst.below h)
  byte q r hr := by rw [htu.byte q r hr, hst.byte _ r hr, hρ]

/-- The exchange of two blocks inside the bank, as a pass of a flip does it. -/
theorem Moved.exchange {a b : Nat} {as bs : List Byte} (ha : s.pm.bytes (a * n) n = some as)
    (hb : s.pm.bytes (b * n) n = some bs) (hac : a * n + n ≤ s.capr) (hbc : b * n + n ≤ s.capr) (f : Flipper) :
    Moved n (Equiv.swap a b) s { s with flip := f, pm := (s.pm.putAll (a * n) bs).putAll (b * n) as } where
  frame := rfl
  wf h := Memory.wf_putAll (Memory.wf_putAll h ..) ..
  below h := Memory.below_putAll (Memory.below_putAll h (by rwa [Memory.bytes_length hb]))
    (by rwa [Memory.bytes_length ha])
  byte _ _ hr := Memory.byte_exchange ha hb hr

/-- A buffer whose blocks have moved among themselves is still one. -/
theorem Moved.ready (h : Moved n σ s t) (hs : s.Ready) (hN : s.dataSize = N * n) (hσ : ∀ q < N, σ q < N) :
    t.Ready := by
  have hheld : t.holds s.dataSize := fun k hk => by
    rw [hN] at hk
    have hn : 0 < n := Nat.pos_of_lt_mul_left hk
    have hq : σ (k / n) < N := hσ _ (Nat.div_lt_of_lt_mul (by rwa [Nat.mul_comm]))
    have hr := Nat.mod_lt k hn
    have hend := mul_add_le_of_lt (c := n) hq
    rw [← Nat.div_add_mod' k n, h.byte _ _ hr]
    exact hs.holds _ (by omega)
  have hwf := h.wf hs.inv.pm_wf
  have hbelow := h.below hs.inv.pm_below
  have hready : State.Ready { s with pm := t.pm, flip := t.flip } :=
    ⟨⟨hs.inv.cap_min, hs.inv.cap_max, hwf, hs.inv.sh_wf, hbelow, hs.inv.sh_below, hs.inv.geometry, fun _ => hheld,
      fun hbusy => absurd (hs.idle.symm.trans hbusy) (by simp)⟩, hs.idle, hs.buffer⟩
  exact h.frame.eq ▸ hready

/-- Blocks that have moved among themselves have left the bytes beyond them alone. -/
theorem Moved.outside (h : Moved n σ s t) (hn : 0 < n) (hσ : ∀ q, N ≤ q → σ q = q) : s.sameOutside t 0 (N * n) := by
  intro k hk
  have hq : N ≤ k / n := (Nat.le_div_iff_mul_le hn).2 (by omega)
  have hbyte := h.byte (k / n) (k % n) (Nat.mod_lt k hn)
  rwa [hσ _ hq, Nat.div_add_mod'] at hbyte

/-- Bytes inside one block have moved with it. -/
theorem Moved.bytes (h : Moved n σ s t) {q o k : Nat} (hk : o + k ≤ n) :
    t.pm.bytes (q * n + o) k = s.pm.bytes (σ q * n + o) k :=
  Memory.bytes_congr fun i hi => by
    rw [Nat.add_assoc, Nat.add_assoc]; exact h.byte q (o + i) (by omega)

end

/-! ### A loop that reverses a segment -/

/-- Which block stands at `q` after the first `k` of the `len` blocks from `base` on have changed places with the last
`k`. -/
def mirrored (base len k q : Nat) : Nat :=
  if base ≤ q ∧ q < base + k ∨ base + len ≤ q + k ∧ q < base + len then base + (base + len - 1 - q) else q

theorem mirrored_zero (base len q : Nat) : mirrored base len 0 q = q := if_neg (by omega)

theorem mirrored_succ {base len k : Nat} (hk : k < len / 2) (q : Nat) :
    mirrored base len (k + 1) q = mirrored base len k (Equiv.swap (base + k) (base + (len - 1 - k)) q) := by
  simp only [Equiv.swap_apply_def, mirrored]
  split_ifs <;> omega

/-- Half of the blocks exchanged reverse the segment; an odd one in the middle is its own image. -/
theorem mirrored_half {len x : Nat} (base : Nat) (hx : x < len) :
    mirrored base len (len / 2) (base + x) = base + (len - 1 - x) := by
  unfold mirrored
  split <;> omega

theorem mirrored_of_outside {base len k q : Nat} (hk : k ≤ len) (hq : q < base ∨ base + len ≤ q) :
    mirrored base len k q = q := if_neg (by omega)

theorem mirrored_lt {base len k N q : Nat} (hk : k ≤ len) (hN : base + len ≤ N) (hq : q < N) :
    mirrored base len k q < N := by
  unfold mirrored
  split <;> omega

/-- A loop whose pass `j` exchanges block `j` of a segment with its counterpart from the end reverses the segment. -/
theorem forLoop_mirrors {n N base len : Nat} {s : State} {body : Nat → State → Eng State} (hs : s.Ready)
    (hN : s.dataSize = N * n) (hlen : base + len ≤ N)
    (hbody : ∀ j u, j < len → s.sameGeometry u → u.Ready →
      Eng.Sat False (Moved n (Equiv.swap (base + j) (base + (len - 1 - j))) u) (fun _ _ => False) (body j u)) :
    Eng.Sat False (Moved n (mirrored base len (len / 2)) s) (fun _ _ => False) (forLoop body 0 (len / 2) s) := by
  have hloop := forLoop_sat (F := False) (R := fun _ _ => False) (body := body)
    (fun j => Moved n (mirrored base len j) s) (i := 0) (n := len / 2) (s := s) (fun j u _ hj hu => ?step)
    (.refl (mirrored_zero base len))
  case step =>
    have hj : j < len / 2 := by omega
    exact (hbody j u (by omega) hu.frame.sameGeometry (hu.ready hs hN fun _ => mirrored_lt (by omega) hlen)).mono
      (fun v hv => hu.trans hv (mirrored_succ hj)) fun _ _ => id
  rwa [Nat.zero_add] at hloop

/-! ### One pass of each flip -/

/-- The valid region as rows (R18, R44). -/
theorem dataSize_eq_rows (s : State) : s.dataSize = s.height * s.lineSize := by
  rw [State.dataSize, State.lineSize, Nat.mul_comm s.width, Nat.mul_assoc]

/-- A pixel of the buffer has a number below the pixel count (R43). -/
theorem pixelNumber_lt {s : State} {x y : Nat} (hx : x < s.width) (hy : y < s.height) :
    y * s.width + x < s.width * s.height := by
  have := mul_add_le_of_lt (c := s.width) hy
  rw [Nat.mul_comm s.width]
  omega

section
variable {s : State} (h : s.Ready)
include h

/-- A block of the valid region lies in the bank and reads as some bytes. -/
theorem State.Ready.block {n N q : Nat} (hN : s.dataSize = N * n) (hq : q < N) :
    q * n + n ≤ s.capr ∧ ∃ bs, s.pm.bytes (q * n) n = some bs := by
  have hend := mul_add_le_of_lt (c := n) hq
  have hfit := dataSize_le_capr h.geometryOK
  exact ⟨by omega, Memory.bytes_isSome fun k hk => h.holds _ (by omega)⟩

theorem swapRows_moved {i : Nat} (hi : i < s.height) :
    Eng.Sat False (Moved s.lineSize (Equiv.swap i (s.height - 1 - i)) s) (fun _ _ => False) (swapRows i s) := by
  obtain ⟨hac, as, ha⟩ := h.block (dataSize_eq_rows s) hi
  obtain ⟨hbc, bs, hb⟩ := h.block (dataSize_eq_rows s) (q := s.height - 1 - i) (by omega)
  exact Eng.sat_of_eq (swapRows_eq ha hb hac hbc) (.exchange ha hb hac hbc _)

theorem swapPixels_moved {y j : Nat} (hy : y < s.height) (hj : j < s.width) :
    Eng.Sat False (Moved s.bpp (Equiv.swap (y * s.width + j) (y * s.width + (s.width - 1 - j))) s) (fun _ _ => False)
      (swapPixels y j s) := by
  obtain ⟨hac, as, ha⟩ := h.block (n := s.bpp) rfl (pixelNumber_lt hj hy)
  obtain ⟨hbc, bs, hb⟩ := h.block (n := s.bpp) rfl (pixelNumber_lt (x := s.width - 1 - j) (by omega) hy)
  exact Eng.sat_of_eq (swapPixels_eq ha hb hac hbc) (.exchange ha hb hac hbc _)

end

/-! ### The loops of the flips -/

/-- Which pixel stands at number `q` after the first `k` rows of `w` pixels have been reversed. -/
def rowsMirrored (w k q : Nat) : Nat := if q < k * w then q / w * w + (w - 1 - q % w) else q

theorem rowsMirrored_zero (w q : Nat) : rowsMirrored w 0 q = q := if_neg (by omega)

theorem rowsMirrored_of_le {w k q : Nat} (h : k * w ≤ q) : rowsMirrored w k q = q := if_neg (by omega)

theorem rowsMirrored_of_lt {w k x y : Nat} (hx : x < w) (hy : y < k) :
    rowsMirrored w k (y * w + x) = y * w + (w - 1 - x) := by
  have hend := mul_add_le_of_lt (c := w) hy
  have hdiv : (y * w + x) / w = y := by
    rw [Nat.mul_comm, Nat.mul_add_div (by omega), Nat.div_eq_of_lt hx, Nat.add_zero]
  have hmod : (y * w + x) % w = x := Nat.mul_add_mod_of_lt hx
  rw [rowsMirrored, if_pos (by omega), hdiv, hmod]

theorem rowsMirrored_lt {w k N q : Nat} (hN : k * w ≤ N) (hq : q < N) : rowsMirrored w k q < N := by
  unfold rowsMirrored
  split
  next h =>
    have hend := mul_add_le_of_lt (c := w) (Nat.div_lt_of_lt_mul (by rwa [Nat.mul_comm] at h))
    have hw : 0 < w := Nat.pos_of_lt_mul_left h
    omega
  next => exact hq

/-- One row more reversed. -/
theorem rowsMirrored_succ (w k q : Nat) :
    rowsMirrored w (k + 1) q = rowsMirrored w k (mirrored (k * w) w (w / 2) q) := by
  have hsucc : (k + 1) * w = k * w + w := Nat.succ_mul k w
  have hhalf : w / 2 ≤ w := Nat.div_le_self w 2
  obtain hq | ⟨x, hx, rfl⟩ | hq : q < k * w ∨ (∃ x < w, q = k * w + x) ∨ k * w + w ≤ q := by
    by_cases h : q < k * w ∨ k * w + w ≤ q
    · tauto
    · exact .inr (.inl ⟨q - k * w, by omega, by omega⟩)
  · rw [mirrored_of_outside hhalf (.inl hq), rowsMirrored, rowsMirrored, if_pos (by omega), if_pos hq]
  · rw [rowsMirrored_of_lt hx (Nat.lt_succ_self k), mirrored_half _ hx, rowsMirrored_of_le (Nat.le_add_right ..)]
  · rw [rowsMirrored_of_le (by omega), mirrored_of_outside hhalf (.inr hq), rowsMirrored_of_le (by omega)]

section
variable {s : State} (h : s.Ready)
include h

theorem mirrorRow_moved {y : Nat} (hy : y < s.height) :
    Eng.Sat False (Moved s.bpp (mirrored (y * s.width) s.width (s.width / 2)) s) (fun _ _ => False)
      (mirrorRow y s) := by
  refine forLoop_mirrors (N := s.width * s.height) h rfl ?_ fun j u hj hgeom hu => ?_
  · rw [Nat.mul_comm s.width]; exact mul_add_le_of_lt hy
  · have hpass := swapPixels_moved hu (hgeom.height_eq ▸ hy) (hgeom.width_eq ▸ hj)
    rwa [hgeom.width_eq, hgeom.bpp_eq] at hpass

theorem flipv_loop_moved :
    Eng.Sat False (Moved s.lineSize (mirrored 0 s.height (s.height / 2)) s) (fun _ _ => False)
      (forLoop swapRows 0 (s.height / 2) s) := by
  refine forLoop_mirrors h (dataSize_eq_rows s) (Nat.le_of_eq (Nat.zero_add _)) fun i u hi hgeom hu => ?_
  have hpass := swapRows_moved hu (hgeom.height_eq ▸ hi)
  rw [hgeom.lineSize_eq, hgeom.height_eq] at hpass
  rwa [Nat.zero_add, Nat.zero_add]

theorem fliph_loop_moved :
    Eng.Sat False (Moved s.bpp (rowsMirrored s.width s.height) s) (fun _ _ => False)
      (forLoop mirrorRow 0 s.height s) := by
  have hloop := forLoop_sat (F := False) (R := fun _ _ => False) (body := mirrorRow)
    (fun y => Moved s.bpp (rowsMirrored s.width y) s) (i := 0) (n := s.height) (s := s) (fun y u _ hy hu => ?step)
    (.refl (rowsMirrored_zero s.width))
  case step =>
    have hy : y < s.height := by omega
    have hrows : y * s.width ≤ s.width * s.height := by
      rw [Nat.mul_comm s.width]; exact Nat.mul_le_mul_right _ (Nat.le_of_lt hy)
    have hready := hu.ready h rfl fun _ => rowsMirrored_lt hrows
    have hgeom := hu.frame.sameGeometry
    have hrow := mirrorRow_moved hready (hgeom.height_eq ▸ hy)
    rw [hgeom.width_eq, hgeom.bpp_eq] at hrow
    exact hrow.mono (fun v hv => hu.trans hv (rowsMirrored_succ s.width y)) fun _ _ => id
  rwa [Nat.zero_add] at hloop

end

/-! ### What a flip leaves -/

/-- From `s` to `t` the pixels have been rearranged: `t` holds a buffer of the geometry of `s`, and its pixel `(x, y)` is
pixel `(fx x, fy y)` of `s`. -/
structure Rearranged (fx fy : Nat → Nat) (s t : State) : Prop where
  ready : t.Ready
  geometry : s.sameGeometry t
  pixel : ∀ x y, x < s.width → y < s.height → t.pixel x y = s.pixel (fx x) (fy y)

/-- A flip of `s` that rearranges its pixels has ended in `t` with `OK`, and left all else alone. -/
structure Flipped (fx fy : Nat → Nat) (s t : State) : Prop extends Rearranged fx fy s t where
  ends : s.endsWith t .ok
  outside : s.sameOutside t 0 s.dataSize
  keeps : s.sameOperands t ∧ t.pix = s.pix ∧ s.sameStreams t ∧ s.sameShadow t ∧ s.sameScript t

/-- The end of a flip that has moved the blocks of the buffer among themselves. -/
theorem Moved.flipped {n N : Nat} {σ fx fy : Nat → Nat} {s u : State} (h : Moved n σ s u) (hs : s.Ready) (hn : 0 < n)
    (hN : s.dataSize = N * n) (hin : ∀ q < N, σ q < N) (hout : ∀ q, N ≤ q → σ q = q)
    (hpixel : ∀ x y, x < s.width → y < s.height → u.pixel x y = s.pixel (fx x) (fy y)) :
    Flipped fx fy s (complete (scrub u)) := by
  have hready := h.ready hs hN hin
  have houtside := h.outside hn hout
  obtain ⟨hgeom, hkeeps⟩ := h.frame.keeps
  refine ⟨⟨⟨?inv, rfl, hready.buffer⟩, hgeom, hpixel⟩, ⟨rfl, ?sticky, rfl⟩, hN ▸ houtside, hkeeps⟩
  case inv =>
    obtain ⟨hmin, hmax, hpm, hsh, hpmb, hshb, hgeo, hheld, -⟩ := hready.inv
    exact ⟨hmin, hmax, hpm, hsh, hpmb, hshb, hgeo, fun _ => hheld hready.idle, nofun⟩
  case sticky =>
    have hsticky : u.sticky = s.sticky := (congrArg State.sticky h.frame :)
    simpa using hsticky

section
variable {s : State} (h : s.Ready)
include h

theorem State.Ready.bpp_pos : 0 < s.bpp := by
  obtain ⟨-, -, hbpp, -⟩ := h.geometryOK
  exact Int.pos_iff_toNat_pos.1 (by omega)

theorem State.Ready.width_pos : 0 < s.width := by
  obtain ⟨hw, -⟩ := h.geometryOK
  exact Int.pos_iff_toNat_pos.1 hw

/-- FLIPV on a buffer (R121). -/
theorem exec_flipv_flipped : ∃ t, exec .flipv s = .next t ∧ Flipped id (fun y => s.height - 1 - y) s t := by
  obtain ⟨u, hloop, hu⟩ := (flipv_loop_moved h).exists_ok
  have hexec : exec .flipv s = settleScrub (forLoop swapRows 0 (s.height / 2) s) := if_neg (by simp [h.buffer])
  refine ⟨_, by rw [hexec, hloop, settleScrub_ok], hu.flipped h (Nat.mul_pos h.width_pos h.bpp_pos) (dataSize_eq_rows s)
    (fun _ => mirrored_lt (Nat.div_le_self ..) (Nat.le_of_eq (Nat.zero_add _)))
    (fun q hq => mirrored_of_outside (Nat.div_le_self ..) (.inr (by omega))) fun x y hx hy => ?_⟩
  have hrow : mirrored 0 s.height (s.height / 2) y = s.height - 1 - y := by simpa using mirrored_half 0 hy
  have hbytes := hu.bytes (q := y) (mul_add_le_of_lt (c := s.bpp) hx)
  rw [hrow, ← addr_eq, ← addr_eq] at hbytes
  rwa [State.pixel, hu.frame.sameGeometry.addr_eq, hu.frame.sameGeometry.bpp_eq]

/-- FLIPH on a buffer (R123). -/
theorem exec_fliph_flipped : ∃ t, exec .fliph s = .next t ∧ Flipped (fun x => s.width - 1 - x) id s t := by
  obtain ⟨u, hloop, hu⟩ := (fliph_loop_moved h).exists_ok
  have hexec : exec .fliph s = settleScrub (forLoop mirrorRow 0 s.height s) := if_neg (by simp [h.buffer])
  have hrows : s.height * s.width = s.width * s.height := Nat.mul_comm ..
  refine ⟨_, by rw [hexec, hloop, settleScrub_ok], hu.flipped h h.bpp_pos rfl
    (fun _ => rowsMirrored_lt (Nat.le_of_eq hrows)) (fun q hq => rowsMirrored_of_le (hrows ▸ hq)) fun x y hx hy => ?_⟩
  have hbytes := hu.bytes (q := y * s.width + x) (o := 0) (Nat.le_of_eq (Nat.zero_add s.bpp))
  rw [rowsMirrored_of_lt hx hy] at hbytes
  rwa [State.pixel, hu.frame.sameGeometry.addr_eq, hu.frame.sameGeometry.bpp_eq]

end

/-- Settles O43: the loop of FLIPV reverses the blocks of one row each. -/
theorem flipvReversesTheRows : Obligations.FlipvReversesTheRows := by
  intro s h
  obtain ⟨t, hexec, ht⟩ := exec_flipv_flipped h
  exact ⟨t, hexec, ht.ends, ht.pixel, ht.outside, ht.geometry, ht.keeps⟩

/-- Settles O44: the loop of FLIPH reverses, row by row, the blocks of one pixel each. -/
theorem fliphReversesEveryRow : Obligations.FliphReversesEveryRow := by
  intro s h
  obtain ⟨t, hexec, ht⟩ := exec_fliph_flipped h
  exact ⟨t, hexec, ht.ends, ht.pixel, ht.outside, ht.geometry, ht.keeps⟩

/-! ### One flip after another -/

section
variable {fx fy gx gy : Nat → Nat} {s t u : State}

theorem Rearranged.refl (h : s.Ready) : Rearranged id id s s := ⟨h, ⟨rfl, rfl, rfl⟩, fun _ _ _ _ => rfl⟩

theorem Rearranged.trans (hst : Rearranged fx fy s t) (htu : Rearranged gx gy t u)
    (hgx : ∀ x < s.width, gx x < s.width) (hgy : ∀ y < s.height, gy y < s.height) :
    Rearranged (fx ∘ gx) (fy ∘ gy) s u where
  ready := htu.ready
  geometry := hst.geometry.trans htu.geometry
  pixel x y hx hy := by
    rw [htu.pixel x y (hst.geometry.width_eq ▸ hx) (hst.geometry.height_eq ▸ hy), hst.pixel _ _ (hgx x hx) (hgy y hy)]
    rfl

/-- FLIPV after a rearrangement. -/
theorem Rearranged.exec_flipv (h : Rearranged fx fy s t) :
    ∃ u, exec .flipv t = .next u ∧ Rearranged fx (fun y => fy (s.height - 1 - y)) s u := by
  obtain ⟨u, hexec, hu⟩ := exec_flipv_flipped h.ready
  rw [h.geometry.height_eq] at hu
  exact ⟨u, hexec, h.trans hu.toRearranged (fun _ => id) (by omega)⟩

/-- FLIPH after a rearrangement. -/
theorem Rearranged.exec_fliph (h : Rearranged fx fy s t) :
    ∃ u, exec .fliph t = .next u ∧ Rearranged (fun x => fx (s.width - 1 - x)) fy s u := by
  obtain ⟨u, hexec, hu⟩ := exec_fliph_flipped h.ready
  rw [h.geometry.width_eq] at hu
  exact ⟨u, hexec, h.trans hu.toRearranged (by omega) (fun _ => id)⟩

/-- A pixel by its number (R43). -/
theorem pixelAt_eq_pixel (s : State) (i : Nat) :
    s.pixelAt i = (s.pixel (i % s.width) (i / s.width)).getD [] := by
  rw [State.pixel, State.addr, Nat.div_add_mod', State.pixelAt]

/-- Buffers of one geometry with the same pixels have the same data. -/
theorem data_eq_of_pixels (ht : t.Ready) (hu : u.Ready) (hgeom : u.sameGeometry t)
    (hpixel : ∀ x y, x < u.width → y < u.height → t.pixel x y = u.pixel x y) : t.data = u.data := by
  have hcount : t.pixelCount = u.pixelCount := by rw [State.pixelCount, hgeom.width_eq, hgeom.height_eq]; rfl
  have hpixels : (List.range' 0 u.pixelCount).map t.pixelAt = (List.range' 0 u.pixelCount).map u.pixelAt :=
    List.map_congr_left fun i hi => by
      have hi : i < u.width * u.height := by simpa [State.pixelCount] using (List.mem_range'_1.1 hi).2
      have hx : i % u.width < u.width := Nat.mod_lt _ (Nat.pos_of_lt_mul_right hi)
      rw [pixelAt_eq_pixel, pixelAt_eq_pixel, hgeom.width_eq, hpixel _ _ hx (Nat.div_lt_of_lt_mul hi)]
  rw [data_eq_pixels ht.holds, data_eq_pixels hu.holds, hcount, hpixels]

/-- Equal rearrangements leave equal data. -/
theorem Rearranged.data_eq (ht : Rearranged fx fy s t) (hu : Rearranged gx gy s u)
    (hx : ∀ x < s.width, fx x = gx x) (hy : ∀ y < s.height, fy y = gy y) : t.data = u.data :=
  data_eq_of_pixels ht.ready hu.ready (hu.geometry.symm.trans ht.geometry) fun x y hxu hyu => by
    have hxs := hu.geometry.width_eq ▸ hxu
    have hys := hu.geometry.height_eq ▸ hyu
    rw [ht.pixel x y hxs hys, hu.pixel x y hxs hys, hx x hxs, hy y hys]

end

/-- Settles O45: each flip composes with the rearrangement before it, and equal rearrangements leave equal data. -/
theorem flipsAreInvolutionsAndCommute : Obligations.FlipsAreInvolutionsAndCommute := by
  intro s h
  have hs := Rearranged.refl h
  obtain ⟨v, hv, hsv⟩ := hs.exec_flipv
  obtain ⟨m, hm, hsm⟩ := hs.exec_fliph
  obtain ⟨vv, hvv, hsvv⟩ := hsv.exec_flipv
  obtain ⟨vm, hvm, hsvm⟩ := hsv.exec_fliph
  obtain ⟨mm, hmm, hsmm⟩ := hsm.exec_fliph
  obtain ⟨mv, hmv, hsmv⟩ := hsm.exec_flipv
  have hrev : ∀ n : Nat, ∀ i < n, n - 1 - (n - 1 - i) = i := by omega
  have hvertical : vv.data = s.data := hsvv.data_eq hs (fun _ _ => rfl) (hrev s.height)
  have hhorizontal : mm.data = s.data := hsmm.data_eq hs (hrev s.width) fun _ _ => rfl
  have hcommute : vm.data = mv.data := hsvm.data_eq hsmv (fun _ _ => rfl) fun _ _ => rfl
  exact ⟨⟨v, vv, hv, hvv, hvertical⟩, ⟨m, mm, hm, hmm, hhorizontal⟩,
    v, vm, m, mv, hv, hvm, hm, hmv, hcommute, hsvm.pixel⟩

end Sys2Proof.Machine
end

-- The proofs about SCALE: its checks (R131), its closed form (R138), and the unity scale (R139).
section
/-! SUPPORT. SCALE walks the old columns and the old rows with one error accumulator each. What an accumulator has added
and taken out says which old index a new one is copied from; the loops build the new rows one after another in the shadow
bank. -/

namespace Sys2Proof.Machine

/-! ### The error accumulator -/

/-- The old index that new index `k` takes its pixel from when `n` old ones become `m` new ones (R138). -/
def nearest (n m k : Nat) : Nat := ((k + 1) * n + (m - 1)) / m - 1

/-- The accumulator `e` between two of `n` old indices: `m` has been added for each of the first `i` of them, `n` taken
out for each of the first `k` new ones, and what is left makes no further new one (R133, R134). -/
structure AccAtRest (n m i k e : Nat) : Prop where
  sum : e + k * n = i * m
  lt : e < n

/-- The accumulator `e` at old index `i`: `m` has been added for it, and new index `k` is the next to come out of it. -/
structure AccEmitting (n m i k e : Nat) : Prop where
  sum : e + k * n = i * m + m
  late : i * m < k * n + n

section
variable {n m i k e : Nat}

/-- New index `k` comes out at the old index that first brings the sum to `(k + 1) * n`. -/
theorem nearest_eq (hlate : i * m < k * n + n) (hdue : k * n + n ≤ i * m + m) : nearest n m k = i := by
  have hdiv : ((k + 1) * n + (m - 1)) / m = i + 1 :=
    Nat.div_eq_of_lt_le (by simp only [Nat.succ_mul]; omega) (by simp only [Nat.succ_mul]; omega)
  rw [nearest, hdiv, Nat.add_sub_cancel]

/-- At its own size every index is its own source (R139). -/
theorem nearest_self (hk : k < n) : nearest n n k = k :=
  nearest_eq (by omega) (Nat.le_refl _)

theorem nearest_lt (hn : 0 < n) (hk : k < m) : nearest n m k < n := by
  have hend := mul_add_le_of_lt (c := n) hk
  have hdiv : ((k + 1) * n + (m - 1)) / m < n + 1 :=
    Nat.div_lt_of_lt_mul (by rw [Nat.mul_succ, Nat.succ_mul]; omega)
  rw [nearest]; omega

theorem AccAtRest.zero (hn : 0 < n) : AccAtRest n m 0 0 0 := ⟨by simp, hn⟩

theorem AccAtRest.add (h : AccAtRest n m i k e) : AccEmitting n m i k (e + m) := by
  obtain ⟨hsum, hlt⟩ := h
  constructor <;> omega

/-- Between two old indices the next new one is still to come. -/
theorem AccAtRest.new_lt (h : AccAtRest n m i k e) (hm : 0 < m) (hi : i < n) : k < m := by
  have hend := mul_add_le_of_lt (c := m) hi
  have hprod : k * n < m * n := by have := h.sum; rw [Nat.mul_comm m]; omega
  exact Nat.lt_of_mul_lt_mul_right hprod

/-- All old indices added, all new ones have come out. -/
theorem AccAtRest.new_eq (h : AccAtRest n m n k e) : k = m := by
  obtain ⟨hsum, hlt⟩ := h
  have hle : k * n ≤ m * n := by rw [Nat.mul_comm m]; omega
  have hge : m * n < (k + 1) * n := by rw [Nat.mul_comm m, Nat.succ_mul]; omega
  have hle := Nat.le_of_mul_le_mul_right hle (by omega)
  have hge := Nat.lt_of_mul_lt_mul_right hge
  omega

section
variable (h : AccEmitting n m i k e)
include h

theorem AccEmitting.atRest (he : e < n) : AccAtRest n m (i + 1) k e := ⟨by rw [h.sum, Nat.succ_mul], he⟩

theorem AccEmitting.emit (he : n ≤ e) : AccEmitting n m i (k + 1) (e - n) := by
  obtain ⟨hsum, hlate⟩ := h
  constructor <;> (rw [Nat.succ_mul]; omega)

/-- A new index that comes out has the present old one as its source. -/
theorem AccEmitting.nearest_eq (he : n ≤ e) : nearest n m k = i := by
  obtain ⟨hsum, hlate⟩ := h
  exact Machine.nearest_eq hlate (by omega)

/-- A new index that comes out is one of the `m`. -/
theorem AccEmitting.new_lt (hi : i < n) (he : n ≤ e) : k < m := by
  have hend := mul_add_le_of_lt (c := m) hi
  have hprod : (k + 1) * n ≤ m * n := by have := h.sum; rw [Nat.mul_comm m, Nat.succ_mul]; omega
  exact Nat.le_of_mul_le_mul_right hprod (by omega)

end

end

/-! ### Reading around a write -/

section
variable {m : Memory} {bs : List Byte} {a b n : Nat}

/-- A region below a write reads as before. -/
theorem Memory.bytes_putAll_above (h : a + n ≤ b) : (m.putAll b bs).bytes a n = m.bytes a n :=
  Memory.bytes_congr fun k hk => by rw [Memory.byte_putAll, if_neg (by omega)]

/-- Part of a copied region reads as the same part of the original. -/
theorem Memory.bytes_putAll_copy {o k : Nat} (h : m.bytes a n = some bs) (hk : o + k ≤ n) :
    (m.putAll b bs).bytes (b + o) k = m.bytes (a + o) k :=
  Memory.bytes_congr fun i hi => by
    have hlen := Memory.bytes_length h
    rw [Memory.byte_putAll, if_pos (by omega), Nat.add_assoc b, Nat.add_sub_cancel_left, Nat.add_assoc a,
      Memory.byte_of_bytes h (by omega)]

end

section
variable {s : State}

/-- The bytes of a row have values when its pixels do. -/
theorem row_byte_isSome {y o : Nat} (h : ∀ x < s.width, ∃ p, s.pixel x y = some p) (ho : o < s.lineSize) :
    (s.pm.byte (y * s.lineSize + o)).isSome = true := by
  have hbpp : 0 < s.bpp := Nat.pos_of_lt_mul_left ho
  have hmod := Nat.mod_lt o hbpp
  obtain ⟨p, hp⟩ := h (o / s.bpp) (Nat.div_lt_of_lt_mul (by rwa [Nat.mul_comm]))
  rw [← Nat.div_add_mod' o s.bpp, ← Nat.add_assoc, ← addr_eq, Memory.byte_of_bytes hp hmod]
  simpa [Memory.bytes_length hp] using hmod

/-- A buffer's bytes have values when its pixels do. -/
theorem holds_of_pixels (h : ∀ x y, x < s.width → y < s.height → ∃ p, s.pixel x y = some p) :
    s.holds s.dataSize := by
  intro a ha
  rw [dataSize_eq_rows] at ha
  have hline : 0 < s.lineSize := Nat.pos_of_lt_mul_left ha
  rw [← Nat.div_add_mod' a s.lineSize]
  exact row_byte_isSome (fun x hx => h x _ hx (Nat.div_lt_of_lt_mul (by rwa [Nat.mul_comm])))
    (Nat.mod_lt a hline)

/-- A checked geometry is not that of the empty buffer (R19). -/
theorem isEmpty_of_geometryOK (h : s.geometryOK) : s.isEmpty = false := by
  obtain ⟨hw, hh, hbpp, -⟩ := h
  have hnonzero : ∀ v : Word, int32 v ≠ 0 → (v == 0) = false := fun v hv =>
    beq_false_of_ne fun h0 => hv (by rw [h0]; rfl)
  simp only [State.isEmpty, hnonzero _ (Int.ne_of_gt hw), hnonzero _ (Int.ne_of_gt hh),
    hnonzero s.pbBpp (by omega), Bool.or_false]

theorem State.Ready.height_pos (h : s.Ready) : 0 < s.height := by
  obtain ⟨-, hh, -⟩ := h.geometryOK
  exact Int.pos_iff_toNat_pos.1 hh

theorem State.Ready.exists_pixel (h : s.Ready) {x y : Nat} (hx : x < s.width) (hy : y < s.height) :
    ∃ p, s.pixel x y = some p := (h.block rfl (pixelNumber_lt hx hy)).2

end

/-! ### A SCALE that passes its checks -/

/-- A SCALE of `s` in progress, with its two things that change: the shadow bank and the working values (R132). -/
def State.scaling (s : State) (m : Memory) (c : Scaler) : State := { s with sh := m, scl := c }

/-- The state in which the bank `m` has replaced the buffer (R137). -/
def State.replaced (s : State) (m : Memory) : State := exchangeBanks { s with sh := m }

section
variable {s : State} {m : Memory}

theorem replaced_addr (x q : Nat) : (s.replaced m).addr x q = q * s.newLineSize + x * s.bpp := addr_eq ..

theorem replaced_pixel (x q : Nat) : (s.replaced m).pixel x q = m.bytes (q * s.newLineSize + x * s.bpp) s.bpp := by
  rw [State.pixel, replaced_addr]; rfl

end

/-- A buffer is established and SCALE accepts its operands (R131). -/
structure State.Scalable (s : State) : Prop where
  ready : s.Ready
  accepted : s.scaleOK

section
variable {s : State} (h : s.Scalable)
include h

theorem State.Scalable.width_pos : 0 < s.newWidth := by
  obtain ⟨hw, -⟩ := h.accepted
  exact Int.pos_iff_toNat_pos.1 hw

theorem State.Scalable.height_pos : 0 < s.newHeight := by
  obtain ⟨-, hh, -⟩ := h.accepted
  exact Int.pos_iff_toNat_pos.1 hh

/-- The geometry that SCALE writes is a checked one. -/
theorem State.Scalable.geometryOK (m : Memory) : (s.replaced m).geometryOK := by
  obtain ⟨hw, hh, -, hfit⟩ := h.accepted
  obtain ⟨-, -, hbpp, -⟩ := h.ready.geometryOK
  exact ⟨hw, hh, hbpp, hfit⟩

/-- A new row fits the bank. -/
theorem State.Scalable.row_le_capr {r : Nat} (hr : r < s.newHeight) : r * s.newLineSize + s.newLineSize ≤ s.capr :=
  Nat.le_trans (row_le_dataSize (s := s.replaced []) hr) (dataSize_le_capr (h.geometryOK []))

/-- A new pixel fits the bank. -/
theorem State.Scalable.pixel_le_capr {k r : Nat} (hk : k < s.newWidth) (hr : r < s.newHeight) :
    r * s.newLineSize + k * s.bpp + s.bpp ≤ s.capr := by
  rw [← replaced_addr (m := [])]
  exact Nat.le_trans (pixel_le_row (s := s.replaced []) r hk) (h.row_le_capr hr)

end

/-! ### The new rows in the shadow bank -/

/-- In `m` the first `k` pixels of new row `q` are those that the closed form takes from old row `j` (R133). -/
def RowFrom (s : State) (m : Memory) (j q k : Nat) : Prop :=
  ∀ x < k, (s.replaced m).pixel x q = s.pixel (nearest s.width s.newWidth x) j

/-- The first `r` new rows stand in the shadow bank `m`, each from the old row of the closed form (R138). -/
structure RowsBuilt (s : State) (r : Nat) (m : Memory) : Prop where
  wf : m.wf
  below : m.below s.capr
  rows : ∀ q < r, RowFrom s m (nearest s.height s.newHeight q) q s.newWidth

section
variable {s : State} {m : Memory} {j q r k a : Nat} {bs : List Byte}

/-- A write behind the pixels of a row leaves them alone. -/
theorem RowFrom.write (h : RowFrom s m j q k) (ha : q * s.newLineSize + k * s.bpp ≤ a) :
    RowFrom s (m.putAll a bs) j q k := by
  intro x hx
  have hend := mul_add_le_of_lt (c := s.bpp) hx
  rw [← h x hx, replaced_pixel, replaced_pixel, Memory.bytes_putAll_above (by omega)]

/-- The next pixel of a row. -/
theorem RowFrom.succ (h : RowFrom s m j q k) (hk : (s.replaced m).pixel k q = s.pixel (nearest s.width s.newWidth k) j) :
    RowFrom s m j q (k + 1) := by
  intro x hx
  obtain hx | rfl := Nat.lt_succ_iff_lt_or_eq.1 hx
  · exact h x hx
  · exact hk

/-- A copied row comes from the same old row (R135). -/
theorem RowFrom.copy {b : Nat} (h : RowFrom s m j q s.newWidth)
    (hb : m.bytes (q * s.newLineSize) s.newLineSize = some bs) :
    RowFrom s (m.putAll (b * s.newLineSize) bs) j b s.newWidth := by
  intro x hx
  have hend : x * s.bpp + s.bpp ≤ s.newLineSize := mul_add_le_of_lt hx
  rw [← h x hx, replaced_pixel, replaced_pixel, Memory.bytes_putAll_copy hb hend]

/-- A whole new row reads as some bytes. -/
theorem RowFrom.exists_bytes (h : RowFrom s m j q s.newWidth) (hs : s.Ready) (hj : j < s.height) :
    ∃ bs, m.bytes (q * s.newLineSize) s.newLineSize = some bs :=
  Memory.bytes_isSome fun _ ho => row_byte_isSome (s := s.replaced m)
    (fun x hx => h x hx ▸ hs.exists_pixel (nearest_lt hs.width_pos hx) hj) ho

/-- A write behind the rows built leaves them alone. -/
theorem RowsBuilt.write (h : RowsBuilt s r m) (ha : r * s.newLineSize ≤ a) (hend : a + bs.length ≤ s.capr) :
    RowsBuilt s r (m.putAll a bs) where
  wf := Memory.wf_putAll h.wf ..
  below := Memory.below_putAll h.below hend
  rows q hq := (h.rows q hq).write (Nat.le_trans (mul_add_le_of_lt (c := s.newLineSize) hq) ha)

/-- One new row more. -/
theorem RowsBuilt.succ (h : RowsBuilt s r m) (hrow : RowFrom s m (nearest s.height s.newHeight r) r s.newWidth) :
    RowsBuilt s (r + 1) m where
  wf := h.wf
  below := h.below
  rows q hq := by
    obtain hq | rfl := Nat.lt_succ_iff_lt_or_eq.1 hq
    · exact h.rows q hq
    · exact hrow

end

/-! ### The horizontal pass (R133) -/

/-- The engine stands at old row `j` and new row `r`, whose rows before are built. -/
structure AtRow (s : State) (j r : Nat) (m : Memory) (c : Scaler) : Prop where
  built : RowsBuilt s r m
  oscan : c.oscan = j * s.lineSize
  nscan : c.nscan = r * s.newLineSize

/-- Old row `j` is being resampled into new row `r`, of which `k` pixels stand. -/
structure InRow (s : State) (j r k : Nat) (m : Memory) (c : Scaler) : Prop where
  place : AtRow s j r m c
  vertical : AccAtRest s.height s.newHeight j r c.verr
  row : RowFrom s m j r k
  nx : c.nx = k * s.bpp

/-- The first `i` columns of old row `j` have been walked. -/
def BetweenColumns (s : State) (j i : Nat) (u : State) : Prop :=
  ∃ m c r k, u = s.scaling m c ∧ InRow s j r k m c ∧ AccAtRest s.width s.newWidth i k c.herr

/-- Column `i` of old row `j` is being copied as often as it is due. -/
def InColumn (s : State) (j i : Nat) (u : State) : Prop :=
  ∃ m c r k, u = s.scaling m c ∧ InRow s j r k m c ∧ AccEmitting s.width s.newWidth i k c.herr ∧ c.i = i

/-- One new pixel, in terms of the shadow bank and the working values. -/
theorem emitPixel_scaling {s : State} {m : Memory} {c : Scaler} {px : List Byte}
    (hread : s.pm.bytes (c.oscan + c.i * s.bpp) s.bpp = some px) (hin : c.oscan + c.i * s.bpp + s.bpp ≤ s.capr)
    (hfit : c.nscan + c.nx + s.bpp ≤ s.capr) :
    emitPixel (s.scaling m c) = .ok (s.scaling (m.putAll (c.nscan + c.nx) px)
      { c with herr := c.herr - s.width, nx := c.nx + s.bpp }) := emitPixel_eq (s := s.scaling m c) hread hin hfit

section
variable {s u : State} {i j : Nat} (hs : s.Scalable) (hj : j < s.height)
include hs hj

/-- The pixel that comes out is the closed form's, and is written behind all that is built. -/
theorem InColumn.emitPixel_sat (hi : i < s.width) (h : InColumn s j i u) (hgo : u.width ≤ u.scl.herr) :
    Eng.Sat False (fun v => InColumn s j i v ∧ v.scl.herr < u.scl.herr) (fun _ _ => False) (emitPixel u) := by
  obtain ⟨m, c, r, k, rfl, hrow, hacc, rfl⟩ := h
  have hgo : s.width ≤ c.herr := hgo
  have hpos := hs.ready.width_pos
  obtain ⟨px, hpx⟩ := hs.ready.exists_pixel hi hj
  have hlen := Memory.bytes_length hpx
  have hsrc : c.oscan + c.i * s.bpp = s.addr c.i j := by rw [addr_eq, hrow.place.oscan]
  have hdst : c.nscan + c.nx = r * s.newLineSize + k * s.bpp := by rw [hrow.place.nscan, hrow.nx]
  have hin : s.addr c.i j + s.bpp ≤ s.capr :=
    Nat.le_trans (pixel_le_dataSize hi hj) (dataSize_le_capr hs.ready.geometryOK)
  have hfit := hs.pixel_le_capr (hacc.new_lt hi hgo) (hrow.vertical.new_lt hs.height_pos hj)
  have hpixel : (s.replaced (m.putAll (c.nscan + c.nx) px)).pixel k r = s.pixel (nearest s.width s.newWidth k) j := by
    rw [hacc.nearest_eq hgo, hpx, replaced_pixel, ← hdst, ← hlen, Memory.bytes_putAll]
  refine Eng.sat_of_eq (emitPixel_scaling (by rw [hsrc]; exact hpx) (hsrc ▸ hin) (hdst ▸ hfit))
    ⟨⟨_, _, r, k + 1, rfl, ?row, hacc.emit hgo, rfl⟩, Nat.sub_lt (Nat.lt_of_lt_of_le hpos hgo) hpos⟩
  exact {
    place := ⟨hrow.place.built.write (by omega) (by omega), hrow.place.oscan, hrow.place.nscan⟩
    vertical := hrow.vertical
    row := (hrow.row.write (by omega)).succ hpixel
    nx := by rw [Nat.succ_mul, ← hrow.nx] }

/-- A column is copied until the accumulator is at rest again, which takes finitely many passes (R140). -/
theorem BetweenColumns.scaleColumn_sat (hi : i < s.width) (h : BetweenColumns s j i u) :
    Eng.Sat False (BetweenColumns s j (i + 1)) (fun _ _ => False) (scaleColumn i u) := by
  obtain ⟨m, c, r, k, rfl, hrow, hacc⟩ := h
  have hstart : InColumn s j i (s.scaling m { c with i := i, herr := c.herr + s.newWidth }) :=
    ⟨m, _, r, k, rfl, ⟨⟨hrow.place.built, hrow.place.oscan, hrow.place.nscan⟩, hrow.vertical, hrow.row, hrow.nx⟩,
      hacc.add, rfl⟩
  have hloop := whileLoop_sat (F := False) (R := fun _ _ => False)
    (cond := fun v => decide (v.width ≤ v.scl.herr)) (body := emitPixel)
    (InColumn s j i) (fun v => v.scl.herr) (fun v hv hgo => hv.emitPixel_sat hs hj hi (of_decide_eq_true hgo)) hstart
    (Nat.le_refl _) fun v ⟨_, _, _, _, hv, _⟩ hgo => by
      subst hv; exact Nat.lt_of_lt_of_le hs.ready.width_pos (of_decide_eq_true hgo)
  refine hloop.mono (fun v hv => ?_) fun _ _ => id
  obtain ⟨⟨m, c, r, k, rfl, hrow, hacc, -⟩, hdone⟩ := hv
  exact ⟨m, c, r, k, rfl, hrow, hacc.atRest (Nat.lt_of_not_le (of_decide_eq_false hdone))⟩

/-- The columns of a row. -/
theorem BetweenColumns.columns_sat (h : BetweenColumns s j 0 u) :
    Eng.Sat False (BetweenColumns s j s.width) (fun _ _ => False) (forLoop scaleColumn 0 s.width u) := by
  have hloop := forLoop_sat (F := False) (R := fun _ _ => False) (BetweenColumns s j) (i := 0) (n := s.width)
    (fun i v _ hi hv => hv.scaleColumn_sat hs hj (by omega)) h
  rwa [Nat.zero_add] at hloop

end

/-! ### The vertical step (R134, R135) -/

/-- The first `j` old rows have been walked. -/
def BetweenRows (s : State) (j : Nat) (u : State) : Prop :=
  ∃ m c r, u = s.scaling m c ∧ AtRow s j r m c ∧ AccAtRest s.height s.newHeight j r c.verr

/-- Old row `j`, walked, is being committed as often as it is due; while it is, it stands in the next new row. -/
def Committing (s : State) (j : Nat) (u : State) : Prop :=
  ∃ m c r, u = s.scaling m c ∧ AtRow s (j + 1) r m c ∧ AccEmitting s.height s.newHeight j r c.verr ∧
    (s.height ≤ c.verr → RowFrom s m j r s.newWidth)

section
variable {s u : State} {j r : Nat} {m : Memory} {c : Scaler} (hs : s.Scalable) (hj : j < s.height)

/-- The last row committed, in terms of the shadow bank and the working values. -/
theorem commitRow_last_scaling (h : c.verr < 2 * s.height) :
    commitRow (s.scaling m c) = .ok (s.scaling m
      { c with verr := c.verr - s.height, nscan := c.nscan + s.newLineSize }) := commitRow_last (s := s.scaling m c) h

/-- A row committed and copied, in terms of the shadow bank and the working values. -/
theorem commitRow_copy_scaling {row : List Byte} (h : 2 * s.height ≤ c.verr)
    (hread : m.bytes c.nscan s.newLineSize = some row)
    (hfit : c.nscan + s.newLineSize + s.newLineSize ≤ s.capr) :
    commitRow (s.scaling m c) = .ok (s.scaling (m.putAll (c.nscan + s.newLineSize) row)
      { c with verr := c.verr - s.height, nscan := c.nscan + s.newLineSize }) :=
  commitRow_copy (s := s.scaling m c) h hread hfit

include hs hj

/-- The row committed is the closed form's, and so is its copy when the next new row is due from the same old one. -/
theorem Committing.commitRow_sat (h : Committing s j u) (hgo : u.height ≤ u.scl.verr) :
    Eng.Sat False (fun v => Committing s j v ∧ v.scl.verr < u.scl.verr) (fun _ _ => False) (commitRow u) := by
  obtain ⟨m, c, r, rfl, hplace, hacc, hrow⟩ := h
  have hgo : s.height ≤ c.verr := hgo
  have hrow := hrow hgo
  have hpos : 0 < s.height := by omega
  have hnscan : c.nscan + s.newLineSize = (r + 1) * s.newLineSize := by rw [hplace.nscan, Nat.succ_mul]
  have hbuilt : RowsBuilt s (r + 1) m := hplace.built.succ (hacc.nearest_eq hgo ▸ hrow)
  have hless : c.verr - s.height < c.verr := Nat.sub_lt (by omega) hpos
  by_cases hcopy : 2 * s.height ≤ c.verr
  · have hnext : r + 1 < s.newHeight := (hacc.emit hgo).new_lt hj (by omega)
    have hfit := hs.row_le_capr hnext
    obtain ⟨row, hread⟩ := hrow.exists_bytes hs.ready hj
    have hlen := Memory.bytes_length hread
    refine Eng.sat_of_eq (commitRow_copy_scaling hcopy (hplace.nscan ▸ hread) (hnscan ▸ hfit))
      ⟨⟨_, _, r + 1, rfl, ⟨?built, hplace.oscan, hnscan⟩, hacc.emit hgo, fun _ => ?row⟩, hless⟩
    · exact hbuilt.write (by omega) (by omega)
    · rw [hnscan]; exact hrow.copy hread
  · have hlast : ¬ s.height ≤ c.verr - s.height := by omega
    exact Eng.sat_of_eq (commitRow_last_scaling (by omega))
      ⟨⟨_, _, r + 1, rfl, ⟨hbuilt, hplace.oscan, hnscan⟩, hacc.emit hgo, fun hmore => absurd hmore hlast⟩, hless⟩

/-- A row is resampled in full, then committed until the accumulator is at rest again. -/
theorem BetweenRows.scaleRow_sat (h : BetweenRows s j u) :
    Eng.Sat False (BetweenRows s (j + 1)) (fun _ _ => False) (scaleRow j u) := by
  obtain ⟨m, c, r, rfl, ⟨hbuilt, hoscan, hnscan⟩, hacc⟩ := h
  have hfirst : BetweenColumns s j 0 (s.scaling m { c with j := j, herr := 0, nx := 0 }) :=
    ⟨m, _, r, 0, rfl, ⟨⟨hbuilt, hoscan, hnscan⟩, hacc, nofun, (Nat.zero_mul _).symm⟩, .zero hs.ready.width_pos⟩
  refine (hfirst.columns_sat hs hj).bind fun v hv => ?_
  obtain ⟨m, c, r, k, rfl, hrow, hwidth⟩ := hv
  obtain rfl := hwidth.new_eq
  have hstart : Committing s j
      (s.scaling m { c with verr := c.verr + s.newHeight, oscan := c.oscan + s.lineSize }) :=
    ⟨m, _, r, rfl, ⟨hrow.place.built, by rw [Nat.succ_mul, ← hrow.place.oscan], hrow.place.nscan⟩,
      hrow.vertical.add, fun _ => hrow.row⟩
  have hloop := whileLoop_sat (F := False) (R := fun _ _ => False)
    (cond := fun v => decide (v.height ≤ v.scl.verr)) (body := commitRow)
    (Committing s j) (fun v => v.scl.verr) (fun v hv hgo => hv.commitRow_sat hs hj (of_decide_eq_true hgo)) hstart
    (Nat.le_refl _) fun v ⟨_, _, _, hv, _⟩ hgo => by
      subst hv; exact Nat.lt_of_lt_of_le (Nat.zero_lt_of_lt hj) (of_decide_eq_true hgo)
  refine hloop.mono (fun v hv => ?_) fun _ _ => id
  obtain ⟨⟨m, c, r, rfl, hplace, hacc, -⟩, hdone⟩ := hv
  exact ⟨m, c, r, rfl, hplace, hacc.atRest (Nat.lt_of_not_le (of_decide_eq_false hdone))⟩

end

/-! ### SCALE as a whole -/

/-- SCALE of `s` has ended in `t` with `OK`: a buffer of the new size has replaced the old one, with the pixels of the
closed form (R137, R138), and all else is as before. -/
structure Scaled (s t : State) : Prop where
  ready : t.Ready
  ends : s.endsWith t .ok
  geometry : t.pbW = s.arg0 ∧ t.pbH = s.arg1 ∧ t.pbBpp = s.pbBpp
  pixel : ∀ x y, x < s.newWidth → y < s.newHeight →
    t.pixel x y = s.pixel (nearest s.width s.newWidth x) (nearest s.height s.newHeight y)
  keeps : t.bank = !s.bank ∧ s.sameOperands t ∧ t.pix = s.pix ∧ s.sameStreams t ∧ s.sameScript t

section
variable {s : State} (hs : s.Scalable)
include hs

/-- The loops of SCALE build every new row. -/
theorem scale_loop_builds :
    Eng.Sat False (fun u => ∃ m c, u = s.scaling m c ∧ RowsBuilt s s.newHeight m) (fun _ _ => False)
      (forLoop scaleRow 0 s.height (scaleStart s)) := by
  have hstart : BetweenRows s 0 (scaleStart s) :=
    ⟨s.sh, _, 0, rfl, ⟨⟨hs.ready.inv.sh_wf, hs.ready.inv.sh_below, nofun⟩, (Nat.zero_mul _).symm,
      (Nat.zero_mul _).symm⟩, .zero hs.ready.height_pos⟩
  have hloop := forLoop_sat (F := False) (R := fun _ _ => False) (BetweenRows s) (i := 0) (n := s.height)
    (fun j v _ hj hv => hv.scaleRow_sat hs (by omega)) hstart
  rw [Nat.zero_add] at hloop
  refine hloop.mono (fun v hv => ?_) fun _ _ => id
  obtain ⟨m, c, r, rfl, hplace, hacc⟩ := hv
  exact ⟨m, c, rfl, hacc.new_eq ▸ hplace.built⟩

/-- A bank with every new row built makes a buffer when it replaces the old one. -/
theorem RowsBuilt.scaled {m : Memory} (h : RowsBuilt s s.newHeight m) (c : Scaler) :
    Scaled s (complete (scrub (exchangeBanks (s.scaling m c)))) where
  ready := {
    inv := {
      cap_min := hs.ready.inv.cap_min
      cap_max := hs.ready.inv.cap_max
      pm_wf := h.wf
      sh_wf := .nil
      pm_below := h.below
      sh_below := nofun
      geometry := .inr (hs.geometryOK m)
      held := fun _ => holds_of_pixels (s := s.replaced m) fun x y hx hy => h.rows y hy x hx ▸
        hs.ready.exists_pixel (nearest_lt hs.ready.width_pos hx) (nearest_lt hs.ready.height_pos hy)
      decoding := nofun }
    idle := rfl
    buffer := isEmpty_of_geometryOK (s := s.replaced m) (hs.geometryOK m) }
  ends := ⟨rfl, by simp [State.scaling], rfl⟩
  geometry := ⟨rfl, rfl, rfl⟩
  pixel x y hx hy := h.rows y hy x hx
  keeps := ⟨rfl, ⟨rfl, rfl, rfl, rfl⟩, rfl, ⟨rfl, rfl⟩, rfl, rfl⟩

/-- SCALE of a buffer to a size it accepts (R137, R138). -/
theorem exec_scale_scaled : ∃ t, exec .scale s = .next t ∧ Scaled s t := by
  obtain ⟨_, hloop, m, c, rfl, hbuilt⟩ := (scale_loop_builds hs).exists_ok
  have hbody : scaleBody s = .ok (exchangeBanks (s.scaling m c)) := by rw [scaleBody, hloop]; rfl
  have hexec : exec .scale s = settleScrub (scaleBody s) := if_pos hs.accepted
  exact ⟨_, by rw [hexec, hbody, settleScrub_ok], hbuilt.scaled hs c⟩

end

/-- Settles O46: the new size passes the checks, and the rows that the loops build are those of the closed form. -/
theorem scaleSelectsNearestPixels : Obligations.ScaleSelectsNearestPixels := by
  intro s w h hs hw hh hwpos hhpos hfit
  have hbpp : int32 s.pbBpp = s.bpp := by
    obtain ⟨-, -, hbpp, -⟩ := hs.geometryOK
    exact (Int.toNat_of_nonneg (by omega)).symm
  have haccepted : s.scaleOK := by
    rw [State.scaleOK, hw, hh, hbpp]
    exact ⟨by omega, by omega, hs.buffer, by exact_mod_cast hfit⟩
  obtain rfl : s.newWidth = w := by rw [State.newWidth, hw, Int.toNat_natCast]
  obtain rfl : s.newHeight = h := by rw [State.newHeight, hh, Int.toNat_natCast]
  obtain ⟨t, hexec, ht⟩ := exec_scale_scaled ⟨hs, haccepted⟩
  obtain ⟨hgeomW, hgeomH, hgeomBpp⟩ := ht.geometry
  exact ⟨t, hexec, ht.ends, hgeomW, hgeomH, hgeomBpp, ht.pixel, ht.ready.holds, ht.keeps⟩

/-- Settles O47: at its own size every index is its own source, and equal pixels are equal data. -/
theorem scaleToOwnSizeIsIdentity : Obligations.ScaleToOwnSizeIsIdentity := by
  intro s hs hw hh
  have haccepted : s.scaleOK := by
    obtain ⟨hwpos, hhpos, -, hfit⟩ := hs.geometryOK
    rw [State.scaleOK, hw, hh]
    exact ⟨hwpos, hhpos, hs.buffer, hfit⟩
  have hwidth : s.newWidth = s.width := congrArg (Int.toNat ∘ int32) hw
  have hheight : s.newHeight = s.height := congrArg (Int.toNat ∘ int32) hh
  obtain ⟨t, hexec, ht⟩ := exec_scale_scaled ⟨hs, haccepted⟩
  obtain ⟨hgeomW, hgeomH, hgeomBpp⟩ := ht.geometry
  have hgeom : s.sameGeometry t := ⟨hgeomW.trans hw, hgeomH.trans hh, hgeomBpp⟩
  refine ⟨t, hexec, ht.ends, hgeom, data_eq_of_pixels ht.ready hs hgeom fun x y hx hy => ?_⟩
  rw [ht.pixel x y (hwidth ▸ hx) (hheight ▸ hy), hwidth, hheight, nearest_self hx, nearest_self hy]

/-! ### The checks (R131) -/

section
variable {s t : State}

theorem exec_scale_refused (h : ¬ s.scaleOK) : exec .scale s = .next (s.onlyStatus .invalidDimensions) := if_neg h

/-- A SCALE that passes its checks raises nothing. -/
theorem exec_scale_accepted_result (h : s.scaleOK) (hexec : exec .scale s = .next t) : t.result = .ok := by
  have hbody : settleScrub (scaleBody s) = .next t := (if_pos h).symm.trans hexec
  obtain ⟨u, -, rfl⟩ := (scaleBody_frame s).settleScrub_complete hbody
  exact complete_result _

theorem not_scaleOK_iff : ¬ s.scaleOK ↔ int32 s.arg0 ≤ 0 ∨ int32 s.arg1 ≤ 0 ∨ s.isEmpty = true ∨
    int32 s.arg0 * int32 s.arg1 * int32 s.pbBpp > s.capr := by
  simp only [State.scaleOK, not_and_or, not_lt, not_le, Bool.not_eq_false, gt_iff_lt]

end

/-- Settles O48: a SCALE that passes its checks ends with `OK`, and one that does not sets `STATUS` alone. -/
theorem scaleRefusesExactly : Obligations.ScaleRefusesExactly := by
  intro s _ _
  have hrefused : ∀ t, exec .scale s = .next t → t.result = .invalidDimensions → ¬ s.scaleOK := by
    intro t hexec hresult haccepted
    rw [exec_scale_accepted_result haccepted hexec] at hresult
    cases hresult
  refine ⟨?iff, fun t hexec hresult => ?status⟩
  case iff =>
    rw [← not_scaleOK_iff]
    exact ⟨fun ⟨t, hexec, hresult⟩ => hrefused t hexec hresult, fun h => ⟨_, exec_scale_refused h, rfl⟩⟩
  case status =>
    have hstatus := exec_scale_refused (hrefused t hexec hresult)
    rw [hexec] at hstatus
    cases hstatus
    rfl

end Sys2Proof.Machine
end

-- The proofs about the errors raised before any effect: InvalidDimensions (R154, R156) and OutOfBounds (R155).
section
/-! SUPPORT. A command whose check fails is a `raise` in the state it started in, which sets `STATUS` and nothing else.
Here stand which commands refuse a failed check, and which operands and registers fail it; SCALE's checks stand with
its proofs (R131). -/

namespace Sys2Proof.Machine

section
variable {s : State}

/-! ### The checks of GETPIX and SETPIX -/

/-- The buffer is checked first (R82, R83). -/
theorem requirePixel_of_isEmpty (f : Eng State) (h : s.isEmpty = true) :
    (do requireBuffer s; requireInBounds s; f) = raising .invalidDimensions s := by
  rw [requireBuffer_eq, if_pos h]
  rfl

theorem requirePixel_of_not_inBounds (f : Eng State) (h : s.isEmpty = false) (hxy : ¬ s.inBounds s.argX s.argY) :
    (do requireBuffer s; requireInBounds s; f) = raising .outOfBounds s := by
  rw [requireBuffer_eq, if_neg (ne_true_of_eq_false h), requireInBounds_eq, if_neg hxy]
  rfl

theorem exec_getpix_of_not_inBounds (h : s.isEmpty = false) (hxy : ¬ s.inBounds s.argX s.argY) :
    exec .getpix s = .next (s.onlyStatus .outOfBounds) :=
  congrArg settle (requirePixel_of_not_inBounds _ h hxy)

theorem exec_setpix_of_not_inBounds (h : s.isEmpty = false) (hxy : ¬ s.inBounds s.argX s.argY) :
    exec .setpix s = .next (s.onlyStatus .outOfBounds) :=
  congrArg settle (requirePixel_of_not_inBounds _ h hxy)

/-! ### The empty buffer -/

theorem isEmpty_iff : s.isEmpty = true ↔ s.pbW = 0 ∨ s.pbH = 0 ∨ s.pbBpp = 0 := by
  simp only [State.isEmpty, Bool.or_eq_true, beq_iff_eq, or_assoc]

/-- Every command that works on a buffer refuses the empty one (R125, R154). -/
theorem exec_of_isEmpty (h : s.isEmpty = true) :
    ∀ i ∈ [Instr.scale, .flipv, .fliph, .encode, .getpix, .setpix],
      exec i s = .next (s.onlyStatus .invalidDimensions) := by
  simp only [List.forall_mem_cons]
  refine ⟨?scale, ?flipv, ?fliph, ?encode, ?getpix, ?setpix, List.forall_mem_nil _⟩
  case scale => exact exec_scale_refused (not_scaleOK_iff.2 (.inr (.inr (.inl h))))
  case flipv => exact if_pos h
  case fliph => exact if_pos h
  case encode => exact if_pos h
  case getpix => exact congrArg settle (requirePixel_of_isEmpty _ h)
  case setpix => exact congrArg settle (requirePixel_of_isEmpty _ h)

/-! ### The geometry of ALLOC and DECODE -/

theorem not_geomOK_iff {cap : Nat} {w h bpp : Int} :
    ¬ GeomOK cap w h bpp ↔ w ≤ 0 ∨ h ≤ 0 ∨ bpp ∉ [1, 3, 4] ∨ w * h * bpp > cap := by
  simp only [GeomOK, not_and_or, not_lt, not_le, List.mem_cons, List.not_mem_nil, or_false, gt_iff_lt]

theorem exec_alloc_of_not_argsOK (h : ¬ s.argsOK) : exec .alloc s = .next (s.onlyStatus .invalidDimensions) := if_neg h

theorem exec_decode_of_not_argsOK (h : ¬ s.argsOK) : exec .decode s = .next (s.onlyStatus .invalidDimensions) := if_neg h

end

/-- Settles O22: each cause fails the check that its commands make first. -/
theorem invalidDimensionsCauses : Obligations.InvalidDimensionsCauses := by
  intro s
  refine ⟨fun htarget => ?target, fun hempty => exec_of_isEmpty (isEmpty_iff.2 hempty),
    fun hgeom => ?geometry, fun hbig => ?capacity⟩
  case target => exact exec_scale_refused (not_scaleOK_iff.2 (or_assoc.1 (.inl htarget)))
  case geometry =>
    have hargs : ¬ s.argsOK := not_geomOK_iff.2 hgeom
    exact List.forall_mem_cons.2
      ⟨exec_alloc_of_not_argsOK hargs, List.forall_mem_singleton.2 (exec_decode_of_not_argsOK hargs)⟩
  case capacity => exact exec_scale_refused (not_scaleOK_iff.2 (.inr (.inr (.inr hbig))))

/-- Settles O23: on a buffer the first check passes, so the second one raises. -/
theorem outOfBoundsCause : Obligations.OutOfBoundsCause := fun _ hbuffer hxy =>
  ⟨exec_getpix_of_not_inBounds hbuffer hxy, exec_setpix_of_not_inBounds hbuffer hxy⟩

end Sys2Proof.Machine
end

-- The proof about the reset input (R180, R181).
section
/-! SUPPORT. The status of the block that the reset input leaves, and the step that takes the input. Its other
registers and the streams stand with the laws of the state (`resetBlock_arg0` and those after it). -/

namespace Sys2Proof.Machine

@[simp] theorem resetBlock_isEmpty (s : State) : (resetBlock s).isEmpty = true :=
  isEmpty_iff.2 (.inl (resetBlock_pbW s))

/-- After reset `EMPTY` is the one bit of `STATUS` that is set (R180). -/
@[simp] theorem resetBlock_statusWord (s : State) : (resetBlock s).statusWord = 0x00000020 := by
  rw [State.statusWord, resetBlock_busy, resetBlock_isEmpty, resetBlock_sticky, resetBlock_result]
  rfl

/-- An idle block takes the reset input in one step. -/
theorem step_of_reset {s : State} {ops : List HostOp} (hidle : s.busy = false) (hhost : s.host = .reset :: ops) :
    step s = .next (resetBlock { s with host := ops }) :=
  step_of_host hidle hhost

/-- Settles O15: the step takes the reset input off the script and leaves `resetBlock`, whose registers, streams and
script its laws give. -/
theorem resetInputResetsTheBlock : Obligations.ResetInputResetsTheBlock := by
  intro s ops hidle hhost
  have hstreams : s.sameStreams (resetBlock { s with host := ops }) := ⟨resetBlock_inS _, resetBlock_outS _⟩
  exact ⟨_, step_of_reset hidle hhost, resetBlock_statusWord _,
    resetBlock_arg0 _, resetBlock_arg1 _, resetBlock_arg2 _, resetBlock_pix _,
    resetBlock_pbW _, resetBlock_pbH _, resetBlock_pbBpp _, resetBlock_capr _,
    hstreams, resetBlock_host _, resetBlock_reads _⟩

end Sys2Proof.Machine
end

-- The proofs that the two encodings and their decoders are inverse to each other (R61, R64, R68).
section
/-! SUPPORT. A chunk header is its count and its type, a command word is its `OP`: what each decoder answers on what the
encoder writes, and back. -/

namespace Sys2Proof

/-! ### From an instruction to its code and back -/

section
variable {n : Nat} (h1 : 1 ≤ n) (hmax : n ≤ 128)
include h1 hmax

/-- A count of 1 to 128 survives in the header of a `RAW` chunk (R64). -/
theorem decodeHeader_rawHeader : decodeHeader (rawHeader n) = .raw n := by
  have hnat : (rawHeader n).toNat = n - 1 := by rw [rawHeader, BitVec.toNat_ofNat]; omega
  rw [decodeHeader, hnat, if_pos (by omega), Nat.sub_add_cancel h1]

/-- A count of 1 to 128 survives in the header of a `RUN` chunk (R64). -/
theorem decodeHeader_runHeader : decodeHeader (runHeader n) = .run n := by
  have hnat : (runHeader n).toNat = n + 127 := by rw [runHeader, BitVec.toNat_ofNat]; omega
  rw [decodeHeader, hnat, if_neg (by omega), Nat.add_sub_cancel]

end

theorem Instr.wellFormed_raw_iff {n : Nat} : (Instr.raw n).WellFormed ↔ 1 ≤ n ∧ n ≤ 128 := by
  simp [Instr.WellFormed, Instr.check]

theorem Instr.wellFormed_run_iff {n : Nat} : (Instr.run n).WellFormed ↔ 1 ≤ n ∧ n ≤ 128 := by
  simp [Instr.WellFormed, Instr.check]

/-- Settles O1: a chunk by its count, a command by its one word. -/
theorem decodeInvertsEncode : Obligations.DecodeInvertsEncode := by
  intro i hi
  cases i with
  | raw n =>
    obtain ⟨h1, hmax⟩ := Instr.wellFormed_raw_iff.1 hi
    exact congrArg Except.ok (decodeHeader_rawHeader h1 hmax)
  | run n =>
    obtain ⟨h1, hmax⟩ := Instr.wellFormed_run_iff.1 hi
    exact congrArg Except.ok (decodeHeader_runHeader h1 hmax)
  | alloc => rfl
  | getpix => rfl
  | setpix => rfl
  | decode => rfl
  | encode => rfl
  | flipv => rfl
  | fliph => rfl
  | scale => rfl

/-! ### From a code to its instruction and back -/

/-- Every header is the one its chunk is coded as, and its count is 1 to 128 (R61, R69). -/
theorem encode_decodeHeader (h : Byte) : encode (decodeHeader h) = .header h ∧ (decodeHeader h).WellFormed := by
  have hlt := h.isLt
  unfold decodeHeader
  split
  next hraw =>
    refine ⟨congrArg Coded.header (BitVec.eq_of_toNat_eq ?_), Instr.wellFormed_raw_iff.2 (by omega)⟩
    rw [rawHeader, BitVec.toNat_ofNat]; omega
  next hrun =>
    refine ⟨congrArg Coded.header (BitVec.eq_of_toNat_eq ?_), Instr.wellFormed_run_iff.2 (by omega)⟩
    rw [runHeader, BitVec.toNat_ofNat]; omega

/-- A word whose bits 31:4 are zero is its `OP` (R67). -/
theorem command_eq_op {c : Word} (h : c.extractLsb' 4 28 = 0) : c = BitVec.ofNat 32 (c.extractLsb' 0 4).toNat := by
  have hhigh := congrArg BitVec.toNat h
  have hlt := c.isLt
  rw [BitVec.extractLsb'_toNat, Nat.shiftRight_eq_div_pow] at hhigh
  refine BitVec.eq_of_toNat_eq ?_
  rw [BitVec.toNat_ofNat, BitVec.extractLsb'_toNat, Nat.shiftRight_zero]
  have hhigh : c.toNat / 2 ^ 4 % 2 ^ 28 = 0 := hhigh
  omega

/-- A word that decodes is the one its command is coded as (R67, R68). -/
theorem encode_of_decodeCommand {c : Word} {i : Instr} (h : decodeCommand c = .ok i) :
    encode i = .command c ∧ i.WellFormed := by
  unfold decodeCommand at h
  split at h
  next hhigh =>
    have hc := command_eq_op hhigh
    split at h
    case h_9 => cases h
    all_goals
      next hop =>
        rw [hop] at hc
        cases h
        exact ⟨congrArg Coded.command hc.symm, rfl⟩
  next => cases h

/-- Settles O2: a header by its two halves, a word by its `OP`. -/
theorem encodeInvertsDecode : Obligations.EncodeInvertsDecode := by
  intro c i h
  cases c with
  | header b => cases h; exact encode_decodeHeader b
  | command c => exact encode_of_decodeCommand h

/-- Settles O4: thirteen closed instances. -/
theorem specCodesDecode : Obligations.SpecCodesDecode := by
  unfold Obligations.SpecCodesDecode
  decide

end Sys2Proof
end

-- The proofs about what every instruction leaves alone, and how a command ends (R14, R19, R32, R41, R160).
section
/-! SUPPORT. One frame for every instruction, and one account of what a command does that its checks let through; the
statements about all instructions are read off the two. -/

namespace Sys2Proof.Machine

/-! ### The frame of each instruction -/

/-- `t` with the status and the hidden values of `s`, which the end of any command may write (R14, R29). -/
def hiddenBack (s t : State) : State :=
  { t with
    result := s.result, sticky := s.sticky, busy := s.busy
    dec := s.dec, enc := s.enc, flip := s.flip, scl := s.scl, draws := s.draws }

/-- `t` with the registers, banks and streams of `s` that instruction `i` is there to write (R32). -/
def putBack (i : Instr) (s t : State) : State :=
  match i with
  | .raw _ | .run _ => { t with pm := s.pm, inS := { t.inS with pos := s.inS.pos } }
  | .alloc => { t with pm := s.pm, pbW := s.pbW, pbH := s.pbH, pbBpp := s.pbBpp }
  | .getpix => { t with pix := s.pix }
  | .setpix | .flipv | .fliph => { t with pm := s.pm }
  | .decode => { t with
      pm := s.pm, pbW := s.pbW, pbH := s.pbH, pbBpp := s.pbBpp, inS := { t.inS with pos := s.inS.pos } }
  | .encode => { t with outS := s.outS }
  | .scale => { t with pm := s.pm, sh := s.sh, bank := s.bank, pbW := s.pbW, pbH := s.pbH }

/-- From `s` to `t` nothing has changed but the status, the hidden values and what `i` is there to write. -/
def Kept (i : Instr) (s t : State) : Prop := putBack i s (hiddenBack s t) = s

section
variable {s t u : State} {n : Nat}

theorem Kept.onlyStatus (i : Instr) (s : State) (e : Result) : Kept i s (s.onlyStatus e) := by cases i <;> rfl

theorem ChunkFrame.kept_raw (h : ChunkFrame s u) (n : Nat) : Kept (.raw n) s u :=
  (congrArg (fun v => putBack (.raw n) s (hiddenBack s v)) h : putBack (.raw n) s (hiddenBack s _) = _)

/-- A DECODE that ends in error writes nothing but what is the chunk's (R100). -/
theorem Kept.abortDecode_raw (h : Kept (.raw n) s u) (e : Result) : Kept (.raw n) s (abortDecode e u) :=
  Eq.trans (by simp [putBack, hiddenBack, abortDecode_inS]) h

theorem Kept.abortDecode_decode (h : Kept .decode s u) (e : Result) : Kept .decode s (abortDecode e u) :=
  Eq.trans (by simp [putBack, hiddenBack, abortDecode_inS]) h

/-- What a DECODE in progress has written since it began is the DECODE's to write. -/
theorem DecRel.kept (h : DecRel (decodeStart s) u) : Kept .decode s u := by rw [h.frame]; rfl

theorem ChunkEnds.kept_raw (h : ChunkEnds s t) (n : Nat) : Kept (.raw n) s t := by
  obtain h | ⟨e, u, ⟨-, hu⟩, rfl⟩ := h
  · exact h.kept_raw n
  · exact (hu.kept_raw n).abortDecode_raw e

theorem EncodeFrame.kept (h : EncodeFrame s u) : Kept .encode s u := (congrArg (hiddenBack s) h :)

theorem FlipFrame.kept (h : FlipFrame s u) : Kept .flipv s u :=
  (congrArg (fun v => putBack .flipv s (hiddenBack s v)) h :)

theorem FlipEnds.kept (h : FlipEnds s t) : Kept .flipv s t := by
  obtain rfl | ⟨u, hu, rfl⟩ := h
  · rfl
  · exact hu.kept

/-- The exchange of the banks is SCALE's to do (R137). -/
theorem ScaleFrame.kept (h : ScaleFrame s u) : Kept .scale s (exchangeBanks u) :=
  (congrArg (fun v => putBack .scale s (hiddenBack s v)) h :)

/-- Every instruction keeps what is not its own. -/
theorem exec_kept {i : Instr} (h : exec i s = .next t) : Kept i s t := by
  cases i with
  | raw n => exact (execRaw_next h).kept_raw n
  | run n => exact (execRun_next h).kept_raw n
  | alloc => obtain rfl | ⟨-, rfl⟩ := execAlloc_next h <;> rfl
  | getpix => obtain ⟨bs, rfl⟩ | ⟨e, -, rfl⟩ := execGetpix_next h <;> rfl
  | setpix => obtain rfl | ⟨e, -, rfl⟩ := execSetpix_next h <;> rfl
  | decode =>
    obtain rfl | ⟨u, ⟨hu, -⟩, rfl⟩ | ⟨e, u, ⟨-, hu⟩, rfl⟩ := execDecode_next h
    · rfl
    · exact hu.kept
    · exact hu.kept.abortDecode_decode e
  | encode =>
    obtain rfl | ⟨u, hu, rfl⟩ | ⟨e, u, ⟨-, hu⟩, rfl⟩ := execEncode_next h
    · rfl
    · exact hu.kept
    · exact hu.kept
  | flipv => exact (execFlipv_next h).kept
  | fliph => exact (execFliph_next h).kept
  | scale =>
    obtain rfl | ⟨u, hu, rfl⟩ := execScale_next h
    · rfl
    · exact hu.kept

end

/-! ### The clauses of the frame -/

section
variable {s t : State} {i : Instr} (h : Kept i s t)
include h

theorem Kept.sameOperands : s.sameOperands t := by
  have h0 := congrArg State.arg0 h
  have h1 := congrArg State.arg1 h
  have h2 := congrArg State.arg2 h
  have hc := congrArg State.capr h
  cases i <;> exact ⟨h0, h1, h2, hc⟩

theorem Kept.sameScript : s.sameScript t := by
  have hhost := congrArg State.host h
  have hreads := congrArg State.reads h
  cases i <;> exact ⟨hhost, hreads⟩

theorem Kept.pix_eq (hi : i ≠ .getpix) : t.pix = s.pix := by
  have hpix := congrArg State.pix h
  cases i with
  | getpix => exact absurd rfl hi
  | _ => exact hpix

theorem Kept.sameGeometry (ha : i ≠ .alloc) (hd : i ≠ .decode) (hs : i ≠ .scale) : s.sameGeometry t := by
  have hw := congrArg State.pbW h
  have hh := congrArg State.pbH h
  have hb := congrArg State.pbBpp h
  cases i with
  | alloc => exact absurd rfl ha
  | decode => exact absurd rfl hd
  | scale => exact absurd rfl hs
  | _ => exact ⟨hw, hh, hb⟩

theorem Kept.pbBpp_eq (ha : i ≠ .alloc) (hd : i ≠ .decode) : t.pbBpp = s.pbBpp := by
  have hb := congrArg State.pbBpp h
  cases i with
  | alloc => exact absurd rfl ha
  | decode => exact absurd rfl hd
  | _ => exact hb

theorem Kept.sameShadow (hs : i ≠ .scale) : s.sameShadow t := by
  have hsh := congrArg State.sh h
  have hbank := congrArg State.bank h
  cases i with
  | scale => exact absurd rfl hs
  | _ => exact ⟨hsh, hbank⟩

theorem Kept.inS_eq (hi : i.isCommand = true) (hd : i ≠ .decode) : t.inS = s.inS := by
  have hin := congrArg State.inS h
  cases i with
  | raw n => cases hi
  | run n => cases hi
  | decode => exact absurd rfl hd
  | _ => exact hin

theorem Kept.inS_data_eq : t.inS.data = s.inS.data := by
  have hin := congrArg (fun v => v.inS.data) h
  cases i <;> exact hin

theorem Kept.inS_failAt_eq : t.inS.failAt = s.inS.failAt := by
  have hin := congrArg (fun v => v.inS.failAt) h
  cases i <;> exact hin

theorem Kept.outS_eq (hi : i ≠ .encode) : t.outS = s.outS := by
  have hout := congrArg State.outS h
  cases i with
  | encode => exact absurd rfl hi
  | _ => exact hout

/-- GETPIX and ENCODE only read the bank. -/
theorem Kept.pm_eq (hi : i = .getpix ∨ i = .encode) : t.pm = s.pm := by
  have hpm := congrArg State.pm h
  obtain rfl | rfl := hi
  · exact hpm
  · exact hpm

end

/-- Settles O17: three clauses of the frame. -/
theorem operandRegistersAreNeverWritten : Obligations.OperandRegistersAreNeverWritten := by
  intro i s t h
  have hk := exec_kept h
  exact ⟨hk.sameOperands, hk.sameScript, hk.pix_eq⟩

/-- Settles O18: three clauses of the frame. -/
theorem geometryWriters : Obligations.GeometryWriters := by
  intro i s t h
  have hk := exec_kept h
  exact ⟨hk.sameGeometry, hk.pbBpp_eq, hk.sameShadow⟩

/-! ### What ENCODE does to `OUT` -/

section
variable {s t u : State}

/-- `OUT` of `u` holds the bytes of `OUT` of `s` with some appended. -/
abbrev Appended (s u : State) : Prop := s.outS.data <+: u.outS.data

theorem outPut_appends (h : Appended s u) (b : Byte) :
    Eng.Sat True (Appended s) (fun _ => Appended s) (outPut u b) :=
  (outPut_sat u b).mono (fun _ hv => hv ▸ h.trans (List.prefix_append ..)) fun _ _ ⟨_, hv⟩ => hv ▸ h

theorem outPutAll_appends (h : Appended s u) (bs : List Byte) :
    Eng.Sat True (Appended s) (fun _ => Appended s) (outPutAll u bs) := by
  induction bs generalizing u with
  | nil => exact h
  | cons b bs ih => exact (outPut_appends h b).bind fun _ => ih

theorem encodeChunk_appends (h : Appended s u) :
    Eng.Sat True (Appended s) (fun _ => Appended s) (encodeChunk u) :=
  (extendRun_sat u 128 _).bind fun e _ =>
    (outPut_appends (u := { u with enc := { e with cur := e.cur + e.rl } }) h _).bind fun _ hv =>
      (memRead_sat ..).bind fun bs _ => outPutAll_appends hv bs

/-- However ENCODE ends, `OUT` has only grown (R23, R113). -/
theorem exec_encode_appends (h : exec .encode s = .next t) : Appended s t := by
  by_cases hempty : s.isEmpty = true
  · cases (if_pos hempty).symm.trans h
    exact List.prefix_rfl
  · have hloop : Eng.Sat True (Appended s) (fun _ => Appended s) (encodeLoop (encodeStart s)) :=
      whileLoop_keeps (fun _ => encodeChunk_appends) List.prefix_rfl
    obtain ⟨u, hu, rfl⟩ | ⟨e, u, hu, rfl⟩ := hloop.settleScrub_next ((if_neg hempty).symm.trans h)
    · exact hu
    · exact hu

end

/-- Settles O19: the streams' clauses of the frame; for ENCODE `exec_encode_appends`. -/
theorem streamUsers : Obligations.StreamUsers := by
  intro i s t h
  have hk := exec_kept h
  have hprefix : Appended s t := by
    by_cases hi : i = .encode
    · exact exec_encode_appends (hi ▸ h)
    · rw [Appended, hk.outS_eq hi]
  obtain ⟨bs, hbs⟩ := hprefix
  exact ⟨hk.inS_eq, hk.inS_data_eq, hk.inS_failAt_eq, hk.outS_eq, bs, hbs.symm⟩

/-! ### Only inside the valid region -/

/-- A write inside the first `n` bytes leaves those outside alone. -/
theorem Memory.byte_putAll_outside {m : Memory} {a n k : Nat} {bs : List Byte} (hfit : a + bs.length ≤ n)
    (hk : ¬(0 ≤ k ∧ k < 0 + n)) : (m.putAll a bs).byte k = m.byte k := by
  rw [Memory.byte_putAll, if_neg (by omega)]

/-- The flips' frame, and no byte outside the valid region written. -/
structure FlipWithin (s u : State) : Prop where
  frame : FlipFrame s u
  outside : s.sameOutside u 0 s.dataSize

section
variable {R : Result → State → Prop} {s t u : State}

theorem FlipWithin.refl (s : State) : FlipWithin s s := ⟨.refl s, fun _ _ => rfl⟩

/-- A write inside the valid region, as a pass of a flip makes it. -/
theorem FlipWithin.write (h : FlipWithin s u) (f : Flipper) {a : Nat} {bs : List Byte}
    (hfit : a + bs.length ≤ s.dataSize) : FlipWithin s { u with flip := f, pm := u.pm.putAll a bs } where
  frame := h.frame
  outside k hk := (Memory.byte_putAll_outside hfit hk).trans (h.outside k hk)

/-- The two rows that change places are rows of the buffer. -/
theorem swapRows_within (h : FlipWithin s u) {i : Nat} (hi : i < s.height) :
    Eng.Sat True (FlipWithin s) R (swapRows i u) := by
  have hgeom := h.frame.sameGeometry
  have hrow : ∀ y < s.height, y * u.lineSize + u.lineSize ≤ s.dataSize := fun y hy => by
    rw [hgeom.lineSize_eq]; exact row_le_dataSize hy
  refine (memRead_sat ..).bind fun upper ⟨_, hupper⟩ => (memRead_sat ..).bind fun lower ⟨_, hlower⟩ =>
    (memWrite_sat ..).bind fun v ⟨_, hv⟩ => ?_
  subst hv
  refine (memWrite_sat ..).mono (fun v ⟨_, hv⟩ => ?_) fun _ _ => id
  subst hv
  refine (h.write _ ?_).write _ ?_
  · rw [Memory.bytes_length hlower]; exact hrow i hi
  · show (u.height - 1 - i) * u.lineSize + upper.length ≤ _
    rw [Memory.bytes_length hupper]; exact hrow _ (by rw [hgeom.height_eq]; omega)

/-- The two pixels that change places are pixels of the buffer. -/
theorem swapPixels_within (h : FlipWithin s u) {y j : Nat} (hy : y < s.height) (hj : j < s.width) :
    Eng.Sat True (FlipWithin s) R (swapPixels y j u) := by
  have hgeom := h.frame.sameGeometry
  have hpixel : ∀ x < s.width, u.addr x y + u.bpp ≤ s.dataSize := fun x hx => by
    rw [hgeom.addr_eq, hgeom.bpp_eq]; exact pixel_le_dataSize hx hy
  refine (memRead_sat ..).bind fun left ⟨_, hleft⟩ => (memRead_sat ..).bind fun right ⟨_, hright⟩ =>
    (memWrite_sat ..).bind fun v ⟨_, hv⟩ => ?_
  subst hv
  refine (memWrite_sat ..).mono (fun v ⟨_, hv⟩ => ?_) fun _ _ => id
  subst hv
  refine (h.write _ ?_).write _ ?_
  · rw [Memory.bytes_length hright]; exact hpixel j hj
  · show u.addr (u.width - 1 - j) y + left.length ≤ _
    rw [Memory.bytes_length hleft]; exact hpixel _ (by rw [hgeom.width_eq]; omega)

theorem flipv_loop_within (s : State) :
    Eng.Sat True (FlipWithin s) R (forLoop swapRows 0 (s.height / 2) s) :=
  forLoop_sat (fun _ => FlipWithin s) (fun _ _ _ hi hv => swapRows_within hv (by omega)) (.refl s)

theorem mirrorRow_within (h : FlipWithin s u) {y : Nat} (hy : y < s.height) :
    Eng.Sat True (FlipWithin s) R (mirrorRow y u) := by
  have hw := h.frame.sameGeometry.width_eq
  exact forLoop_sat (fun _ => FlipWithin s) (fun _ _ _ hj hv => swapPixels_within hv hy (by omega)) h

theorem fliph_loop_within (s : State) :
    Eng.Sat True (FlipWithin s) R (forLoop mirrorRow 0 s.height s) :=
  forLoop_sat (fun _ => FlipWithin s) (fun _ _ _ hy hv => mirrorRow_within hv (by omega)) (.refl s)

end

/-! ### A command that its checks let through -/

/-- From `s` command `i` has led to `t` and was not refused: how it has ended, and where it has written. -/
structure Worked (i : Instr) (s t : State) : Prop where
  error : t.result = .ok ∨ (i = .decode ∧ streamError t.result) ∨ (i = .encode ∧ t.result = .writeFailure)
  ends : s.endsWith t t.result
  outside : i ≠ .scale → s.sameOutside t 0 t.dataSize

section
variable {s t u : State} {i : Instr}

/-- The end with `OK` (R14). -/
theorem endsWith_complete (h : u.sticky = s.sticky) : s.endsWith (complete u) .ok := ⟨rfl, by simpa using h, rfl⟩

/-- The end in an error (R160). -/
theorem endsWith_raise {e : Result} (h : e ≠ .ok) : s.endsWith (raise e u) e := ⟨rfl, by simp [h], rfl⟩

theorem streamError.ne_ok {e : Result} (h : streamError e) : e ≠ .ok := by rintro rfl; obtain h | h := h <;> cases h

theorem pixelError.ne_ok {e : Result} (h : pixelError e) : e ≠ .ok := by rintro rfl; obtain h | h := h <;> cases h

/-- The decoder's relation is a chunk's frame. -/
theorem DecRel.chunkFrame (h : DecRel s u) : ChunkFrame s u := by rw [h.frame]; rfl

theorem EncodeFrame.sticky_eq (h : EncodeFrame s u) : u.sticky = s.sticky := (congrArg State.sticky h :)
theorem FlipFrame.sticky_eq (h : FlipFrame s u) : u.sticky = s.sticky := (congrArg State.sticky h :)
theorem ScaleFrame.sticky_eq (h : ScaleFrame s u) : u.sticky = s.sticky := (congrArg State.sticky h :)

theorem drawData_sameOutside (s : State) : s.sameOutside (drawData s) 0 s.dataSize := fun k hk => by
  rw [drawData_byte, if_neg (by omega)]

/-- The pixel that GETPIX and SETPIX address lies in the valid region (R85). -/
theorem argAddr_le_dataSize (h : s.inBounds s.argX s.argY) : s.argAddr + s.bpp ≤ s.dataSize := by
  obtain ⟨hx0, hx, hy0, hy⟩ := h
  exact pixel_le_dataSize (by omega) (by omega)

theorem unpackPixel_length (v : Word) (n : Nat) : (unpackPixel v n).length = n := by simp [unpackPixel]

theorem execAlloc_worked (h : exec .alloc s = .next t) : t = s.onlyStatus .invalidDimensions ∨ Worked .alloc s t := by
  obtain rfl | ⟨-, rfl⟩ := execAlloc_next h
  · exact .inl rfl
  · exact .inr ⟨.inl rfl, endsWith_complete rfl, fun _ => drawData_sameOutside (setGeometry ..)⟩

theorem execGetpix_worked (h : exec .getpix s = .next t) :
    (∃ e, pixelError e ∧ t = s.onlyStatus e) ∨ Worked .getpix s t := by
  obtain ⟨bs, rfl⟩ | hraise := execGetpix_next h
  · exact .inr ⟨.inl rfl, endsWith_complete rfl, fun _ _ _ => rfl⟩
  · exact .inl hraise

/-- SETPIX writes only with its operands in bounds (R83). -/
theorem execSetpix_worked (h : exec .setpix s = .next t) :
    (∃ e, pixelError e ∧ t = s.onlyStatus e) ∨ Worked .setpix s t := by
  have hbody : Eng.Sat True
      (fun u => s.inBounds s.argX s.argY ∧ u = { s with pm := s.pm.putAll s.argAddr (unpackPixel s.pix s.bpp) })
      (fun e u => pixelError e ∧ u = s) (setpixBody s) :=
    requirePixel_sat fun _ hin => (memWrite_sat ..).mono (fun _ hv => ⟨hin, hv.2⟩) fun _ _ => id
  obtain ⟨_, ⟨hin, rfl⟩, rfl⟩ | ⟨e, _, ⟨he, rfl⟩, rfl⟩ := hbody.settle_next h
  · have hfit : s.argAddr + (unpackPixel s.pix s.bpp).length ≤ s.dataSize := by
      rw [unpackPixel_length]; exact argAddr_le_dataSize hin
    exact .inr ⟨.inl rfl, endsWith_complete rfl, fun _ _ hk => Memory.byte_putAll_outside hfit hk⟩
  · exact .inl ⟨e, he, rfl⟩

theorem execDecode_worked (h : exec .decode s = .next t) :
    t = s.onlyStatus .invalidDimensions ∨ Worked .decode s t := by
  obtain rfl | ⟨u, ⟨hu, -⟩, rfl⟩ | ⟨e, u, ⟨he, hu⟩, rfl⟩ := execDecode_next h
  · exact .inl rfl
  · refine .inr ⟨.inl rfl, endsWith_complete hu.chunkFrame.sticky_eq, fun _ => ?_⟩
    rw [finishDecode_dataSize, hu.dataSize_eq]
    exact hu.outside
  · refine .inr ⟨.inr (.inl ⟨rfl, he⟩), endsWith_raise he.ne_ok, fun _ k hk => ?_⟩
    rw [abortDecode_dataSize] at hk
    rw [abortDecode_pm, ← drawData_pm, drawData_sameOutside u k hk]
    exact hu.outside k (hu.dataSize_eq ▸ hk)

theorem execEncode_worked (h : exec .encode s = .next t) :
    t = s.onlyStatus .invalidDimensions ∨ Worked .encode s t := by
  have hout : s.sameOutside t 0 t.dataSize := fun k _ => by rw [(exec_kept h).pm_eq (.inr rfl)]
  obtain rfl | ⟨u, hu, rfl⟩ | ⟨e, u, ⟨rfl, hu⟩, rfl⟩ := execEncode_next h
  · exact .inl rfl
  · exact .inr ⟨.inl rfl, endsWith_complete hu.sticky_eq, fun _ => hout⟩
  · exact .inr ⟨.inr (.inr ⟨rfl, rfl⟩), endsWith_raise nofun, fun _ => hout⟩

/-- A flip ends as its loop does. -/
theorem FlipWithin.worked (h : FlipWithin s u) (i : Instr) : Worked i s (complete (scrub u)) where
  error := .inl rfl
  ends := endsWith_complete h.frame.sticky_eq
  outside _ := by
    have hsize : u.dataSize = s.dataSize := (congrArg State.dataSize h.frame :)
    rw [complete_dataSize, scrub_dataSize, hsize]
    exact h.outside

theorem execFlipv_worked (h : exec .flipv s = .next t) : t = s.onlyStatus .invalidDimensions ∨ Worked .flipv s t := by
  by_cases hempty : s.isEmpty = true
  · cases (if_pos hempty).symm.trans h
    exact .inl rfl
  · obtain ⟨u, hu, rfl⟩ := (flipv_loop_within s).settleScrub_complete ((if_neg hempty).symm.trans h)
    exact .inr (hu.worked _)

theorem execFliph_worked (h : exec .fliph s = .next t) : t = s.onlyStatus .invalidDimensions ∨ Worked .fliph s t := by
  by_cases hempty : s.isEmpty = true
  · cases (if_pos hempty).symm.trans h
    exact .inl rfl
  · obtain ⟨u, hu, rfl⟩ := (fliph_loop_within s).settleScrub_complete ((if_neg hempty).symm.trans h)
    exact .inr (hu.worked _)

theorem execScale_worked (h : exec .scale s = .next t) : t = s.onlyStatus .invalidDimensions ∨ Worked .scale s t := by
  obtain rfl | ⟨u, hu, rfl⟩ := execScale_next h
  · exact .inl rfl
  · exact .inr ⟨.inl rfl, endsWith_complete hu.sticky_eq, fun hi => absurd rfl hi⟩

/-- A command is refused by one of its checks, with nothing but the status changed, or it does its work. -/
theorem exec_command_cases (hi : i.isCommand = true) (h : exec i s = .next t) :
    (∃ e, pixelError e ∧ t = s.onlyStatus e) ∨ Worked i s t := by
  have hearly : t = s.onlyStatus .invalidDimensions → ∃ e, pixelError e ∧ t = s.onlyStatus e :=
    fun ht => ⟨_, .inl rfl, ht⟩
  cases i with
  | raw n => cases hi
  | run n => cases hi
  | alloc => exact (execAlloc_worked h).imp_left hearly
  | getpix => exact execGetpix_worked h
  | setpix => exact execSetpix_worked h
  | decode => exact (execDecode_worked h).imp_left hearly
  | encode => exact (execEncode_worked h).imp_left hearly
  | flipv => exact (execFlipv_worked h).imp_left hearly
  | fliph => exact (execFliph_worked h).imp_left hearly
  | scale => exact (execScale_worked h).imp_left hearly

end

/-- Settles O16: a refused command and one that has done its work both end in the status. -/
theorem commandsEndInStatus : Obligations.CommandsEndInStatus := by
  intro i s t hi h
  obtain ⟨e, he, rfl⟩ | hw := exec_command_cases hi h
  · exact endsWith_raise he.ne_ok
  · exact hw.ends

/-- Settles O20: a refused command writes no byte, and one that does its work writes in the valid region. -/
theorem commandsStayInTheValidRegion : Obligations.CommandsStayInTheValidRegion := by
  intro i s t hi h
  refine ⟨fun hs => ?_, (exec_kept h).pm_eq⟩
  obtain ⟨e, -, rfl⟩ | hw := exec_command_cases hi h
  · exact fun _ _ => rfl
  · exact hw.outside hs

/-- Settles O24: only a refused command ends in one of the two early errors, and work ends in no other errors than those
of DECODE and ENCODE. -/
theorem earlyErrorsLeaveNoTrace : Obligations.EarlyErrorsLeaveNoTrace := by
  intro i s t hi h
  obtain ⟨e, he, rfl⟩ | ⟨herror, -, -⟩ := exec_command_cases hi h
  · obtain rfl | rfl := he
    · exact ⟨fun _ => rfl, nofun, nofun, nofun⟩
    · exact ⟨fun _ => rfl, nofun, nofun, nofun⟩
  · obtain hok | ⟨rfl, hstream | hstream⟩ | ⟨rfl, hwrite⟩ := herror
    · rw [hok]; exact ⟨nofun, nofun, nofun, nofun⟩
    · rw [hstream]; exact ⟨nofun, fun _ => rfl, nofun, nofun⟩
    · rw [hstream]; exact ⟨nofun, fun _ => rfl, nofun, nofun⟩
    · rw [hwrite]; exact ⟨nofun, nofun, fun _ => rfl, nofun⟩

/-! ### No command empties a buffer (R19) -/

section
variable {s t : State}

theorem State.sameGeometry.isEmpty_eq (h : s.sameGeometry t) : t.isEmpty = s.isEmpty := by
  obtain ⟨hw, hh, hb⟩ := h
  rw [State.isEmpty, hw, hh, hb]; rfl

/-- The geometry that ALLOC or DECODE lets through is written, and it is not empty. -/
theorem isEmpty_of_argsOK (hargs : s.argsOK) (hw : t.pbW = s.arg0) (hh : t.pbH = s.arg1) (hb : t.pbBpp = s.arg2)
    (hcap : t.capr = s.capr) : t.isEmpty = false :=
  isEmpty_of_geometryOK (by rw [State.geometryOK, hw, hh, hb, hcap]; exact hargs)

/-- However a DECODE that its check lets through ends, the geometry is as requested (R98, R100). -/
theorem exec_decode_geometry (hargs : s.argsOK) (h : exec .decode s = .next t) :
    t.pbW = s.arg0 ∧ t.pbH = s.arg1 ∧ t.pbBpp = s.arg2 := by
  obtain ⟨u, hloop, hu, -⟩ | ⟨e, u, hloop, -, hu⟩ := decodeLoop_cases hargs
  · rw [exec_decode_of_argsOK hargs, hloop] at h
    cases h
    exact hu.chunkFrame.sameGeometry
  · rw [exec_decode_of_argsOK hargs, hloop] at h
    cases h
    rw [abortDecode_pbW, abortDecode_pbH, abortDecode_pbBpp]
    exact hu.chunkFrame.sameGeometry

theorem exec_alloc_isEmpty (h : exec .alloc s = .next t) (hs : s.isEmpty = false) : t.isEmpty = false := by
  obtain rfl | ⟨hargs, rfl⟩ := execAlloc_next h
  · exact hs
  · exact isEmpty_of_argsOK hargs rfl rfl rfl rfl

theorem exec_decode_isEmpty (h : exec .decode s = .next t) (hs : s.isEmpty = false) : t.isEmpty = false := by
  by_cases hargs : s.argsOK
  · obtain ⟨hw, hh, hb⟩ := exec_decode_geometry hargs h
    exact isEmpty_of_argsOK hargs hw hh hb (exec_capr h)
  · cases (exec_decode_of_not_argsOK hargs).symm.trans h
    exact hs

theorem ne_zero_of_int32_pos {v : Word} (h : 0 < int32 v) : v ≠ 0 := by
  rintro rfl
  exact absurd h (by decide)

/-- The new size of SCALE is positive, and the pixel size stays (R131). -/
theorem exec_scale_isEmpty (h : exec .scale s = .next t) (hs : s.isEmpty = false) : t.isEmpty = false := by
  by_cases haccepted : s.scaleOK
  · obtain rfl | ⟨u, hu, rfl⟩ := execScale_next h
    · exact hs
    · obtain ⟨hw, hh, -⟩ := haccepted
      have hbpp : s.pbBpp ≠ 0 := fun h0 => ne_true_of_eq_false hs (isEmpty_iff.2 (.inr (.inr h0)))
      rw [← Bool.not_eq_true, isEmpty_iff]
      rintro (h0 | h0 | h0)
      · exact ne_zero_of_int32_pos hw ((congrArg State.arg0 hu :).symm.trans h0)
      · exact ne_zero_of_int32_pos hh ((congrArg State.arg1 hu :).symm.trans h0)
      · exact hbpp ((congrArg State.pbBpp hu :).symm.trans h0)
  · cases (exec_scale_refused haccepted).symm.trans h
    exact hs

end

/-- Settles O21: the three writers of the geometry check it first, the other instructions keep it. -/
theorem commandsNeverEmptyTheBuffer : Obligations.CommandsNeverEmptyTheBuffer := by
  intro i s t h hs
  by_cases hi : i = .alloc ∨ i = .decode ∨ i = .scale
  · obtain rfl | rfl | rfl := hi
    · exact exec_alloc_isEmpty h hs
    · exact exec_decode_isEmpty h hs
    · exact exec_scale_isEmpty h hs
  · have hgeom : s.sameGeometry t := (exec_kept h).sameGeometry (by tauto) (by tauto) (by tauto)
    rw [hgeom.isEmpty_eq, hs]

end Sys2Proof.Machine
end

-- The proofs about the registers, the host's accesses to them, and the state after reset (R11 to R14, R31, R166).
section
/-! SUPPORT. The fields of the `STATUS` word, and the step that takes one access of the host. -/

namespace Sys2Proof.Machine

/-! ### The `STATUS` word (R14) -/

section
variable (s : State)

theorem statusWord_result : s.statusWord.extractLsb' 0 4 = s.result.code := BitVec.extractLsb'_append_eq_right

/-- A bit above the result. -/
theorem statusWord_getLsbD (k : Nat) : s.statusWord.getLsbD (k + 4) =
    (BitVec.ofBool s.busy ++ (0 : BitVec 25) ++ BitVec.ofBool s.isEmpty ++ BitVec.ofBool s.sticky).getLsbD k :=
  BitVec.getLsbD_append.trans (by rw [if_neg (by omega), Nat.add_sub_cancel])

theorem statusWord_sticky : s.statusWord.getLsbD 4 = s.sticky :=
  (statusWord_getLsbD s 0).trans (by simp only [BitVec.getLsbD_append]; simp)

theorem statusWord_empty : s.statusWord.getLsbD 5 = s.isEmpty :=
  (statusWord_getLsbD s 1).trans (by simp only [BitVec.getLsbD_append]; simp)

theorem statusWord_zeros : s.statusWord.extractLsb' 6 25 = 0 :=
  calc s.statusWord.extractLsb' 6 25
      = (BitVec.ofBool s.busy ++ (0 : BitVec 25) ++ BitVec.ofBool s.isEmpty
          ++ BitVec.ofBool s.sticky).extractLsb' 2 25 :=
        BitVec.extractLsb'_append_eq_of_le (by decide)
    _ = (BitVec.ofBool s.busy ++ (0 : BitVec 25) ++ BitVec.ofBool s.isEmpty).extractLsb' 1 25 :=
        BitVec.extractLsb'_append_eq_of_le (by decide)
    _ = (BitVec.ofBool s.busy ++ (0 : BitVec 25)).extractLsb' 0 25 :=
        BitVec.extractLsb'_append_eq_of_le (by decide)
    _ = 0 := BitVec.extractLsb'_append_eq_right

theorem statusWord_busy : s.statusWord.getLsbD 31 = s.busy :=
  (statusWord_getLsbD s 27).trans (by simp only [BitVec.getLsbD_append]; simp)

end

/-- Settles O13: each field of the word, the result by its code. -/
theorem statusWordFields : Obligations.StatusWordFields := by
  intro s
  refine ⟨?code, statusWord_sticky s, ?empty, statusWord_zeros s, statusWord_busy s⟩
  case code =>
    rw [statusWord_result]
    cases s.result <;> rfl
  case empty => rw [statusWord_empty, isEmpty_iff]

/-! ### The state after reset (R31) -/

/-- The range of the capacity (R4). -/
theorem cap_range : 4 ≤ Config.cap ∧ Config.cap < 2 ^ 31 := by
  have hmod : Config.capChoice % (2 ^ 31 - 4) < 2 ^ 31 - 4 := Nat.mod_lt _ (by decide)
  rw [Config.cap]
  omega

/-- Settles O14: the fields of `State.reset`, and the range of the capacity. -/
theorem resetLeavesTheSpecsValues : Obligations.ResetLeavesTheSpecsValues :=
  ⟨rfl, rfl, rfl, rfl, rfl, rfl, rfl, rfl, rfl, cap_range⟩

/-- Settles O49: both banks are without bytes, and the empty geometry asks for none. -/
theorem invariantHoldsAtReset : Obligations.InvariantHoldsAtReset where
  cap_min := cap_range.1
  cap_max := cap_range.2
  pm_wf := .nil
  sh_wf := .nil
  pm_below := nofun
  sh_below := nofun
  geometry := .inl ⟨rfl, rfl, rfl⟩
  held := fun _ => nofun
  decoding := nofun

/-! ### Steps between commands -/

/-- Settles O9: an idle block takes the host's next action, and there is none. -/
theorem idleHoldsEverything : Obligations.IdleHoldsEverything := by
  intro s hidle hhost
  simp only [step, hidle, idleStep, hhost, Bool.false_eq_true, if_false]

section
variable {s : State} {ops : List HostOp} {r : Reg} {o : Nat} {v : Word}

/-- Settles O6: the write reaches `CMD`, and the word starts the instruction it decodes to. -/
theorem commandWriteRunsItsInstruction : Obligations.CommandWriteRunsItsInstruction := by
  intro s c i ops hidle hhost hdec
  calc step s = startCommand c { s with host := ops } := step_of_host hidle hhost
    _ = exec i { s with host := ops } := by rw [startCommand, hdec]

/-- A write to a register other than `CMD` (R11). -/
theorem step_of_write (hidle : s.busy = false) (hhost : s.host = .write o v :: ops) (hreg : regAt o = some r)
    (hcmd : r ≠ .cmd) : step s = .next (State.writeReg { s with host := ops } v r) := by
  rw [step_of_host hidle hhost, hostStep, hostWrite, hreg]
  cases r with
  | cmd => exact absurd rfl hcmd
  | _ => rfl

/-- A read of a register (R11). -/
theorem step_of_read (hidle : s.busy = false) (hhost : s.host = .read o :: ops) (hreg : regAt o = some r) :
    step s = .next { s with host := ops, reads := s.reads ++ [s.readReg r] } := by
  rw [step_of_host hidle hhost, hostStep, hostRead, hreg]
  cases r <;> rfl

end

/-- Settles O10: each offset by its register. -/
theorem hostWritesReachTheirRegister : Obligations.HostWritesReachTheirRegister := by
  intro s v ops hidle
  refine ⟨fun hhost => step_of_write hidle hhost (r := .status) rfl nofun,
    fun hhost => step_of_write hidle hhost (r := .arg0) rfl nofun,
    fun hhost => step_of_write hidle hhost (r := .arg1) rfl nofun,
    fun hhost => step_of_write hidle hhost (r := .arg2) rfl nofun,
    fun hhost => step_of_write hidle hhost (r := .pix) rfl nofun, ?readOnly⟩
  case readOnly =>
    simp only [List.forall_mem_cons]
    exact ⟨fun hhost => step_of_write hidle hhost (r := .pbW) rfl nofun,
      fun hhost => step_of_write hidle hhost (r := .pbH) rfl nofun,
      fun hhost => step_of_write hidle hhost (r := .pbBpp) rfl nofun,
      fun hhost => step_of_write hidle hhost (r := .capr) rfl nofun, List.forall_mem_nil _⟩

/-- Settles O11: each offset names a register, and the word is what that register reads as. -/
theorem hostReadsReturnTheirRegister : Obligations.HostReadsReturnTheirRegister := by
  intro s o v ops hidle hhost hmem
  have hreg : ∃ r, regAt o = some r ∧ s.readReg r = v := by
    simp only [List.mem_cons, Prod.mk.injEq, List.not_mem_nil, or_false] at hmem
    obtain ⟨rfl, rfl⟩ | ⟨rfl, rfl⟩ | ⟨rfl, rfl⟩ | ⟨rfl, rfl⟩ | ⟨rfl, rfl⟩ | ⟨rfl, rfl⟩ | ⟨rfl, rfl⟩ | ⟨rfl, rfl⟩ |
      ⟨rfl, rfl⟩ | ⟨rfl, rfl⟩ := hmem
    all_goals exact ⟨_, rfl, rfl⟩
  obtain ⟨r, hreg, rfl⟩ := hreg
  exact step_of_read hidle hhost hreg

/-- The register map has the ten offsets and no other (R12). -/
theorem regAt_eq_none {o : Nat} (h : o ∉ [0x00, 0x04, 0x08, 0x0C, 0x10, 0x14, 0x18, 0x1C, 0x20, 0x24]) :
    regAt o = none := by
  unfold regAt
  split
  case h_11 => rfl
  all_goals exact absurd (by decide) h

/-- Settles O12: both kinds of access look the offset up first. -/
theorem otherOffsetsAreRefused : Obligations.OtherOffsetsAreRefused := by
  intro s o v ops hidle ho hhost
  have hreg := regAt_eq_none ho
  obtain hhost | hhost := hhost
  · rw [step_of_host hidle hhost, hostStep, hostWrite, hreg]
  · rw [step_of_host hidle hhost, hostStep, hostRead, hreg]

end Sys2Proof.Machine
end

-- The proofs about ALLOC, GETPIX and SETPIX (R81 to R83).
section
/-! SUPPORT. What a draw of the valid region leaves, the bytes of the `PIX` word, and the access to one pixel. -/

namespace Sys2Proof.Machine

/-! ### ALLOC -/

section
variable (s : State)

/-- After a draw every byte of the valid region has a value (R81). -/
theorem drawData_holds : (drawData s).holds s.dataSize := fun a ha => by
  rw [drawData_byte, if_pos ha]; rfl

/-- The data after a draw is the bytes drawn (log 3). -/
theorem drawData_data : (drawData s).data = some (freeData s.draws s.dataSize) := by
  have hread := Memory.bytes_putAll s.pm 0 (freeData s.draws s.dataSize)
  rwa [freeData_length] at hread

end

theorem exec_alloc_of_argsOK {s : State} (h : s.argsOK) :
    exec .alloc s = .next (complete (drawData (setGeometry s.arg0 s.arg1 s.arg2 s))) := if_pos h

/-- Settles O25: ALLOC writes the geometry and draws the valid region; the draw does not look at the old bank. -/
theorem allocEstablishesABuffer : Obligations.AllocEstablishesABuffer := by
  intro s hargs
  refine ⟨_, exec_alloc_of_argsOK hargs, endsWith_complete rfl, rfl, rfl, rfl,
    isEmpty_of_argsOK hargs rfl rfl rfl rfl, drawData_holds (setGeometry ..), drawData_sameOutside (setGeometry ..),
    ⟨rfl, rfl, rfl, rfl⟩, rfl, ⟨rfl, rfl⟩, ⟨rfl, rfl⟩, ⟨rfl, rfl⟩, fun m => ⟨_, exec_alloc_of_argsOK hargs, ?data⟩⟩
  case data =>
    have hdata : ∀ u : State, (complete (drawData u)).data = some (freeData u.draws u.dataSize) := drawData_data
    exact (hdata _).trans (hdata (setGeometry s.arg0 s.arg1 s.arg2 s)).symm

/-! ### The bytes of `PIX` (R16) -/

/-- Byte `k` of a packed pixel (R46). -/
theorem extractLsb'_packPixel (bs : List Byte) {k : Nat} (hk : k < 4) :
    (packPixel bs).extractLsb' (8 * k) 8 = bs.getD k 0 := by
  have habove : ∀ {w j : Nat} (hi : BitVec w) (lo : Byte), (hi ++ lo).extractLsb' (j + 8) 8 = hi.extractLsb' j 8 :=
    fun hi lo => (BitVec.extractLsb'_append_eq_of_le (Nat.le_add_left ..)).trans (by rw [Nat.add_sub_cancel])
  match k, hk with
  | 0, _ => exact BitVec.extractLsb'_append_eq_right
  | 1, _ => exact (habove ..).trans BitVec.extractLsb'_append_eq_right
  | 2, _ => exact ((habove ..).trans (habove ..)).trans BitVec.extractLsb'_append_eq_right
  | 3, _ => exact (((habove ..).trans (habove ..)).trans (habove ..)).trans BitVec.extractLsb'_eq_self

/-! ### GETPIX and SETPIX -/

section
variable {s : State} (h : s.Ready) (hin : s.inBounds s.argX s.argY)
include h hin

theorem State.Ready.requirePixel (f : Eng State) : (do requireBuffer s; requireInBounds s; f) = f := by
  rw [requireBuffer_eq, if_neg (ne_true_of_eq_false h.buffer), requireInBounds_eq, if_pos hin]
  rfl

theorem State.Ready.argAddr_le_capr : s.argAddr + s.bpp ≤ s.capr :=
  Nat.le_trans (argAddr_le_dataSize hin) (dataSize_le_capr h.geometryOK)

end

/-- A command that ends with `OK` between commands changes no more of the status than the result. -/
theorem complete_of_idle {s : State} (h : s.busy = false) : complete s = { s with result := .ok } := by
  rw [complete, ← h]

/-- Settles O26: the checks pass, and the pixel read is the one at the operands. -/
theorem getpixCopiesThePixel : Obligations.GetpixCopiesThePixel := by
  intro s h hx0 hx hy0 hy
  have hin : s.inBounds s.argX s.argY := ⟨hx0, hx, hy0, hy⟩
  obtain ⟨bs, hbs⟩ : ∃ bs, s.pixel s.argX.toNat s.argY.toNat = some bs := h.exists_pixel (by omega) (by omega)
  refine ⟨packPixel bs, bs, hbs, fun k hk => ?bytes, ?exec⟩
  case bytes =>
    have hlen := Memory.bytes_length hbs
    rw [extractLsb'_packPixel bs hk]
    split
    · rfl
    · rw [List.getD_eq_default _ _ (by omega)]
  case exec =>
    have hbody : getpixBody s = .ok { s with pix := packPixel bs } := by
      rw [getpixBody, h.requirePixel hin, memRead_eq (h.argAddr_le_capr hin) hbs]
      rfl
    calc exec .getpix s = .next (complete { s with pix := packPixel bs }) := congrArg settle hbody
      _ = _ := congrArg Host.Outcome.next (complete_of_idle (s := { s with pix := packPixel bs }) h.idle)

/-- SETPIX in bounds (R83). -/
theorem State.Ready.exec_setpix {s : State} (h : s.Ready) (hin : s.inBounds s.argX s.argY) :
    exec .setpix s = .next { s with pm := s.pm.putAll s.argAddr (unpackPixel s.pix s.bpp), result := .ok } := by
  have hlen := unpackPixel_length s.pix s.bpp
  have hbody : setpixBody s = .ok { s with pm := s.pm.putAll s.argAddr (unpackPixel s.pix s.bpp) } := by
    rw [setpixBody, h.requirePixel hin, memWrite_eq (by rw [hlen]; exact h.argAddr_le_capr hin)]
  calc exec .setpix s = .next (complete { s with pm := s.pm.putAll s.argAddr (unpackPixel s.pix s.bpp) }) :=
        congrArg settle hbody
    _ = _ := congrArg Host.Outcome.next (complete_of_idle (s := { s with pm := _ }) h.idle)

/-- Settles O27: the bytes that SETPIX writes are the low ones of `PIX`. -/
theorem setpixStoresThePixel : Obligations.SetpixStoresThePixel := by
  intro s h hx0 hx hy0 hy
  have hlen := unpackPixel_length s.pix s.bpp
  refine ⟨_, h.exec_setpix ⟨hx0, hx, hy0, hy⟩, fun k hk => ?inside, fun a ha => ?outside⟩
  case inside =>
    rw [Memory.byte_putAll, if_pos (by omega), Nat.add_sub_cancel_left, unpackPixel, List.getElem?_map,
      List.getElem?_range hk]
    rfl
  case outside => rw [Memory.byte_putAll, hlen, if_neg ha]

end Sys2Proof.Machine
end

-- The proofs about a DECODE in progress: its steps (R91, R98) and its two chunk types (R92 to R97).
section
/-! SUPPORT. The step of a DECODE in progress, its end in an error, and the ends of a RAW and of a RUN. -/

namespace Sys2Proof.Machine

/-! ### The end in an error (R100) -/

section
variable {s u : State} {e : Result}

theorem abortDecode_endsWith (he : e ≠ .ok) : s.endsWith (abortDecode e u) e := endsWith_raise he

theorem abortDecode_sameGeometry (e : Result) (u : State) : u.sameGeometry (abortDecode e u) :=
  ⟨abortDecode_pbW e u, abortDecode_pbH e u, abortDecode_pbBpp e u⟩

theorem abortDecode_sameOutside (e : Result) (u : State) : u.sameOutside (abortDecode e u) 0 u.dataSize := by
  rw [State.sameOutside, abortDecode_pm, ← drawData_pm]
  exact drawData_sameOutside u

theorem abortDecode_holds (e : Result) (u : State) : (abortDecode e u).holds u.dataSize := by
  rw [State.holds, abortDecode_pm, ← drawData_pm]
  exact drawData_holds u

/-- A DECODE that ends in error some chunks later has left the geometry and the bytes outside the valid region alone. -/
theorem DecRel.abortDecode_within (h : DecRel s u) (e : Result) :
    s.sameGeometry (abortDecode e u) ∧ s.sameOutside (abortDecode e u) 0 s.dataSize := by
  refine ⟨h.chunkFrame.sameGeometry.trans (abortDecode_sameGeometry e u), fun k hk => ?_⟩
  rw [abortDecode_sameOutside e u k (h.dataSize_eq ▸ hk), h.outside k hk]

end

/-! ### One step -/

section
variable {s : State}

theorem step_of_busy (h : s.busy = true) : step s = chunkStep s := if_pos h

/-- The next header is taken, and its chunk runs. -/
theorem chunkStep_of_header {h : Byte} {rest : List Byte} (hc : s.dec.cnt < s.dec.n) (hi : s.incoming = h :: rest) :
    chunkStep s = exec (decodeHeader h) (setHeader h (s.taken 1)) := by
  rw [chunkStep, if_pos hc, inGet_eq, hi]
  rfl

theorem chunkStep_of_no_header (hc : s.dec.cnt < s.dec.n) (hi : s.incoming = []) :
    chunkStep s = .next (abortDecode .truncatedStream s) := by
  rw [chunkStep, if_pos hc, inGet_eq, hi]
  rfl

theorem chunkStep_of_full (hc : s.dec.n ≤ s.dec.cnt) : chunkStep s = .next (finishDecode s) :=
  if_neg (Nat.not_lt.2 hc)

end

/-- Settles O7: the state the chunk runs in is `setHeader h (s.taken 1)`, written out. -/
theorem chunkStepRunsItsInstruction : Obligations.ChunkStepRunsItsInstruction := by
  intro s h rest i hbusy hc hi hdec
  cases hdec
  rw [step_of_busy hbusy, chunkStep_of_header hc hi]
  rfl

/-- Settles O8: the full buffer ends the DECODE as it is, the missing header ends it in error. -/
theorem chunkStepEndsTheDecode : Obligations.ChunkStepEndsTheDecode := by
  intro s hbusy
  rw [step_of_busy hbusy]
  refine ⟨fun hc => ⟨_, chunkStep_of_full hc, endsWith_complete rfl, finishDecode_inS s, finishDecode_pm s,
    finishDecode_pbW s, finishDecode_pbH s, finishDecode_pbBpp s⟩, fun hc hi => ⟨_, chunkStep_of_no_header hc hi, ?_⟩⟩
  exact ⟨abortDecode_endsWith nofun, abortDecode_sameGeometry _ s, abortDecode_sameOutside _ s⟩

/-! ### How each chunk type ends -/

section
variable {s : State} {n : Nat}

theorem State.Decoding.filling (h : s.Decoding) : Filling s :=
  ⟨h.offset, Nat.le_of_eq h.target, dataSize_le_capr h.geometry⟩

/-- `ExecRUN` when a byte of its pixel is missing. -/
theorem runBody_truncated (hl : s.incoming.length < s.bpp) : ∃ t, runBody n s = raising .truncatedStream t :=
  ⟨_, by rw [runBody, readPixel_eq, if_neg (Nat.not_le.2 hl)]; rfl⟩

/-- `ExecRUN` when its pixel is present and more repeats are asked for than fit. -/
theorem runBody_overflow (hF : Filling s) (hc : s.dec.cnt ≤ s.dec.n) (hn : s.dec.n - s.dec.cnt < n)
    (hl : s.bpp ≤ s.incoming.length) : ∃ t, runBody n s = raising .pixelCountOverflow t := by
  rw [runBody, readPixel_eq, if_pos hl, Eng.ok_bind]
  exact runLoop_overflow (s := { s.taken s.bpp with dec := { s.dec with px := s.incoming.take s.bpp } }) n 0
    ⟨hF.offset, hF.target, hF.fit⟩ hc hn (List.length_take_of_le hl)

/-- A region written reads as the bytes written, and every byte outside it as before. -/
theorem Memory.putAll_region {m : Memory} {a k : Nat} {bs : List Byte} (h : bs.length = k) :
    (m.putAll a bs).bytes a k = some bs ∧ ∀ j, ¬(a ≤ j ∧ j < a + k) → (m.putAll a bs).byte j = m.byte j := by
  refine ⟨h ▸ Memory.bytes_putAll .., fun j hj => ?_⟩
  rw [Memory.byte_putAll, h, if_neg hj]

end

/-- Settles O28: `rawLoop_ok` gives the state the chunk leaves. -/
theorem rawChunkAppendsItsPixels : Obligations.RawChunkAppendsItsPixels := by
  intro n s hinv hbusy hc hl
  obtain ⟨px, hloop⟩ := rawLoop_ok n 0 (hinv.decoding hbusy).filling hc hl
  exact ⟨_, _, congrArg settleChunk hloop, rfl, rfl, rfl, rfl, Memory.putAll_region (List.length_take_of_le hl)⟩

/-- Settles O29: `runBody_ok` gives the state the chunk leaves. -/
theorem runChunkRepeatsItsPixel : Obligations.RunChunkRepeatsItsPixel := by
  intro n s hinv hbusy hc hl
  have hbody := runBody_ok (hinv.decoding hbusy).filling hc hl
  refine ⟨_, _, congrArg settleChunk hbody, rfl, rfl, rfl, rfl, rfl, Memory.putAll_region ?length⟩
  case length => simp [hl]

/-- Settles O30: each of the four ends is the one its chunk type's loop raises. -/
theorem chunkErrors : Obligations.ChunkErrors := by
  intro n s hinv hbusy
  have hdec := hinv.decoding hbusy
  have hF := hdec.filling
  have hcount := hdec.count_le
  refine ⟨fun hl => ?rawTruncated, fun hn hl => ?rawOverflow, fun hl => ?runTruncated, fun hn hl => ?runOverflow⟩
  case rawTruncated =>
    obtain ⟨t, hloop⟩ := rawLoop_truncated n 0 hF hcount hl
    exact ⟨_, congrArg settleChunk hloop, abortDecode_endsWith nofun⟩
  case rawOverflow =>
    obtain ⟨t, hloop⟩ := rawLoop_overflow n 0 hF hcount hn hl
    exact ⟨_, congrArg settleChunk hloop, abortDecode_endsWith nofun⟩
  case runTruncated =>
    obtain ⟨t, hbody⟩ := runBody_truncated (n := n) hl
    exact ⟨_, congrArg settleChunk hbody, abortDecode_endsWith nofun⟩
  case runOverflow =>
    obtain ⟨t, hbody⟩ := runBody_overflow hF hcount hn hl
    exact ⟨_, congrArg settleChunk hbody, abortDecode_endsWith nofun⟩

/-! ### Whatever the stream -/

/-- Pseudocode of a chunk that cannot stop leaves the DECODE in progress or ends it in the error it raised. -/
theorem Eng.Sat.settleChunk_total {Q : State → Prop} {R : Result → State → Prop} {r : Eng State}
    (hr : Eng.Sat False Q R r) :
    ∃ t, settleChunk r = .next t ∧ (Q t ∨ ∃ e u, R e u ∧ t = abortDecode e u) := by
  rcases r with (⟨e, u⟩ | f) | t
  · exact ⟨_, rfl, .inr ⟨e, u, hr, rfl⟩⟩
  · exact hr.elim
  · exact ⟨t, rfl, .inl hr⟩

/-- A chunk of the DECODE in progress `s` has left it in progress, or has ended it in a stream error. -/
def ChunkLeaves (s t : State) : Prop := DecRel s t ∨ ∃ e u, (streamError e ∧ DecRel s u) ∧ t = abortDecode e u

section
variable {s t : State}

theorem State.Decoding.exec_raw (h : s.Decoding) (n : Nat) : ∃ t, exec (.raw n) s = .next t ∧ ChunkLeaves s t :=
  ((rawBody_sat (.refl h.offset) h.filling.target (.inl h.filling.fit) n).mono (fun _ => And.left)
    fun _ _ => id).settleChunk_total

theorem State.Decoding.exec_run (h : s.Decoding) (n : Nat) : ∃ t, exec (.run n) s = .next t ∧ ChunkLeaves s t :=
  ((runBody_sat (.refl h.offset) h.filling.target (.inl h.filling.fit) n).mono (fun _ => And.left)
    fun _ _ => id).settleChunk_total

theorem ChunkLeaves.within (h : ChunkLeaves s t) : s.sameGeometry t ∧ s.sameOutside t 0 s.dataSize := by
  obtain h | ⟨e, u, ⟨-, hu⟩, rfl⟩ := h
  · exact ⟨h.chunkFrame.sameGeometry, h.outside⟩
  · exact hu.abortDecode_within e

end

/-- Settles O31: both chunk types leave what `ChunkLeaves` says. -/
theorem chunksStayInTheValidRegion : Obligations.ChunksStayInTheValidRegion := by
  intro n s t hinv hbusy h
  have hdec := hinv.decoding hbusy
  obtain ⟨r, hraw, hr⟩ := hdec.exec_raw n
  obtain ⟨u, hrun, hu⟩ := hdec.exec_run n
  obtain h | h := h
  · cases hraw.symm.trans h
    exact hr.within
  · cases hrun.symm.trans h
    exact hu.within

end Sys2Proof.Machine
end

-- The proofs about DECODE on every stream: which of its three ends it takes (R95 to R98), and what the end depends on
-- (R100, R101).
section
/-! SUPPORT. A stream ends a DECODE in one of three ways, and the stream alone says in which: it begins with whole chunks,
and these fill the buffer, or a chunk follows that is cut short, or one that stands for more pixels than are left. -/

namespace Sys2Proof.Machine

/-! ### The header of a chunk -/

/-- The pixels the chunk of a header stands for (R64). -/
def headerCount (h : Byte) : Nat := if h.toNat < 128 then h.toNat + 1 else h.toNat - 127

/-- The payload bytes that the decoder takes of the chunk of a header, with `r` pixels of `b` bytes to fill, before it is
done with it or refuses its first surplus pixel (R97). -/
def headerWants (h : Byte) (r b : Nat) : Nat := if h.toNat < 128 then min (h.toNat + 1) (r + 1) * b else b

section
variable {b : Nat} {c : Chunk}

theorem Chunk.count_pos (h : c.Fits b) : 1 ≤ c.count := by cases c <;> exact h.1

theorem headerCount_header (h : c.Fits b) : headerCount c.header = c.count := by
  cases c with
  | raw ps =>
    obtain ⟨h1, hmax, -⟩ := h
    simp only [headerCount, Chunk.header, Chunk.count, BitVec.toNat_ofNat]
    rw [if_pos (by omega)]; omega
  | run n p =>
    obtain ⟨h1, hmax, -⟩ := h
    simp only [headerCount, Chunk.header, Chunk.count, BitVec.toNat_ofNat]
    rw [if_neg (by omega)]; omega

/-- What the decoder wants of a chunk is its header and as many payload bytes as the header says. -/
theorem Chunk.wanted_eq (h : c.Fits b) (r : Nat) :
    ∃ bs, c.wanted r = c.header :: bs ∧ bs.length = headerWants c.header r b := by
  cases c with
  | raw ps =>
    obtain ⟨h1, hmax, hpx⟩ := h
    refine ⟨_, rfl, ?_⟩
    rw [flatten_length_of_fits fun p hp => hpx p (List.mem_of_mem_take hp), List.length_take]
    simp only [headerWants, Chunk.header, BitVec.toNat_ofNat]
    rw [if_pos (by omega), Nat.mod_eq_of_lt (by omega), Nat.sub_add_cancel h1, Nat.min_comm]
  | run n p =>
    obtain ⟨h1, hmax, hpx⟩ := h
    refine ⟨_, rfl, hpx.trans ?_⟩
    simp only [headerWants, Chunk.header, BitVec.toNat_ofNat]
    rw [if_neg (by omega)]

end

/-! ### The head of a stream, with pixels to fill -/

/-- The stream ends before a header, or inside what the decoder wants of the chunk (R95). -/
def RunsShort (r b : Nat) : List Byte → Prop
  | [] => True
  | h :: rest => rest.length < headerWants h r b

/-- The chunk stands for more than the `r` pixels to fill, and what the decoder wants of it is there (R96). -/
def Overruns (r b : Nat) : List Byte → Prop
  | [] => False
  | h :: rest => r < headerCount h ∧ headerWants h r b ≤ rest.length

section
variable {r b : Nat} {c : Chunk} {l p : List Byte}

theorem runsShort_of_prefix (hc : c.Fits b) (hp : p <+: c.wanted r) (hne : p ≠ c.wanted r) : RunsShort r b p := by
  obtain ⟨bs, hw, hlen⟩ := Chunk.wanted_eq hc r
  have hlt : p.length < (c.wanted r).length :=
    Nat.lt_of_le_of_ne hp.length_le fun h => hne (hp.eq_of_length h)
  rw [hw] at hp hlt
  cases p with
  | nil => trivial
  | cons h rest =>
    obtain ⟨rfl, -⟩ := List.cons_prefix_cons.1 hp
    simp only [List.length_cons] at hlt
    show rest.length < headerWants _ r b
    omega

theorem overruns_of_prefix (hc : c.Fits b) (hr : r < c.count) (hw : c.wanted r <+: l) : Overruns r b l := by
  obtain ⟨bs, hwanted, hlen⟩ := Chunk.wanted_eq hc r
  obtain ⟨rest, rfl⟩ := hw
  rw [hwanted]
  refine ⟨by rwa [headerCount_header hc], ?_⟩
  show headerWants c.header r b ≤ (bs ++ rest).length
  rw [List.length_append]
  omega

/-- Bytes for `n` pixels are `n` pixels. -/
theorem exists_pixels (n b : Nat) {l : List Byte} (h : l.length = n * b) :
    ∃ ps : List (List Byte), ps.length = n ∧ (∀ p ∈ ps, p.length = b) ∧ ps.flatten = l := by
  induction n generalizing l with
  | zero => exact ⟨[], rfl, nofun, (List.eq_nil_of_length_eq_zero (by simpa using h)).symm⟩
  | succ n ih =>
    rw [Nat.succ_mul] at h
    obtain ⟨ps, hlen, hpx, hflat⟩ := ih (l := l.drop b) (by rw [List.length_drop]; omega)
    refine ⟨l.take b :: ps, by rw [List.length_cons, hlen], List.forall_mem_cons.2 ⟨?_, hpx⟩, ?_⟩
    · exact List.length_take_of_le (by omega)
    · rw [List.flatten_cons, hflat, List.take_append_drop]

/-- A header whose payload is all there begins a whole chunk. -/
theorem exists_chunk {h : Byte} {rest : List Byte} (hr : headerCount h ≤ r) (hl : headerWants h r b ≤ rest.length) :
    ∃ c : Chunk, c.Fits b ∧ c.count ≤ r ∧ c.bytes <+: h :: rest := by
  have hlt := h.isLt
  simp only [headerCount] at hr
  simp only [headerWants] at hl
  by_cases hraw : h.toNat < 128
  · rw [if_pos hraw] at hr hl
    rw [Nat.min_eq_left (by omega)] at hl
    obtain ⟨ps, hlen, hpx, hflat⟩ := exists_pixels (h.toNat + 1) b (List.length_take_of_le hl)
    have hheader : (Chunk.raw ps).header = h :=
      BitVec.eq_of_toNat_eq (by rw [Chunk.header, BitVec.toNat_ofNat]; omega)
    refine ⟨.raw ps, ⟨by omega, by omega, hpx⟩, by rw [Chunk.count, hlen]; exact hr, ?_⟩
    rw [Chunk.bytes, hheader, Chunk.payload, hflat]
    exact List.cons_prefix_cons.2 ⟨rfl, List.take_prefix ..⟩
  · rw [if_neg hraw] at hr hl
    have hheader : (Chunk.run (h.toNat - 127) (rest.take b)).header = h :=
      BitVec.eq_of_toNat_eq (by rw [Chunk.header, BitVec.toNat_ofNat]; omega)
    refine ⟨.run (h.toNat - 127) (rest.take b), ⟨by omega, by omega, List.length_take_of_le hl⟩, hr, ?_⟩
    rw [Chunk.bytes, hheader]
    exact List.cons_prefix_cons.2 ⟨rfl, List.take_prefix ..⟩

/-- A stream runs short, overruns, or begins with a whole chunk that fits. -/
theorem streamHead_cases (r b : Nat) (l : List Byte) :
    RunsShort r b l ∨ Overruns r b l ∨ ∃ c : Chunk, c.Fits b ∧ c.count ≤ r ∧ c.bytes <+: l := by
  cases l with
  | nil => exact .inl trivial
  | cons h rest =>
    obtain hl | hl := Nat.lt_or_ge rest.length (headerWants h r b)
    · exact .inl hl
    · obtain hr | hr := Nat.lt_or_ge r (headerCount h)
      · exact .inr (.inl ⟨hr, hl⟩)
      · exact .inr (.inr (exists_chunk hr hl))

end

/-! ### The three ways a stream can go on -/

/-- How a stream that begins with the whole chunks `cs` ends a DECODE of `n` pixels of `b` bytes. -/
inductive StreamEnds (n b : Nat) (l : List Byte) : Result → Prop
  | exact (cs : List Chunk) (hf : ∀ c ∈ cs, c.Fits b) (hc : streamCount cs = n) (hl : streamBytes cs <+: l) :
      StreamEnds n b l .ok
  | short (cs : List Chunk) (rest : List Byte) (hf : ∀ c ∈ cs, c.Fits b) (hc : streamCount cs < n)
      (hl : l = streamBytes cs ++ rest) (hrest : RunsShort (n - streamCount cs) b rest) :
      StreamEnds n b l .truncatedStream
  | overlong (cs : List Chunk) (rest : List Byte) (hf : ∀ c ∈ cs, c.Fits b) (hc : streamCount cs < n)
      (hl : l = streamBytes cs ++ rest) (hrest : Overruns (n - streamCount cs) b rest) :
      StreamEnds n b l .pixelCountOverflow

section
variable {n b : Nat} {l : List Byte} {e : Result}

theorem streamBytes_cons (c : Chunk) (cs : List Chunk) : streamBytes (c :: cs) = c.bytes ++ streamBytes cs := rfl

theorem streamCount_cons (c : Chunk) (cs : List Chunk) : streamCount (c :: cs) = c.count + streamCount cs := rfl

/-- A whole chunk more before a stream. -/
theorem StreamEnds.cons {c : Chunk} (hc : c.Fits b) (hn : c.count ≤ n) (h : StreamEnds (n - c.count) b l e) :
    StreamEnds n b (c.bytes ++ l) e := by
  cases h with
  | exact cs hf hcount hl =>
    refine .exact (c :: cs) (List.forall_mem_cons.2 ⟨hc, hf⟩) (by rw [streamCount_cons]; omega) ?_
    rw [streamBytes_cons]
    exact (List.prefix_append_right_inj _).2 hl
  | short cs rest hf hcount hl hrest =>
    refine .short (c :: cs) rest (List.forall_mem_cons.2 ⟨hc, hf⟩) (by rw [streamCount_cons]; omega) ?_ ?_
    · rw [streamBytes_cons, List.append_assoc, hl]
    · rwa [streamCount_cons, ← Nat.sub_sub]
  | overlong cs rest hf hcount hl hrest =>
    refine .overlong (c :: cs) rest (List.forall_mem_cons.2 ⟨hc, hf⟩) (by rw [streamCount_cons]; omega) ?_ ?_
    · rw [streamBytes_cons, List.append_assoc, hl]
    · rwa [streamCount_cons, ← Nat.sub_sub]

/-- Every stream goes on in one of the three ways. -/
theorem exists_streamEnds (n b : Nat) (l : List Byte) : ∃ e, StreamEnds n b l e := by
  induction n using Nat.strong_induction_on generalizing l with
  | _ n ih =>
    obtain rfl | hn := Nat.eq_zero_or_pos n
    · exact ⟨_, .exact [] nofun rfl (List.nil_prefix)⟩
    · obtain hshort | hover | ⟨c, hc, hcount, rest, rfl⟩ := streamHead_cases n b l
      · exact ⟨_, .short [] l nofun hn rfl hshort⟩
      · exact ⟨_, .overlong [] l nofun hn rfl hover⟩
      · have hpos := Chunk.count_pos hc
        obtain ⟨e, he⟩ := ih (n - c.count) (by omega) rest
        exact ⟨e, he.cons hc hcount⟩

end

/-! ### What DECODE makes of each -/

section
variable {s : State} {h : Byte} {rest : List Byte}

/-- One pass of the loop, with a header to take. -/
theorem decodeChunk_of_header (hi : s.incoming = h :: rest) :
    decodeChunk s = if h.toNat < 128 then rawBody (h.toNat + 1) (setHeader h (s.taken 1))
      else runBody (h.toNat - 127) (setHeader h (s.taken 1)) := by
  rw [decodeChunk, needByte_cons hi]
  rfl

theorem incoming_after_header (hi : s.incoming = h :: rest) : (setHeader h (s.taken 1)).incoming = rest :=
  (State.incoming_taken (by rw [hi]; exact Nat.le_add_left ..)).trans (by rw [hi]; rfl)

section
variable (hF : Filling s) (hc : s.dec.cnt < s.dec.n)
include hF hc

/-- A pass of the loop on a stream that runs short (R95). -/
theorem decodeChunk_short (hl : RunsShort (s.dec.n - s.dec.cnt) s.bpp s.incoming) :
    ∃ t, decodeChunk s = raising .truncatedStream t := by
  cases hi : s.incoming with
  | nil => exact ⟨s, by rw [decodeChunk, needByte_nil hi]; rfl⟩
  | cons h rest =>
    have hF' : Filling (setHeader h (s.taken 1)) := ⟨hF.offset, hF.target, hF.fit⟩
    have hrest := incoming_after_header hi
    rw [hi, RunsShort, headerWants] at hl
    rw [decodeChunk_of_header hi]
    by_cases hraw : h.toNat < 128
    · rw [if_pos hraw] at hl ⊢
      exact rawLoop_truncated _ 0 hF' (Nat.le_of_lt hc) (hrest.symm ▸ hl)
    · rw [if_neg hraw] at hl ⊢
      exact runBody_truncated (hrest.symm ▸ hl)

/-- A pass of the loop on a stream whose next chunk overruns (R96). -/
theorem decodeChunk_overrun (hl : Overruns (s.dec.n - s.dec.cnt) s.bpp s.incoming) :
    ∃ t, decodeChunk s = raising .pixelCountOverflow t := by
  cases hi : s.incoming with
  | nil => rw [hi] at hl; exact hl.elim
  | cons h rest =>
    have hF' : Filling (setHeader h (s.taken 1)) := ⟨hF.offset, hF.target, hF.fit⟩
    have hrest := incoming_after_header hi
    rw [hi, Overruns, headerCount, headerWants] at hl
    rw [decodeChunk_of_header hi]
    obtain ⟨hcount, hl⟩ := hl
    by_cases hraw : h.toNat < 128
    · rw [if_pos hraw] at hcount hl ⊢
      rw [Nat.min_eq_right hcount] at hl
      exact rawLoop_overflow _ 0 hF' (Nat.le_of_lt hc) hcount (hrest.symm ▸ hl)
    · rw [if_neg hraw] at hcount hl ⊢
      exact runBody_overflow hF' (Nat.le_of_lt hc) hcount (hrest.symm ▸ hl)

end

end

section
variable {s t : State} {cs : List Chunk} {rest : List Byte} {e : Result}

/-- A `while` raises what its first pass raises. -/
theorem whileLoop_raises {cond : State → Bool} {body : State → Eng State} {k : Nat} (hcond : cond s = true)
    (h : body s = raising e t) : whileLoop cond body (k + 1) s = raising e t := by
  rw [whileLoop, if_pos hcond, h]
  rfl

/-- A DECODE raises what the pass after the whole chunks raises. -/
theorem decodeLoop_raises (hargs : s.argsOK) (hf : ∀ c ∈ cs, c.Fits s.wantedBpp) (hc : streamCount cs < s.wantedCount)
    (hi : s.incoming = streamBytes cs ++ rest)
    (hraise : ∀ u : State, Filling u → u.dec.cnt < u.dec.n → u.dec.n - u.dec.cnt = s.wantedCount - streamCount cs →
      u.bpp = s.wantedBpp → u.incoming = rest → ∃ t, decodeChunk u = raising e t) :
    ∃ t, decodeLoop (decodeStart s) = raising e t := by
  have hF := decodeStart_filling hargs
  have hlen := length_le_streamCount hf
  have hprefix : streamBytes cs <+: s.incoming := hi ▸ List.prefix_append ..
  obtain ⟨hd, px, hloop⟩ := whileLoop_chunks cs (decodeStart s) s.wantedCount hF hf
    (by rw [decodeStart_dec_cnt, Nat.zero_add]; exact Nat.le_of_lt hc) hprefix (by omega)
  have hF' : Filling (setHeader hd (decodeStart s)) := ⟨hF.offset, hF.target, hF.fit⟩
  have hrest := State.filled_incoming (s := setHeader hd (decodeStart s)) (m := streamCount cs) (bs := streamData cs)
    (px := px) hprefix.length_le
  have hdrop : (setHeader hd (decodeStart s)).incoming.drop (streamBytes cs).length = rest := by
    show s.incoming.drop _ = rest
    rw [hi, List.drop_left]
  have hcnt : 0 + streamCount cs < s.wantedCount := by omega
  obtain ⟨t, ht⟩ := hraise _ (hF'.filled (streamBytes cs).length (streamCount cs) (streamData cs) px) hcnt
    (by show s.wantedCount - (0 + streamCount cs) = _; omega) rfl (hrest.trans hdrop)
  refine ⟨t, hloop.trans ?_⟩
  obtain ⟨k, hk⟩ : ∃ k, s.wantedCount - cs.length = k + 1 := ⟨s.wantedCount - cs.length - 1, by omega⟩
  rw [hk]
  exact whileLoop_raises (decide_eq_true hcnt) ht

/-- A DECODE that its check lets through ends as the stream says. -/
theorem StreamEnds.exec_decode (hargs : s.argsOK) (h : StreamEnds s.wantedCount s.wantedBpp s.incoming e) :
    ∃ t, exec .decode s = .next t ∧ t.result = e := by
  cases h with
  | exact cs hf hc hl =>
    obtain ⟨t, ht, hends, -⟩ := decodeFillsTheBuffer s cs hargs hf hc hl
    exact ⟨t, ht, hends.1⟩
  | short cs rest hf hc hl hrest =>
    obtain ⟨t, hloop⟩ := decodeLoop_raises (e := .truncatedStream) hargs hf hc hl fun u hF hlt hleft hb hi =>
      decodeChunk_short hF hlt (by rwa [hleft, hb, hi])
    exact ⟨_, by rw [exec_decode_of_argsOK hargs, hloop, settleDecode_raising], abortDecode_result ..⟩
  | overlong cs rest hf hc hl hrest =>
    obtain ⟨t, hloop⟩ := decodeLoop_raises (e := .pixelCountOverflow) hargs hf hc hl fun u hF hlt hleft hb hi =>
      decodeChunk_overrun hF hlt (by rwa [hleft, hb, hi])
    exact ⟨_, by rw [exec_decode_of_argsOK hargs, hloop, settleDecode_raising], abortDecode_result ..⟩

/-- The result of a DECODE says how its stream goes on. -/
theorem exec_decode_streamEnds (hargs : s.argsOK) (h : exec .decode s = .next t) :
    StreamEnds s.wantedCount s.wantedBpp s.incoming t.result := by
  obtain ⟨e, he⟩ := exists_streamEnds s.wantedCount s.wantedBpp s.incoming
  obtain ⟨u, hu, rfl⟩ := he.exec_decode hargs
  cases hu.symm.trans h
  exact he

/-- As `StreamEnds.exec_decode`, with the other fields of the status. -/
theorem StreamEnds.exec_decode_endsWith (hargs : s.argsOK) (h : StreamEnds s.wantedCount s.wantedBpp s.incoming e) :
    ∃ t, exec .decode s = .next t ∧ s.endsWith t e := by
  obtain ⟨t, ht, rfl⟩ := h.exec_decode hargs
  exact ⟨t, ht, commandsEndInStatus .decode s t rfl ht⟩

end

/-- Settles O33: a DECODE that ends with `OK` was let through, and of the three ways only the exact one gives `OK`. -/
theorem decodeSucceedsOnlyOnExactStreams : Obligations.DecodeSucceedsOnlyOnExactStreams := by
  intro s t h hok
  have hargs : s.argsOK := by
    by_contra hargs
    cases (exec_decode_of_not_argsOK hargs).symm.trans h
    cases hok
  obtain ⟨cs, hf, hc, hl⟩ := hok ▸ exec_decode_streamEnds hargs h
  exact ⟨cs, hf, hc, hl⟩

/-- Settles O34: what stops short of the bytes that the decoder wants of a chunk is a missing byte. -/
theorem decodeReportsATruncatedStream : Obligations.DecodeReportsATruncatedStream := by
  intro s cs c p hargs hf hc hcount hp hne hi
  exact (StreamEnds.short cs p hf hcount hi (runsShort_of_prefix hc hp hne)).exec_decode_endsWith hargs

/-- Settles O35: a chunk of more pixels than are left overruns when what the decoder wants of it is there. -/
theorem decodeReportsAnOverlongChunk : Obligations.DecodeReportsAnOverlongChunk := by
  intro s cs c hargs hf hc hcount hover hi
  obtain ⟨rest, hrest⟩ := hi
  have hl : Overruns (s.wantedCount - streamCount cs) s.wantedBpp (c.wanted (s.wantedCount - streamCount cs) ++ rest) :=
    overruns_of_prefix hc (by omega) (List.prefix_append ..)
  refine (StreamEnds.overlong cs _ hf hcount ?_ hl).exec_decode_endsWith hargs
  rw [← hrest, List.append_assoc]

/-! ### The end of a DECODE, whatever the stream -/

section
variable {s t u : State} {e : Result}

/-- The cursor a failed DECODE leaves lies between where it began and the end of the stream (U2). -/
theorem abortDecode_pos_range (hu : u.dec.pos0 ≤ u.inS.data.length) :
    u.dec.pos0 ≤ (abortDecode e u).inS.pos ∧ (abortDecode e u).inS.pos ≤ u.inS.data.length := by
  have hmod : Config.freeNat (drawData u).draws % (u.inS.data.length - u.dec.pos0 + 1) <
      u.inS.data.length - u.dec.pos0 + 1 := Nat.mod_lt _ (Nat.succ_pos _)
  have hpos : (abortDecode e u).inS.pos =
      u.dec.pos0 + Config.freeNat (drawData u).draws % (u.inS.data.length - u.dec.pos0 + 1) := by
    rw [abortDecode_inS]; rfl
  omega

/-- A full buffer holds its data. -/
theorem DecRel.holds_dataSize (h : DecRel (decodeStart s) u) (hfull : u.dec.n ≤ u.dec.cnt) : u.holds u.dataSize := by
  have hheld : u.holds u.dec.wp := h.held nofun
  have hcount : (decodeStart s).pixelCount ≤ u.dec.cnt := by
    rw [← decodeStart_dec_n, ← h.target]; exact hfull
  have hsize : u.dataSize ≤ u.dec.wp := by
    rw [h.dataSize_eq, h.offset]
    exact Nat.mul_le_mul_right _ hcount
  exact fun a ha => hheld a (Nat.lt_of_lt_of_le ha hsize)

theorem exec_decode_of_full (hargs : s.argsOK) (hloop : decodeLoop (decodeStart s) = .ok u) :
    exec .decode s = .next (finishDecode u) := by rw [exec_decode_of_argsOK hargs, hloop, settleDecode_ok]

theorem exec_decode_of_raising (hargs : s.argsOK) (hloop : decodeLoop (decodeStart s) = raising e u) :
    exec .decode s = .next (abortDecode e u) := by rw [exec_decode_of_argsOK hargs, hloop, settleDecode_raising]

/-- A DECODE that its check lets through ends, holds its data, and has moved the cursor on inside the stream. -/
theorem exec_decode_total (hargs : s.argsOK) (hpos : s.inS.pos ≤ s.inS.data.length) :
    ∃ t, exec .decode s = .next t ∧ (t.result = .ok ∨ streamError t.result) ∧ t.holds t.dataSize ∧
      s.inS.pos ≤ t.inS.pos ∧ t.inS.pos ≤ s.inS.data.length := by
  obtain ⟨u, hloop, hu, hfull⟩ | ⟨e, u, hloop, he, hu⟩ := decodeLoop_cases hargs
  · refine ⟨_, exec_decode_of_full hargs hloop, .inl rfl, ?_, hu.pos_ge,
      Nat.le_trans hu.pos_le (Nat.max_le.2 ⟨hpos, Nat.le_refl _⟩)⟩
    rw [finishDecode_dataSize]
    exact hu.holds_dataSize hfull
  · have hrange := abortDecode_pos_range (u := u) (e := e)
    rw [hu.start, hu.data_eq] at hrange
    refine ⟨_, exec_decode_of_raising hargs hloop, .inr (by rwa [abortDecode_result]), ?_, hrange hpos⟩
    rw [abortDecode_dataSize]
    exact abortDecode_holds e u

end

/-- Settles O36: `exec_decode_total`, with what every command does to the status and outside the valid region. -/
theorem decodeAlwaysEndsOneOfThreeWays : Obligations.DecodeAlwaysEndsOneOfThreeWays := by
  intro s hargs hpos
  obtain ⟨t, ht, hresult, hheld, hrange⟩ := exec_decode_total hargs hpos
  obtain ⟨hw, hh, hb⟩ := exec_decode_geometry hargs ht
  exact ⟨t, ht, commandsEndInStatus .decode s t rfl ht, hresult, hw, hh, hb, hheld,
    (commandsStayInTheValidRegion .decode s t rfl ht).1 nofun, hrange⟩

/-! ### What a DECODE depends on (R101) -/

section
variable {s t u : State}

theorem drawPos_inS (s : State) : (drawPos s).inS =
    ⟨s.inS.data, s.dec.pos0 + Config.freeNat s.draws % (s.inS.data.length - s.dec.pos0 + 1), s.inS.failAt⟩ := rfl

/-- A failed DECODE leaves a draw of the valid region and of the cursor (R100). -/
theorem exec_decode_failed (hargs : s.argsOK) (h : exec .decode s = .next t) (hne : t.result ≠ .ok) :
    t.data = some (freeData s.draws (decodeStart s).dataSize) ∧ t.inS = (drawPos (drawData (decodeStart s))).inS := by
  obtain ⟨v, hloop, -, -⟩ | ⟨e, v, hloop, -, hv⟩ := decodeLoop_cases hargs
  · cases (exec_decode_of_full hargs hloop).symm.trans h
    exact absurd rfl hne
  · cases (exec_decode_of_raising hargs hloop).symm.trans h
    have hdraws : v.draws = s.draws := (congrArg State.draws hv.chunkFrame :)
    constructor
    · rw [State.data, abortDecode_pm, abortDecode_dataSize, ← hdraws, ← hv.dataSize_eq]
      exact drawData_data v
    · rw [abortDecode_inS, drawPos_inS, drawPos_inS, drawData_inS, drawData_dec, drawData_draws, hv.start, hdraws,
        hv.data_eq, hv.failAt_eq, hv.dataSize_eq]
      rfl

theorem incoming_congr (h : u.inS = s.inS) : u.incoming = s.incoming := by
  rw [State.incoming, State.incoming, h]

end

/-- Settles O37: the stream alone says how the two end; what a DECODE that ends with `OK` leaves is the chunks' data, and
what one in error leaves is drawn. -/
theorem decodeIgnoresTheOldBuffer : Obligations.DecodeIgnoresTheOldBuffer := by
  intro s u hs hsame hin hdraws
  obtain ⟨h0, h1, h2, hcap⟩ := hsame
  have hu : u.argsOK := by rw [State.argsOK, h0, h1, h2, hcap]; exact hs
  have hcount : u.wantedCount = s.wantedCount := by rw [State.wantedCount, h0, h1]; rfl
  have hbpp : u.wantedBpp = s.wantedBpp := by rw [State.wantedBpp, h2]; rfl
  have hincoming := incoming_congr hin
  obtain ⟨e, he⟩ := exists_streamEnds s.wantedCount s.wantedBpp s.incoming
  obtain ⟨t, ht, hte⟩ := he.exec_decode hs
  obtain ⟨v, hv, hve⟩ := StreamEnds.exec_decode hu (hcount ▸ hbpp ▸ hincoming ▸ he)
  refine ⟨t, v, ht, hv, hve.trans hte.symm, ?_⟩
  cases he with
  | exact cs hf hc hl =>
    obtain ⟨t', ht', -, -, -, -, htdata, htin, -⟩ := decodeFillsTheBuffer s cs hs hf hc hl
    obtain ⟨v', hv', -, -, -, -, hvdata, hvin, -⟩ :=
      decodeFillsTheBuffer u cs hu (hbpp ▸ hf) (hc.trans hcount.symm) (hincoming ▸ hl)
    cases ht'.symm.trans ht
    cases hv'.symm.trans hv
    exact ⟨by rw [hvin, htin, hin], hvdata.trans htdata.symm⟩
  | short | overlong =>
    obtain ⟨htdata, htin⟩ := exec_decode_failed hs ht (by rw [hte]; nofun)
    obtain ⟨hvdata, hvin⟩ := exec_decode_failed hu hv (by rw [hve]; nofun)
    have hsize : (decodeStart u).dataSize = (decodeStart s).dataSize := by
      show u.wantedCount * u.wantedBpp = _
      rw [hcount, hbpp]; rfl
    constructor
    · rw [hvin, htin, drawPos_inS, drawPos_inS]
      simp only [drawData_inS, drawData_dec, drawData_draws, decodeStart_inS, decodeStart_dec_pos0, decodeStart_draws,
        hin, hdraws, hsize]
    · rw [hvdata, htdata, hdraws, hsize]

/-! ### A DECODE as its chunk steps (R91) -/

section
variable {s t u : State}

/-- A step of a DECODE with pixels to fill is a pass of its loop. -/
theorem chunkStep_eq (hc : s.dec.cnt < s.dec.n) : chunkStep s = settleChunk (decodeChunk s) := by
  cases hi : s.incoming with
  | nil => rw [chunkStep_of_no_header hc hi, decodeChunk, needByte_nil hi]; rfl
  | cons h rest =>
    rw [chunkStep_of_header hc hi, decodeChunk_of_header hi, decodeHeader]
    split
    · rfl
    · rfl

/-- A run of one step more. -/
theorem run_succ (h : step s = .next t) (k : Nat) : Sys2Proof.core.run (k + 1) s = Sys2Proof.core.run k t := by
  have hcore : Sys2Proof.core.step s = .next t := h
  simp only [Host.Core.run, hcore]

/-- A DECODE in progress stays so until it ends, so its steps are those of its chunks. -/
theorem DecRel.step_eq (h : DecRel s u) (hbusy : s.busy = true) : step u = chunkStep u :=
  step_of_busy (by rw [h.frame]; exact hbusy)

/-- With the buffer full the loop has ended, and a step ends the DECODE. -/
theorem DecRel.exists_run_of_full (h : DecRel s u) (hbusy : s.busy = true) (hfull : u.dec.n ≤ u.dec.cnt) (fuel : Nat) :
    ∃ k, Sys2Proof.core.run k u =
      settleDecode (whileLoop (fun s => decide (s.dec.cnt < s.dec.n)) decodeChunk fuel u) := by
  rw [whileLoop_done (decide_eq_false (Nat.not_lt.2 hfull))]
  exact ⟨1, run_succ ((h.step_eq hbusy).trans (chunkStep_of_full hfull)) 0⟩

/-- The loop of a DECODE in progress and its end are steps of the machine. -/
theorem exists_run_eq_loop (hF : Filling s) (hbusy : s.busy = true) (fuel : Nat) (h : DecRel s u)
    (hfuel : u.dec.n ≤ u.dec.cnt + fuel) :
    ∃ k, Sys2Proof.core.run k u =
      settleDecode (whileLoop (fun s => decide (s.dec.cnt < s.dec.n)) decodeChunk fuel u) := by
  induction fuel generalizing u with
  | zero => exact h.exists_run_of_full hbusy hfuel 0
  | succ fuel ih =>
    obtain hc | hfull := Nat.lt_or_ge u.dec.cnt u.dec.n
    case inr => exact h.exists_run_of_full hbusy hfull _
    case inl =>
      have hstep : step u = settleChunk (decodeChunk u) := (h.step_eq hbusy).trans (chunkStep_eq hc)
      have hpass := decodeChunk_sat (F := False) h hF.target (.inl hF.fit)
      rw [whileLoop, if_pos (decide_eq_true hc)]
      rcases hd : decodeChunk u with (⟨e, v⟩ | f) | v
      all_goals rw [hd] at hpass hstep
      · exact ⟨1, run_succ hstep 0⟩
      · exact hpass.elim
      · obtain ⟨hv, hmore⟩ := hpass
        have htarget := hv.target.trans h.target.symm
        obtain ⟨k, hk⟩ := ih hv (by omega)
        exact ⟨k + 1, (run_succ hstep k).trans hk⟩

end

/-- Settles O38: the DECODE that has just begun, run until its loop has ended. -/
theorem decodeIsItsChunkSteps : Obligations.DecodeIsItsChunkSteps := by
  intro s hargs
  rw [exec_decode_of_argsOK hargs]
  exact exists_run_eq_loop (decodeStart_filling hargs) rfl _ decodeStart_rel (Nat.le_add_left ..)

end Sys2Proof.Machine
end

-- The proofs about the encoding: its greedy cuts (R108 to R110), and what it depends on (R114).
section
/-! SUPPORT. The rules of the cuts, read off the finished runs that the chunks come from, and two buffers of the same
pixels encoded side by side. -/

namespace Sys2Proof.Machine

/-- The encoding of a buffer is the bytes of greedy chunks of its pixels. -/
theorem State.Ready.encoding_greedy {s : State} (h : s.Ready) :
    ∃ cs, GreedyChunks s.pixelAt s.pixelCount 0 cs ∧ s.encoding = some (streamBytes cs) := by
  obtain ⟨cs, hcs, hemits⟩ := exec_encode_emits h
  refine ⟨cs, hcs, ?_⟩
  rw [State.encoding, hemits, outPutAll_accepted (by simp)]
  rfl

/-! ### The chunk of one run -/

section
variable {px : Nat → List Byte} {e : Encoder} {m : Nat} {p : List Byte} {ps : List (List Byte)}

theorem Encoder.of_chunk_eq_run (h : e.chunk px = .run m p) : e.raw = false ∧ e.rl = m ∧ px e.cur = p := by
  cases hraw : e.raw with
  | false =>
    rw [chunk_of_run hraw] at h
    cases h
    exact ⟨rfl, rfl, rfl⟩
  | true => rw [chunk_of_raw hraw] at h; cases h

theorem Encoder.of_chunk_eq_raw (h : e.chunk px = .raw ps) : e.raw = true ∧ ps = (List.range' e.cur e.rl).map px := by
  cases hraw : e.raw with
  | false => rw [chunk_of_run hraw] at h; cases h
  | true =>
    rw [chunk_of_raw hraw] at h
    cases h
    exact ⟨rfl, rfl⟩

/-- Inside a raw run no two neighbours are equal (R108). -/
theorem Encoder.Cut.isChain_ne (h : e.Cut px) (hraw : e.raw = true) :
    ((List.range' e.cur e.rl).map px).IsChain (· ≠ ·) := by
  rw [List.isChain_iff_getElem]
  intro k hk
  rw [List.length_map, List.length_range'] at hk
  simpa [Nat.add_assoc] using h.differ hraw k hk

/-- The data of a run's chunk begins with its first pixel. -/
theorem Encoder.Cut.chunk_data_take (h : e.Cut px) : (e.chunk px).data.take (px e.cur).length = px e.cur := by
  obtain ⟨k, hk⟩ := Nat.exists_eq_add_of_le' h.one_le
  rw [h.chunk_data, hk, List.range'_succ, List.map_cons, List.flatten_cons, List.take_left]

end

/-! ### Two runs one after the other -/

section
variable {px : Nat → List Byte} {n i : Nat} {before after cs : List Chunk} {c d : Chunk}

theorem GreedyChunks.of_cons (h : GreedyChunks px n i (c :: cs)) :
    ∃ e : Encoder, e.n = n ∧ e.cur = i ∧ e.Cut px ∧ e.chunk px = c ∧ GreedyChunks px n (e.cur + e.rl) cs := by
  cases h with
  | @chunk e _ hn hcut hrest => exact ⟨e, hn, rfl, hcut, rfl, hrest⟩

theorem GreedyChunks.of_append (h : GreedyChunks px n i (before ++ after)) : ∃ j, GreedyChunks px n j after := by
  induction before generalizing i with
  | nil => exact ⟨i, h⟩
  | cons c before ih =>
    obtain ⟨e, -, -, -, -, hrest⟩ := h.of_cons
    exact ih hrest

theorem GreedyChunks.of_mem (h : GreedyChunks px n i cs) (hc : c ∈ cs) : ∃ e : Encoder, e.Cut px ∧ e.chunk px = c := by
  obtain ⟨before, after, rfl⟩ := List.append_of_mem hc
  obtain ⟨j, h⟩ := h.of_append
  obtain ⟨e, -, -, hcut, hchunk, -⟩ := h.of_cons
  exact ⟨e, hcut, hchunk⟩

/-- The runs `e` and `f` of the pixels up to number `n` follow each other. -/
structure Successive (px : Nat → List Byte) (n : Nat) (e f : Encoder) : Prop where
  first : e.Cut px
  second : f.Cut px
  next : f.cur = e.cur + e.rl
  target : e.n = n ∧ f.n = n

theorem GreedyChunks.successive (h : GreedyChunks px n i cs) (hcs : cs = before ++ c :: d :: after) :
    ∃ e f : Encoder, Successive px n e f ∧ e.chunk px = c ∧ f.chunk px = d := by
  subst hcs
  obtain ⟨j, h⟩ := h.of_append
  obtain ⟨e, hen, -, hecut, hec, hrest⟩ := h.of_cons
  obtain ⟨f, hfn, hfcur, hfcut, hfd, -⟩ := hrest.of_cons
  exact ⟨e, f, ⟨hecut, hfcut, hfcur, hen, hfn⟩, hec, hfd⟩

section
variable {e f : Encoder} (h : Successive px n e f)
include h

theorem Successive.second_lt : f.cur < n := by
  have h1 := h.second.one_le
  have hin := h.second.inside
  have hn := h.target.2
  omega

/-- The first of two runs does not reach the end of the buffer. -/
theorem Successive.inside : e.cur + e.rl < e.n := by
  have h1 := h.second.one_le
  have hin := h.second.inside
  have hnext := h.next
  obtain ⟨hen, hfn⟩ := h.target
  omega

/-- A repeat run is cut at 128 pixels or before a pixel that differs (R108). -/
theorem Successive.cut_run (hraw : e.raw = false) : e.rl = 128 ∨ px f.cur ≠ px e.cur := by
  have h1 := h.first.one_le
  obtain hmax | hend | hdiffer := h.first.cutRun hraw
  · exact .inl hmax
  · exact absurd hend (Nat.ne_of_lt h.inside)
  · have hlast : px (e.cur + e.rl - 1) = px e.cur := by
      rw [Nat.add_sub_assoc h1]
      exact h.first.pixel_eq hraw (by omega)
    rw [hlast, ← h.next] at hdiffer
    exact .inr hdiffer.symm

/-- A raw run is cut at 128 pixels or before a repeat run whose pixel differs from its last one (R110). -/
theorem Successive.cut_raw (hraw : e.raw = true) :
    e.rl = 128 ∨ f.raw = false ∧ px (f.cur - 1) ≠ px f.cur := by
  obtain hmax | hend | ⟨hmore, hdiffer, hequal⟩ := h.first.cutRaw hraw
  · exact .inl hmax
  · exact absurd hend (Nat.ne_of_lt h.inside)
  · rw [← h.next] at hmore hdiffer hequal
    refine .inr ⟨?_, hdiffer⟩
    by_contra hf
    have hfraw : f.raw = true := by simpa using hf
    obtain ⟨hen, hfn⟩ := h.target
    obtain h1 | h2 := Nat.eq_or_lt_of_le h.second.one_le
    · obtain hmax | hend | ⟨-, hne, -⟩ := h.second.cutRaw hfraw
      · omega
      · omega
      · rw [← h1, Nat.add_sub_cancel] at hne
        exact hne hequal
    · exact h.second.differ hfraw 0 h2 hequal

end

end

/-- Settles O40: the chunks are those of finished runs, whose modes and cuts `Encoder.Cut` states pixel by pixel. -/
theorem encodingIsGreedyChunks : Obligations.EncodingIsGreedyChunks := by
  intro s h
  obtain ⟨cs, hcs, hencoding⟩ := h.encoding_greedy
  have hcount : streamCount cs = s.pixelCount := (Nat.zero_add _).symm.trans hcs.count_eq
  have hlen : ∀ i < s.pixelCount, (s.pixelAt i).length = s.bpp := fun i hi =>
    Memory.bytes_length (bytes_pixelAt h.holds hi)
  refine ⟨streamBytes cs, streamData cs, cs, hencoding, ?data, rfl, rfl, hcount, hcs.fits hlen, fun m p hmem => ?two,
    fun ps hmem => ?chain, fun before after m p c heq => ?cutRun, fun before after ps c heq => ?cutRaw⟩
  case data => rw [data_eq_pixels h.holds, hcs.data_eq, hcount]
  case two =>
    obtain ⟨e, hcut, hchunk⟩ := hcs.of_mem hmem
    obtain ⟨hraw, rfl, -⟩ := Encoder.of_chunk_eq_run hchunk
    exact (hcut.repeats hraw).1
  case chain =>
    obtain ⟨e, hcut, hchunk⟩ := hcs.of_mem hmem
    obtain ⟨hraw, rfl⟩ := Encoder.of_chunk_eq_raw hchunk
    exact hcut.isChain_ne hraw
  case cutRun =>
    obtain ⟨e, f, hef, hchunk, rfl⟩ := hcs.successive heq
    obtain ⟨hraw, rfl, rfl⟩ := Encoder.of_chunk_eq_run hchunk
    refine (hef.cut_run hraw).imp_right fun hne => ?_
    rwa [← hlen f.cur hef.second_lt, hef.second.chunk_data_take]
  case cutRaw =>
    obtain ⟨e, f, hef, hchunk, rfl⟩ := hcs.successive heq
    obtain ⟨hraw, rfl⟩ := Encoder.of_chunk_eq_raw hchunk
    rw [List.length_map, List.length_range']
    refine (hef.cut_raw hraw).imp_right fun ⟨hfraw, hne⟩ => ⟨_, _, Encoder.chunk_of_run hfraw, ?_⟩
    have hlast : e.rl ≠ 0 := Nat.ne_of_gt hef.first.one_le
    rw [List.getLast?_map, List.getLast?_range', if_neg hlast, ← hef.next]
    simpa using hne

/-! ### Two buffers of the same pixels (R114) -/

/-- Two ENCODEs in progress stand at the same place of buffers with the same pixels, have emitted the same bytes, and
have every further byte accepted. -/
structure SameScan (s u : State) : Prop where
  left : Scanning s
  right : Scanning u
  cursor : u.enc.n = s.enc.n ∧ u.enc.cur = s.enc.cur
  bpp : u.bpp = s.bpp
  bytes : ∀ a k, a + k ≤ s.dataSize → u.pm.bytes a k = s.pm.bytes a k
  output : u.outS = s.outS
  accepts : s.outS.answers = []

section
variable {s u : State}

theorem SameScan.memRead_eq (h : SameScan s u) {a k : Nat} (hk : a + k ≤ s.dataSize) :
    memRead u a k = memRead s a k := by
  have hcount : u.pixelCount = s.pixelCount := h.right.target.symm.trans (h.cursor.1.trans h.left.target)
  have hsize : u.dataSize = s.dataSize := congrArg₂ (· * ·) hcount h.bpp
  obtain ⟨bs, hbs⟩ := Memory.bytes_isSome (m := s.pm) (a := a) (n := k) fun j hj => h.left.held _ (by omega)
  have hs := h.left.fit
  have hu := h.right.fit
  rw [Machine.memRead_eq (by omega) ((h.bytes a k hk).trans hbs), Machine.memRead_eq (by omega) hbs]

theorem SameScan.readPixelAt_eq (h : SameScan s u) {i : Nat} (hi : i < s.enc.n) :
    readPixelAt u i = .ok (s.pixelAt i) := by
  have hend := mul_bpp_le_dataSize (s := s) (i := i) (k := 1) (h.left.target ▸ hi)
  rw [← h.left.readPixelAt_eq hi, readPixelAt, readPixelAt, h.bpp, h.memRead_eq (by omega)]

/-- The search for a run finds the same in two banks of the same pixels. -/
theorem extendRun_congr {px : Nat → List Byte} (room : Nat) (e : Encoder)
    (hs : ∀ i < e.n, readPixelAt s i = .ok (px i)) (hu : ∀ i < e.n, readPixelAt u i = .ok (px i))
    (hcur : e.p + 1 = e.cur + e.rl) : extendRun u room e = extendRun s room e := by
  induction room generalizing e with
  | zero => rfl
  | succ room ih =>
    unfold extendRun
    by_cases hgo : e.cur + e.rl < e.n ∧ e.rl < 128
    · rw [if_pos hgo, if_pos hgo, hs e.p (by omega), hs (e.p + 1) (by omega),
        hu e.p (by omega), hu (e.p + 1) (by omega)]
      simp only [Eng.ok_bind]
      split
      · rfl
      · split
        · rfl
        · exact ih _ hs hu (by show e.p + 1 + 1 = e.cur + (e.rl + 1); omega)
    · rw [if_neg hgo, if_neg hgo]

/-- The outcome of an earlier comparison plays no part in the search; it stays where there is nothing to compare. -/
theorem extendRun_withEq {f : Encoder} (room : Nat) (e : Encoder) (b : Bool) (h : extendRun s room e = .ok f) :
    ∃ b', extendRun s room { e with eq := b } = .ok { f with eq := b' } := by
  cases room with
  | zero => cases h; exact ⟨b, rfl⟩
  | succ room =>
    by_cases hgo : e.cur + e.rl < e.n ∧ e.rl < 128
    · refine ⟨f.eq, Eq.trans ?_ h⟩
      unfold extendRun
      rw [if_pos hgo, if_pos hgo]
      rfl
    · rw [extendRun, if_neg hgo] at h
      cases h
      exact ⟨b, by rw [extendRun, if_neg hgo]⟩

/-- A pass of the loop into an output that accepts everything. -/
theorem encodeChunk_accepted {e : Encoder} {bs : List Byte} (hrun : extendRun s 128 s.enc.startRun = .ok e)
    (hread : memRead s (e.start * s.bpp) (e.payloadLength s.bpp) = .ok bs) (haccept : s.outS.answers = []) :
    encodeChunk s =
      .ok { s with enc := { e with cur := e.cur + e.rl }, outS := ⟨s.outS.data ++ e.header :: bs, []⟩ } := by
  rw [encodeChunk_eq hrun hread, outPutAll_accepted (by simp [haccept])]
  simp [haccept]

/-- A pass over both buffers finds the same run and emits the same bytes. -/
theorem SameScan.encodeChunk (h : SameScan s u) (hcur : s.enc.cur < s.enc.n) :
    ∃ v w, Machine.encodeChunk s = .ok v ∧ Machine.encodeChunk u = .ok w ∧ SameScan v w ∧ v.enc.n = s.enc.n ∧
      s.enc.cur < v.enc.cur ∧ v.enc.cur ≤ v.enc.n := by
  obtain ⟨hn, hc⟩ := h.cursor
  obtain ⟨e, hrun, hen, hecur, hstart, hcut⟩ := extendRun_cut 128 s.enc.startRun (fun i => h.left.readPixelAt_eq)
    (Encoder.startRun_runOver hcur) (by omega)
  obtain ⟨b, hrunu⟩ := extendRun_withEq 128 s.enc.startRun u.enc.eq ((extendRun_congr 128 s.enc.startRun
    (fun i => h.left.readPixelAt_eq) (fun i => h.readPixelAt_eq) rfl).trans hrun)
  have hrunu : extendRun u 128 u.enc.startRun = .ok { e with eq := b } := by
    rw [← hrunu]; unfold Encoder.startRun; rw [hn, hc]
  have h1 := hcut.one_le
  have hin : e.cur + e.rl ≤ e.n := hcut.inside
  have hstart : e.start = e.cur := hstart.trans hecur.symm
  have hread := hstart ▸ h.left.payload_eq hen hcut
  have hbound : e.start * s.bpp + e.payloadLength s.bpp ≤ s.dataSize := by
    have hlast := mul_bpp_le_dataSize (s := s) (i := e.cur) (k := e.rl) (h.left.target ▸ hen ▸ hin)
    have hone : 1 * s.bpp ≤ e.rl * s.bpp := Nat.mul_le_mul_right _ h1
    rw [hstart, Encoder.payloadLength]
    split <;> omega
  have hreadu : memRead u (e.start * u.bpp) (e.payloadLength u.bpp) = .ok (e.chunk s.pixelAt).payload := by
    rw [h.bpp, h.memRead_eq hbound, hread]
  refine ⟨_, _, encodeChunk_accepted hrun hread h.accepts,
    encodeChunk_accepted hrunu hreadu (h.output ▸ h.accepts), ?_, hen, ?_, hin⟩
  · exact {
      left := ⟨hen.trans h.left.target, h.left.held, h.left.fit⟩
      right := ⟨(hen.trans hn.symm).trans h.right.target, h.right.held, h.right.fit⟩
      cursor := ⟨rfl, rfl⟩
      bpp := h.bpp
      bytes := h.bytes
      output := by rw [h.output]; rfl
      accepts := rfl }
  · show s.enc.cur < e.cur + e.rl
    have hecur : e.cur = s.enc.cur := hecur
    omega

/-- The loop over both buffers emits the same bytes. -/
theorem SameScan.loop (fuel : Nat) (h : SameScan s u) (hcur : s.enc.cur ≤ s.enc.n)
    (hfuel : s.enc.n ≤ s.enc.cur + fuel) :
    ∃ v w, whileLoop (fun s => decide (s.enc.cur < s.enc.n)) Machine.encodeChunk fuel s = .ok v ∧
      whileLoop (fun s => decide (s.enc.cur < s.enc.n)) Machine.encodeChunk fuel u = .ok w ∧ w.outS = v.outS := by
  obtain ⟨hn, hc⟩ := h.cursor
  induction fuel generalizing s u with
  | zero =>
    exact ⟨s, u, whileLoop_done (by simp; omega), whileLoop_done (by simp; omega), h.output⟩
  | succ fuel ih =>
    by_cases hgo : s.enc.cur < s.enc.n
    · obtain ⟨v, w, hv, hw, hvw, hvn, hlt, hle⟩ := h.encodeChunk hgo
      rw [whileLoop, if_pos (by simpa using hgo), hv, whileLoop, if_pos (by simp; omega), hw]
      obtain ⟨hn', hc'⟩ := hvw.cursor
      exact ih hvw hle (by omega) hn' hc'
    · exact ⟨s, u, whileLoop_done (by simp; omega), whileLoop_done (by simp; omega), h.output⟩

end

/-- Held data determines the bytes of the bank below its size. -/
theorem byte_eq_of_data_eq {s u : State} (hheld : s.holds s.dataSize) (hdata : u.data = s.data)
    (hsize : u.dataSize = s.dataSize) {k : Nat} (hk : k < s.dataSize) : u.pm.byte k = s.pm.byte k := by
  have hs : s.pm.bytes 0 s.dataSize = some _ := data_eq_pixels hheld
  have hu : u.pm.bytes 0 s.dataSize = some _ := (hsize ▸ hdata : u.pm.bytes 0 s.dataSize = s.data).trans hs
  simpa using (Memory.byte_of_bytes hu hk).trans (Memory.byte_of_bytes hs hk).symm

/-- Two buffers of the same pixels, at the start of ENCODEs into outputs that accept everything. -/
theorem State.Ready.sameScan {s u : State} (hs : s.Ready) (hu : u.Ready) (hcount : u.pixelCount = s.pixelCount)
    (hbpp : u.bpp = s.bpp) (hdata : u.data = s.data) :
    SameScan (encodeStart { s with outS := ⟨[], []⟩ }) (encodeStart { u with outS := ⟨[], []⟩ }) where
  left := ⟨rfl, hs.holds, dataSize_le_capr hs.geometryOK⟩
  right := ⟨rfl, hu.holds, dataSize_le_capr hu.geometryOK⟩
  cursor := ⟨hcount, rfl⟩
  bpp := hbpp
  bytes a _ hk := Memory.bytes_congr fun _ hj =>
    byte_eq_of_data_eq hs.holds hdata (congrArg₂ (· * ·) hcount hbpp) (Nat.lt_of_lt_of_le (Nat.add_lt_add_left hj a) hk)
  output := rfl
  accepts := rfl

/-- Settles O42: the two loops run side by side, over the same pixels (`SameScan.loop`). -/
theorem encodingIgnoresTheShape : Obligations.EncodingIgnoresTheShape := by
  intro s u hs hu hcount hbpp hdata
  obtain ⟨v, w, hv, hw, hout⟩ := (hs.sameScan hu hcount hbpp hdata).loop s.pixelCount (Nat.zero_le _)
    (Nat.le_add_left ..)
  have hexec : exec .encode { s with outS := ⟨[], []⟩ } = settleScrub (.ok v) := by
    rw [← hv]; exact if_neg (by simpa [State.isEmpty] using hs.buffer)
  have hexecu : exec .encode { u with outS := ⟨[], []⟩ } = settleScrub (.ok w) := by
    rw [← hw, ← hcount]; exact if_neg (by simpa [State.isEmpty] using hu.buffer)
  rw [State.encoding, State.encoding, hexec, hexecu, settleScrub_ok, settleScrub_ok]
  simp [hout]

end Sys2Proof.Machine
end

-- The proofs about the invariant of the block: every step keeps it (R17, R18), and none stops from it (R41, R192).
section
/-! SUPPORT. From a state that meets the invariant every command, every chunk and every action of the host but one to a
bad offset gives a next state that meets it. -/

namespace Sys2Proof.Machine

/-- The outcome is a next state, and it meets the invariant. -/
def EndsInInv (r : Host.Outcome State Fault Refusal) : Prop := ∃ t, r = .next t ∧ t.Inv

/-! ### The invariant between commands -/

section
variable {s t : State}

theorem State.sameGeometry.dataSize_eq (h : s.sameGeometry t) : t.dataSize = s.dataSize :=
  congrArg₂ (· * ·) (congrArg₂ (· * ·) h.width_eq h.height_eq) h.bpp_eq

/-- A state between commands with the capacity and the shadow bank of one that meets the invariant, and a buffer of
its own. -/
theorem State.Inv.of_bank (h : s.Inv) (hidle : t.busy = false) (hcap : t.capr = s.capr) (hsh : t.sh = s.sh)
    (hwf : t.pm.wf) (hbelow : t.pm.below s.capr) (hgeometry : t.geometryZero ∨ t.geometryOK)
    (hheld : t.holds t.dataSize) : t.Inv where
  cap_min := hcap ▸ h.cap_min
  cap_max := hcap ▸ h.cap_max
  pm_wf := hwf
  sh_wf := hsh ▸ h.sh_wf
  pm_below := hcap ▸ hbelow
  sh_below := by rw [hcap, hsh]; exact h.sh_below
  geometry := hgeometry
  held _ := hheld
  decoding hbusy := by rw [hidle] at hbusy; cases hbusy

/-- A state between commands whose buffer, capacity and shadow bank are those of one that meets the invariant. -/
theorem State.Inv.of_sameBuffer (h : s.Inv) (hs : s.busy = false) (ht : t.busy = false) (hcap : t.capr = s.capr)
    (hpm : t.pm = s.pm) (hsh : t.sh = s.sh) (hgeometry : s.sameGeometry t) : t.Inv := by
  refine h.of_bank ht hcap hsh (hpm ▸ h.pm_wf) (hpm ▸ h.pm_below) ?geometry ?held
  case geometry =>
    obtain ⟨hw, hh, hb⟩ := hgeometry
    rw [State.geometryZero, State.geometryOK, hw, hh, hb, hcap]
    exact h.geometry
  case held =>
    rw [State.holds, hpm, hgeometry.dataSize_eq]
    exact h.held hs

/-- An error that leaves everything but `STATUS`. -/
theorem State.Inv.onlyStatus (h : s.Inv) (hs : s.busy = false) (e : Result) : (s.onlyStatus e).Inv :=
  h.of_sameBuffer hs rfl rfl rfl rfl ⟨rfl, rfl, rfl⟩

theorem State.Inv.ready (h : s.Inv) (hs : s.busy = false) (hbuffer : ¬ s.isEmpty = true) : s.Ready :=
  ⟨h, hs, Bool.eq_false_iff.2 hbuffer⟩

/-- A write takes the value of no byte away. -/
theorem Memory.isSome_byte_putAll {m : Memory} {a k : Nat} {bs : List Byte} (h : (m.byte k).isSome = true) :
    ((m.putAll a bs).byte k).isSome = true := by
  rw [Memory.byte_putAll]
  split
  next hin => rw [List.getElem?_eq_getElem (by omega)]; rfl
  next => exact h

theorem drawData_pm_wf (h : s.pm.wf) : (drawData s).pm.wf := Memory.wf_putAll h ..

theorem drawData_pm_below {cap : Nat} (h : s.pm.below cap) (hfit : s.dataSize ≤ cap) : (drawData s).pm.below cap :=
  Memory.below_putAll h (by simpa using hfit)

end

/-! ### The invariant inside a DECODE -/

section
variable {s u : State}

theorem DecRel.inv (h : s.Inv) (hbusy : s.busy = true) (hu : DecRel s u) : u.Inv := by
  have hdec := h.decoding hbusy
  have hfit := dataSize_le_capr hdec.geometry
  have hcap : u.capr = s.capr := by rw [hu.frame]
  have hsh : u.sh = s.sh := by rw [hu.frame]
  have hubusy : u.busy = true := by rw [hu.frame]; exact hbusy
  have hgeometry : u.geometryOK := by rw [hu.frame]; exact hdec.geometry
  exact {
    cap_min := hcap ▸ h.cap_min
    cap_max := hcap ▸ h.cap_max
    pm_wf := hu.wf h.pm_wf
    sh_wf := hsh ▸ h.sh_wf
    pm_below := hcap ▸ hu.below hfit h.pm_below
    sh_below := by rw [hcap, hsh]; exact h.sh_below
    geometry := .inr hgeometry
    held := fun hidle => by rw [hubusy] at hidle; cases hidle
    decoding := fun _ => {
      geometry := hgeometry
      target := by rw [hu.target, hdec.target, hu.frame]; rfl
      count_le := hu.count_le hdec.count_le
      offset := by rw [hu.offset, hu.bpp_eq]
      start_le := hu.start ▸ Nat.le_trans hdec.start_le hu.pos_ge
      held := hu.held hdec.held } }

/-- The end of a DECODE with the buffer full (R98). -/
theorem finishDecode_inv (h : s.Inv) (hbusy : s.busy = true) (hfull : s.dec.n ≤ s.dec.cnt) :
    (finishDecode s).Inv := by
  have hdec := h.decoding hbusy
  refine h.of_bank (finishDecode_busy s) (finishDecode_capr s) (finishDecode_sh s) ?_ ?_ ?_ ?_
  · rw [finishDecode_pm]; exact h.pm_wf
  · rw [finishDecode_pm]; exact h.pm_below
  · simpa [State.geometryOK, State.geometryZero] using h.geometry
  · have hsize : s.dataSize ≤ s.dec.wp := by
      rw [hdec.offset]
      exact Nat.mul_le_mul_right _ (hdec.target.symm.trans_le hfull)
    rw [State.holds, finishDecode_pm, finishDecode_dataSize]
    exact fun a ha => hdec.held a (Nat.lt_of_lt_of_le ha hsize)

/-- The end of a DECODE in error (R100). -/
theorem abortDecode_inv (h : s.Inv) (hbusy : s.busy = true) (e : Result) : (abortDecode e s).Inv := by
  have hdec := h.decoding hbusy
  refine h.of_bank (abortDecode_busy e s) (abortDecode_capr e s) (abortDecode_sh e s) ?_ ?_ ?_ ?_
  · rw [abortDecode_pm, ← drawData_pm]; exact drawData_pm_wf h.pm_wf
  · rw [abortDecode_pm, ← drawData_pm]; exact drawData_pm_below h.pm_below (dataSize_le_capr hdec.geometry)
  · simpa [State.geometryOK, State.geometryZero] using h.geometry
  · rw [abortDecode_dataSize]; exact abortDecode_holds e s

theorem ChunkLeaves.inv {t : State} (h : s.Inv) (hbusy : s.busy = true) (ht : ChunkLeaves s t) : t.Inv := by
  obtain ht | ⟨e, u, ⟨-, hu⟩, rfl⟩ := ht
  · exact ht.inv h hbusy
  · exact abortDecode_inv (hu.inv h hbusy) (by rw [hu.frame]; exact hbusy) e

/-- DECODE begins inside the invariant. -/
theorem decodeStart_inv (h : s.Inv) (hargs : s.argsOK) : (decodeStart s).Inv where
  cap_min := h.cap_min
  cap_max := h.cap_max
  pm_wf := h.pm_wf
  sh_wf := h.sh_wf
  pm_below := h.pm_below
  sh_below := h.sh_below
  geometry := .inr hargs
  held hidle := by cases hidle
  decoding _ := {
    geometry := hargs
    target := rfl
    count_le := Nat.zero_le _
    offset := (Nat.zero_mul _).symm
    start_le := Nat.le_refl _
    held := fun _ ha => absurd ha (Nat.not_lt_zero _) }

/-- A chunk's instruction runs inside a DECODE. -/
theorem exec_chunk_inv (h : s.Inv) (hbusy : s.busy = true) (b : Byte) : EndsInInv (exec (decodeHeader b) s) := by
  have hdec := h.decoding hbusy
  unfold decodeHeader
  split
  · obtain ⟨t, ht, hleaves⟩ := hdec.exec_raw (b.toNat + 1)
    exact ⟨t, ht, hleaves.inv h hbusy⟩
  · obtain ⟨t, ht, hleaves⟩ := hdec.exec_run (b.toNat - 127)
    exact ⟨t, ht, hleaves.inv h hbusy⟩

/-- A step inside a DECODE. -/
theorem chunkStep_inv (h : s.Inv) (hbusy : s.busy = true) : EndsInInv (chunkStep s) := by
  obtain hc | hfull := Nat.lt_or_ge s.dec.cnt s.dec.n
  · cases hi : s.incoming with
    | nil => exact ⟨_, chunkStep_of_no_header hc hi, abortDecode_inv h hbusy _⟩
    | cons b rest =>
      have htaken : DecRel s (setHeader b (s.taken 1)) :=
        ((DecRel.refl (h.decoding hbusy).offset).taken (by simp [hi])).withDec _ rfl rfl rfl rfl
      rw [chunkStep_of_header hc hi]
      exact exec_chunk_inv (htaken.inv h hbusy) hbusy b
  · exact ⟨_, chunkStep_of_full hfull, finishDecode_inv h hbusy hfull⟩

end

/-! ### The commands -/

section
variable {s : State} (h : s.Inv) (hidle : s.busy = false)
include h hidle

theorem exec_alloc_inv : EndsInInv (exec .alloc s) := by
  by_cases hargs : s.argsOK
  · have hfit : (setGeometry s.arg0 s.arg1 s.arg2 s).dataSize ≤ s.capr := dataSize_le_capr (s := setGeometry ..) hargs
    exact ⟨_, exec_alloc_of_argsOK hargs, h.of_bank rfl rfl rfl (drawData_pm_wf (s := setGeometry ..) h.pm_wf)
      (drawData_pm_below (s := setGeometry ..) h.pm_below hfit) (.inr hargs) (drawData_holds (s := setGeometry ..))⟩
  · exact ⟨_, exec_alloc_of_not_argsOK hargs, h.onlyStatus hidle _⟩

theorem exec_decode_inv : EndsInInv (exec .decode s) := by
  by_cases hargs : s.argsOK
  · have hstart := decodeStart_inv h hargs
    obtain ⟨u, hloop, hu, hfull⟩ | ⟨e, u, hloop, -, hu⟩ := decodeLoop_cases hargs
    · exact ⟨_, exec_decode_of_full hargs hloop, finishDecode_inv (hu.inv hstart rfl) (by rw [hu.frame]; rfl) hfull⟩
    · exact ⟨_, exec_decode_of_raising hargs hloop, abortDecode_inv (hu.inv hstart rfl) (by rw [hu.frame]; rfl) e⟩
  · exact ⟨_, exec_decode_of_not_argsOK hargs, h.onlyStatus hidle _⟩

/-- A command that asks for a buffer may be looked at with one. -/
theorem endsInInv_of_ready {i : Instr} (hi : i ∈ [Instr.scale, .flipv, .fliph, .encode, .getpix, .setpix])
    (hready : s.Ready → EndsInInv (exec i s)) : EndsInInv (exec i s) := by
  by_cases hempty : s.isEmpty = true
  · exact ⟨_, exec_of_isEmpty hempty i hi, h.onlyStatus hidle _⟩
  · exact hready (h.ready hidle hempty)

/-- GETPIX and ENCODE only read the buffer. -/
theorem State.Inv.of_reader {i : Instr} {t : State} (hi : i = .getpix ∨ i = .encode) (hexec : exec i s = .next t) :
    t.Inv := by
  have hkept := exec_kept hexec
  obtain ⟨hcommand, halloc, hdecode, hscale⟩ : i.isCommand = true ∧ i ≠ .alloc ∧ i ≠ .decode ∧ i ≠ .scale := by
    obtain rfl | rfl := hi <;> decide
  obtain ⟨-, -, hbusy⟩ := commandsEndInStatus i s t hcommand hexec
  obtain ⟨-, -, -, hcap⟩ := hkept.sameOperands
  exact h.of_sameBuffer hidle hbusy hcap (hkept.pm_eq hi) (hkept.sameShadow hscale).1
    (hkept.sameGeometry halloc hdecode hscale)

theorem exec_getpix_inv : EndsInInv (exec .getpix s) :=
  endsInInv_of_ready h hidle (by simp) fun hs => by
    by_cases hin : s.inBounds s.argX s.argY
    · obtain ⟨hx0, hx, hy0, hy⟩ := hin
      obtain ⟨v, -, -, -, hexec⟩ := getpixCopiesThePixel s hs hx0 hx hy0 hy
      exact ⟨_, hexec, h.of_reader hidle (.inl rfl) hexec⟩
    · exact ⟨_, exec_getpix_of_not_inBounds hs.buffer hin, h.onlyStatus hidle _⟩

theorem exec_encode_inv : EndsInInv (exec .encode s) :=
  endsInInv_of_ready h hidle (by simp) fun hs => by
    obtain ⟨cs, -, hemits⟩ := exec_encode_emits hs
    have hnext : ∃ t, exec .encode s = .next t := by
      rw [show exec .encode s = _ from hemits s.outS]
      obtain ⟨o, hout, -⟩ | ⟨o, hout⟩ := outPutAll_cases s (streamBytes cs)
      · exact ⟨_, congrArg settleScrub hout⟩
      · exact ⟨_, congrArg settleScrub hout⟩
    obtain ⟨t, hexec⟩ := hnext
    exact ⟨t, hexec, h.of_reader hidle (.inr rfl) hexec⟩

theorem exec_setpix_inv : EndsInInv (exec .setpix s) :=
  endsInInv_of_ready h hidle (by simp) fun hs => by
    by_cases hin : s.inBounds s.argX s.argY
    · have hfit := hs.argAddr_le_capr hin
      rw [← unpackPixel_length s.pix s.bpp] at hfit
      exact ⟨_, hs.exec_setpix hin, h.of_bank hidle rfl rfl (Memory.wf_putAll h.pm_wf ..)
        (Memory.below_putAll h.pm_below hfit) h.geometry fun a ha => Memory.isSome_byte_putAll (hs.holds a ha)⟩
    · exact ⟨_, exec_setpix_of_not_inBounds hs.buffer hin, h.onlyStatus hidle _⟩

theorem exec_flipv_inv : EndsInInv (exec .flipv s) :=
  endsInInv_of_ready h hidle (by simp) fun hs => by
    obtain ⟨t, hexec, ht⟩ := exec_flipv_flipped hs
    exact ⟨t, hexec, ht.ready.inv⟩

theorem exec_fliph_inv : EndsInInv (exec .fliph s) :=
  endsInInv_of_ready h hidle (by simp) fun hs => by
    obtain ⟨t, hexec, ht⟩ := exec_fliph_flipped hs
    exact ⟨t, hexec, ht.ready.inv⟩

theorem exec_scale_inv : EndsInInv (exec .scale s) :=
  endsInInv_of_ready h hidle (by simp) fun hs => by
    by_cases haccepted : s.scaleOK
    · obtain ⟨t, hexec, ht⟩ := exec_scale_scaled ⟨hs, haccepted⟩
      exact ⟨t, hexec, ht.ready.inv⟩
    · exact ⟨_, exec_scale_refused haccepted, h.onlyStatus hidle _⟩

/-- Every command, from between commands. -/
theorem exec_command_inv {i : Instr} (hi : i.isCommand = true) : EndsInInv (exec i s) := by
  cases i with
  | raw n => cases hi
  | run n => cases hi
  | alloc => exact exec_alloc_inv h hidle
  | getpix => exact exec_getpix_inv h hidle
  | setpix => exact exec_setpix_inv h hidle
  | decode => exact exec_decode_inv h hidle
  | encode => exact exec_encode_inv h hidle
  | flipv => exact exec_flipv_inv h hidle
  | fliph => exact exec_fliph_inv h hidle
  | scale => exact exec_scale_inv h hidle

end

/-! ### The host -/

/-- A word that decodes is a command. -/
theorem isCommand_of_decode {c : Word} {i : Instr} (h : decode (.command c) = .ok i) : i.isCommand = true := by
  obtain ⟨hencode, -⟩ := encode_of_decodeCommand h
  cases i with
  | raw n => cases hencode
  | run n => cases hencode
  | _ => rfl

/-- After the reset input there is no buffer, and both banks are without values (R181). -/
theorem resetBlock_inv {s : State} (h : s.Inv) : (resetBlock s).Inv where
  cap_min := h.cap_min
  cap_max := h.cap_max
  pm_wf := .nil
  sh_wf := .nil
  pm_below := nofun
  sh_below := nofun
  geometry := .inl ⟨rfl, rfl, rfl⟩
  held _ := nofun
  decoding := nofun

section
variable {s : State} (h : s.Inv) (hidle : s.busy = false)
include h hidle

theorem startCommand_inv (c : Word) : EndsInInv (startCommand c s) := by
  unfold startCommand
  split
  next i hdec => exact exec_command_inv h hidle (isCommand_of_decode hdec)
  next => exact ⟨_, rfl, h.onlyStatus hidle _⟩

/-- The registers that the host writes are none of the buffer's (R11). -/
theorem writeReg_inv (v : Word) (r : Reg) : (s.writeReg v r).Inv := by
  cases r with
  | cmd | pbW | pbH | pbBpp | capr => exact h
  | _ => exact h.of_sameBuffer hidle hidle rfl rfl rfl ⟨rfl, rfl, rfl⟩

theorem hostWrite_inv (o : Nat) (v : Word) :
    EndsInInv (hostWrite o v s) ∨ ∃ o', hostWrite o v s = .refused (.notARegister o') := by
  unfold hostWrite
  split
  next => exact .inl (startCommand_inv h hidle v)
  next => exact .inl ⟨_, rfl, writeReg_inv h hidle v _⟩
  next => exact .inr ⟨o, rfl⟩

theorem hostRead_inv (o : Nat) : EndsInInv (hostRead o s) ∨ ∃ o', hostRead o s = .refused (.notARegister o') := by
  unfold hostRead
  split
  next => exact .inl ⟨_, rfl, h.of_sameBuffer hidle hidle rfl rfl rfl ⟨rfl, rfl, rfl⟩⟩
  next => exact .inr ⟨o, rfl⟩

/-- What the host's action comes to: a next state inside the invariant, or the refusal of a bad offset (log 12). -/
theorem hostStep_inv (op : HostOp) : EndsInInv (hostStep op s) ∨ ∃ o, hostStep op s = .refused (.notARegister o) := by
  cases op with
  | write o v => exact hostWrite_inv h hidle o v
  | read o => exact hostRead_inv h hidle o
  | reset => exact .inl ⟨_, rfl, resetBlock_inv h⟩
  | supplyIn data pos failAt => exact .inl ⟨_, rfl, h.of_sameBuffer hidle hidle rfl rfl rfl ⟨rfl, rfl, rfl⟩⟩
  | supplyOut answers => exact .inl ⟨_, rfl, h.of_sameBuffer hidle hidle rfl rfl rfl ⟨rfl, rfl, rfl⟩⟩

end

/-! ### Every step -/

/-- A step from inside the invariant gives a next state inside it, or is the access to a bad offset. -/
theorem step_inv {s : State} (h : s.Inv) : EndsInInv (step s) ∨ ∃ o, step s = .refused (.notARegister o) := by
  cases hbusy : s.busy with
  | true =>
    rw [step_of_busy hbusy]
    exact .inl (chunkStep_inv h hbusy)
  | false =>
    cases hhost : s.host with
    | nil => exact .inl ⟨s, idleHoldsEverything s hbusy hhost, h⟩
    | cons op ops =>
      rw [step_of_host hbusy hhost]
      have hpopped : State.Inv { s with host := ops } := h.of_sameBuffer hbusy hbusy rfl rfl rfl ⟨rfl, rfl, rfl⟩
      exact hostStep_inv hpopped hbusy op

/-- Settles O50: the next state of `step_inv` is the only one. -/
theorem stepKeepsTheInvariant : Obligations.StepKeepsTheInvariant := by
  intro s t h hstep
  obtain ⟨u, hu, hinv⟩ | ⟨o, ho⟩ := step_inv h
  · cases hu.symm.trans hstep
    exact hinv
  · cases ho.symm.trans hstep

/-- Settles O51: `step_inv`, without the invariant of the next state. -/
theorem stepNeverFaults : Obligations.StepNeverFaults := fun _ h =>
  (step_inv h).imp_left fun ⟨t, ht, _⟩ => ⟨t, ht⟩

end Sys2Proof.Machine
end
